-- ==== Sys2Proof/Word.lean ====
section
/-! DEFINITION. The words of N5110-TX: bytes and signal levels (spec/00_scope.md R6). -/

namespace Sys2Proof

/-- A byte: 8 bits, bit 7 the most significant (R6). -/
abbrev Byte := BitVec 8

/-- A signal level: `false` is 0 (LOW), `true` is 1 (HIGH) (R6). -/
abbrev Level := Bool

end Sys2Proof
end

