-- ==== Sys2Proof/Syntax.lean ====
section
/-! DEFINITION. The syntax of N5110-TX: pins, events, the receiver's named settings, and the one inductive `Instr`, a constructor
for every row of spec/opcode_table.json: eleven requests (format REQ20, R61) and eleven frames (format FRAME9, R68). -/

namespace Sys2Proof

/-- The six pin registers (spec/10_state.md R12). -/
inductive Pin where
  | rst | cs | dc | din | clk | aux
deriving DecidableEq, Repr

/-- An event of a trace (spec/00_scope.md R7). -/
inductive Event where
  /-- `S(p, v)`: pin register `p` is written with level `v`. -/
  | set (p : Pin) (v : Level)
  /-- `H(d)`: a hold of at least `us` microseconds in which no pin register changes. -/
  | hold (us : Nat)
  /-- `CFG`: the output drivers of all pins are enabled. -/
  | cfg
deriving DecidableEq, Repr

/-- The mode of a frame (spec/30_encoding.md R63). -/
inductive Mode where
  | command | data
deriving DecidableEq, Repr

/-- `CTRL_STATE` (spec/10_state.md R19). -/
inductive CtrlState where
  | unpowered | reset | extendedMode | normalMode
deriving DecidableEq, Repr

/-- `RX.H`, the receiver's instruction-set mode (spec/10_state.md R24). -/
inductive InstrSet where
  | basic | extended
deriving DecidableEq, Repr, Inhabited

/-- `RX.DISPLAY` (spec/10_state.md R25). `blank` and `allOn` exist on the chip only by general knowledge (log entry 24): no
frame of the table selects them, an arbitrary value may be one of them. -/
inductive Display where
  | normal | inverse | blank | allOn
deriving DecidableEq, Repr, Inhabited

/-- `RX.ADDR_MODE` (spec/10_state.md R30). `vertical` exists only by general knowledge (log entry 24) and has no rule. -/
inductive AddrMode where
  | horizontal | vertical
deriving DecidableEq, Repr, Inhabited

/-- The instructions. A request carries the operand fields of R62 (its unused bits select nothing, R71); a frame carries the
operand bits of R68. -/
inductive Instr where
  | txb (byte : Byte) (msbFirst : Bool)
  | wrb (mode : Mode) (byte : Byte)
  | init
  | contrast (level : Byte)
  | goto (x y : Byte)
  | clear
  | image
  | char (ch : Byte)
  | text (n : Byte)
  | pad (n : Byte)
  | border
  | fsetExt
  | fsetBasic
  | setx (x : BitVec 7)
  | sety (y : BitVec 3)
  | dispNormal
  | dispInverse
  | setvop (v : BitVec 7)
  | vopZero
  | settc
  | setbias
  | data (d : Byte)
deriving DecidableEq, Repr

end Sys2Proof
end

