-- ==== Sys2Proof/Config.lean ====
section
/-! DEFINITION. What an implementation fixes: the parameters of spec/00_scope.md R5 as plain data, and the free values of
spec/93_implementation_defined.md as constants without a body. -/

namespace Sys2Proof

/-- `CLK_HZ`, the frequency of the block's clock: OPEN (R5, U19; log entry 4). -/
opaque Config.clkHz : Nat

/-- The glyph bytes the spec does not give: OPEN (R5, R43, U13; log entry 5). -/
opaque Config.glyphFree : Nat → Nat → Byte

/-- `GLYPH[r][k]` (spec/20_memory.md R43): the one row the source gives is that of 'A', row 0x21; the others are free. -/
def Config.glyph (r k : Nat) : Byte :=
  if r = 0x21 then [0x7E, 0x11, 0x11, 0x11, 0x7E].getD k 0 else Config.glyphFree r k

/-- What the block reads at an OPB index nothing has written (R42; log entry 11): free. -/
opaque Config.opbUnwritten : Nat → Byte

/-- How many cycles the implementation adds to its `n`-th hold beyond the minimum (R17, U12; log entry 2): free. -/
opaque Config.extraCycles : Nat → Nat

/-- Whether the running operation sees the `n`-th byte the host changes under it (R56, U6; log entry 12): free. -/
opaque Config.hostWriteSeen : Nat → Bool

/-- The receiver's fields where the spec leaves them arbitrary (R32, R154, R192; log entries 7, 8): free, one per draw. -/
opaque Config.rxH : Nat → InstrSet
opaque Config.rxAddrMode : Nat → AddrMode
opaque Config.rxDisplay : Nat → Display
opaque Config.rxVop : Nat → BitVec 7
opaque Config.rxTc : Nat → Byte
opaque Config.rxBias : Nat → Byte
opaque Config.rxX : Nat → BitVec 7
opaque Config.rxY : Nat → BitVec 3
opaque Config.rxSr : Nat → Byte
opaque Config.rxBitcnt : Nat → BitVec 3

/-- The parameters of R5, but for `GLYPH`. Times are in microseconds; `rstPulseT` and `tailT` are in units of `tUs`. -/
structure Params where
  tUs : Nat
  tPwrUs : Nat
  rstPulseT : Nat
  tRstRecUs : Nat
  tSettleUs : Nat
  tailT : Nat
  cols : Nat
  bands : Nat
  vopDefaultCmd : Byte
  tcCmd : Byte
  biasCmd : Byte
  /-- `INVERSE` (R106). -/
  inverse : Bool
  /-- `HAS_AUX` (R12). -/
  hasAux : Bool
  /-- `DC_CMD_LEVEL` (R93). -/
  dcCmdLevel : Level
  /-- `WRAP_LAST` (R151): the address after a data write at the last cell, `none` where it is left arbitrary (U10). -/
  wrapLast : Option (BitVec 7 × BitVec 3)
  clkHz : Nat
deriving DecidableEq, Repr

/-- The defaults of R5's table. -/
def Params.default : Params where
  tUs := 14
  tPwrUs := 10000
  rstPulseT := 3
  tRstRecUs := 10000
  tSettleUs := 100000
  tailT := 2
  cols := 84
  bands := 6
  vopDefaultCmd := 0xB1
  tcCmd := 0x04
  biasCmd := 0x14
  inverse := false
  hasAux := true
  dcCmdLevel := false
  wrapLast := some (0, 0)
  clkHz := Config.clkHz

/-- `NCELL` = `COLS * BANDS` (R5). -/
def Params.ncell (p : Params) : Nat := p.cols * p.bands

/-- The parameters fit the widths the spec gives: a 7-bit column, a 3-bit band (R27), a frame buffer inside OPB's 512 bytes
(R42), and `WRAP_LAST` a cell. -/
def Params.wf (p : Params) : Bool :=
  decide (0 < p.cols) && decide (p.cols ≤ 128) && decide (0 < p.bands) && decide (p.bands ≤ 8) &&
    decide (p.ncell ≤ 512) &&
    (match p.wrapLast with
     | none => true
     | some (x, y) => decide (x.toNat < p.cols) && decide (y.toNat < p.bands))

end Sys2Proof
end

