-- ==== Sys2Proof/WellFormed.lean ====
section
/-! DEFINITION. Well-formed instructions: the operand ranges the spec makes the host's duty (spec/70_reset_and_hazards.md R206)
and the ranges of the frames' operands (spec/44_display_commands.md R144, R145). An ill-formed instruction still decodes and
still runs on the block (R108, R171): it is the receiver that it leaves without a defined state (R154). -/

namespace Sys2Proof

/-- A COMMAND byte some row of R68's table matches, in one instruction set or the other; a column above 83 is left to the mode
the byte arrives in. -/
def commandInTable (b : Byte) : Bool :=
  b == 0x21 || b == 0x20 || b == 0x0C || b == 0x0D || b == 0x00 || b == 0x04 || b == 0x14 || b.getLsbD 7 ||
    (b.extractLsb' 3 5 == 0b01000 && decide (b.extractLsb' 0 3 < 6))

/-- The operands are in the ranges the spec gives (R206, R144, R145). -/
def Instr.wf : Instr → Bool
  | .txb _ _ => true
  | .wrb .command b => commandInTable b
  | .wrb .data _ => true
  | .init => true
  | .contrast level => decide (level ≤ 0x7F)
  | .goto x y => decide (x ≤ 83) && decide (y ≤ 5)
  | .clear => true
  | .image => true
  | .char _ => true
  | .text _ => true
  | .pad _ => true
  | .border => true
  | .fsetExt => true
  | .fsetBasic => true
  | .setx x => decide (x ≤ 83)
  | .sety y => decide (y ≤ 5)
  | .dispNormal => true
  | .dispInverse => true
  | .setvop _ => true
  | .vopZero => true
  | .settc => true
  | .setbias => true
  | .data _ => true

/-- The instruction sets in which the row of a frame applies (R68, R73); a request does not look at it. -/
def Instr.appliesIn (i : Instr) (h : InstrSet) : Bool :=
  match i with
  | .txb _ _ => true
  | .wrb _ _ => true
  | .init => true
  | .contrast _ => true
  | .goto _ _ => true
  | .clear => true
  | .image => true
  | .char _ => true
  | .text _ => true
  | .pad _ => true
  | .border => true
  | .fsetExt => true
  | .fsetBasic => true
  | .setx _ => h == .basic
  | .sety _ => h == .basic
  | .dispNormal => true
  | .dispInverse => true
  | .setvop _ => h == .extended
  | .vopZero => h == .extended
  | .settc => h == .extended
  | .setbias => h == .extended
  | .data _ => true

end Sys2Proof
end

