-- ==== Sys2Proof/Decode.lean ====
section
/-! DEFINITION. Decoding and encoding of request words (spec/30_encoding.md R60 to R62, R70, R71) and of frames (R63, R68, R73),
and the host's `decodeTableWord`. -/

namespace Sys2Proof

/-- Why a word is no instruction. -/
inductive Reject where
  /-- A request word whose `op` is 0x0 or 0xC to 0xF (R70). -/
  | reservedOpcode (op : BitVec 4)
  /-- A COMMAND byte that no row of R68 gives a meaning in the receiver's instruction set (R72, R154). -/
  | outsideTable (h : InstrSet) (byte : Byte)
deriving DecidableEq, Repr

/-- The two formats of spec/opcode_table.json: a 20-bit request word, a 9-bit frame word `F[8:0]` (R60, R63). -/
inductive Code where
  | request (w : BitVec 20)
  | frame (f : BitVec 9)
deriving DecidableEq, Repr

/-- The fields of a request word (R60). -/
def reqOp (w : BitVec 20) : BitVec 4 := w.extractLsb' 16 4
def reqA (w : BitVec 20) : Byte := w.extractLsb' 8 8
def reqB (w : BitVec 20) : Byte := w.extractLsb' 0 8

/-- A request word from its fields (R60). -/
def reqWord (op : BitVec 4) (a b : Byte) : BitVec 20 := (op ++ a : BitVec 12) ++ b

/-- The mode operand of WRB is bit 0 of `b`: 0 COMMAND, 1 DATA (R62). -/
def modeOfBit (v : Bool) : Mode := if v then .data else .command
def Mode.bit : Mode → Bool
  | .command => false
  | .data => true

/-- A flag carried in bit 0 of `b`, the unused bits 0 (R62, R71). -/
def flagByte (v : Bool) : Byte := if v then 1 else 0

/-- Decoding a request word: look `op` up, take the fields of R62, ignore the unused bits (R69, R71). -/
def decodeRequest (w : BitVec 20) : Except Reject Instr :=
  if reqOp w = 0x1 then .ok (.txb (reqA w) ((reqB w).getLsbD 0))
  else if reqOp w = 0x2 then .ok (.wrb (modeOfBit ((reqB w).getLsbD 0)) (reqA w))
  else if reqOp w = 0x3 then .ok .init
  else if reqOp w = 0x4 then .ok (.contrast (reqA w))
  else if reqOp w = 0x5 then .ok (.goto (reqA w) (reqB w))
  else if reqOp w = 0x6 then .ok .clear
  else if reqOp w = 0x7 then .ok .image
  else if reqOp w = 0x8 then .ok (.char (reqA w))
  else if reqOp w = 0x9 then .ok (.text (reqA w))
  else if reqOp w = 0xA then .ok (.pad (reqA w))
  else if reqOp w = 0xB then .ok .border
  else .error (.reservedOpcode (reqOp w))

/-- Decoding a COMMAND byte under the receiver's instruction set (R68, R73). -/
def decodeCommand (h : InstrSet) (b : Byte) : Except Reject Instr :=
  if b = 0x21 then .ok .fsetExt
  else if b = 0x20 then .ok .fsetBasic
  else if b = 0x0C then .ok .dispNormal
  else if b = 0x0D then .ok .dispInverse
  else
    match h with
    | .basic =>
      if b.getLsbD 7 then .ok (.setx (b.extractLsb' 0 7))
      else if b.extractLsb' 3 5 = 0b01000 then .ok (.sety (b.extractLsb' 0 3))
      else .error (.outsideTable .basic b)
    | .extended =>
      if b.getLsbD 7 then .ok (.setvop (b.extractLsb' 0 7))
      else if b = 0x00 then .ok .vopZero
      else if b = 0x04 then .ok .settc
      else if b = 0x14 then .ok .setbias
      else .error (.outsideTable .extended b)

/-- Decoding a frame: DATA frames are decoded the same in both instruction sets (R73). -/
def decodeFrame (h : InstrSet) (m : Mode) (b : Byte) : Except Reject Instr :=
  match m with
  | .data => .ok (.data b)
  | .command => decodeCommand h b

/-- Decoding either format; `h` is read for a frame only. -/
def decode (h : InstrSet) : Code → Except Reject Instr
  | .request w => decodeRequest w
  | .frame f => decodeFrame h (modeOfBit (f.getLsbD 8)) (f.extractLsb' 0 8)

/-- A frame word from its fields: `F[8]` 0 for COMMAND, 1 for DATA (R63). -/
def frameWord (m : Mode) (b : Byte) : BitVec 9 := BitVec.ofBool m.bit ++ b

/-- The word of an instruction, its unused bits 0 (R62, R68, R71). -/
def encode : Instr → Code
  | .txb byte m => .request (reqWord 0x1 byte (flagByte m))
  | .wrb mode byte => .request (reqWord 0x2 byte (flagByte mode.bit))
  | .init => .request (reqWord 0x3 0 0)
  | .contrast level => .request (reqWord 0x4 level 0)
  | .goto x y => .request (reqWord 0x5 x y)
  | .clear => .request (reqWord 0x6 0 0)
  | .image => .request (reqWord 0x7 0 0)
  | .char ch => .request (reqWord 0x8 ch 0)
  | .text n => .request (reqWord 0x9 n 0)
  | .pad n => .request (reqWord 0xA n 0)
  | .border => .request (reqWord 0xB 0 0)
  | .fsetExt => .frame (frameWord .command 0x21)
  | .fsetBasic => .frame (frameWord .command 0x20)
  | .setx x => .frame (frameWord .command (1#1 ++ x))
  | .sety y => .frame (frameWord .command (0b01000#5 ++ y))
  | .dispNormal => .frame (frameWord .command 0x0C)
  | .dispInverse => .frame (frameWord .command 0x0D)
  | .setvop v => .frame (frameWord .command (1#1 ++ v))
  | .vopZero => .frame (frameWord .command 0x00)
  | .settc => .frame (frameWord .command 0x04)
  | .setbias => .frame (frameWord .command 0x14)
  | .data d => .frame (frameWord .data d)

/-- Forget why a word was rejected. -/
def accepted {α : Type} : Except Reject α → Option α
  | .ok i => some i
  | .error _ => none

/-- A frame word with no receiver beside it: read in the BASIC set, and in the EXTENDED set where BASIC gives it no meaning
(log entry 18). -/
def decodeFrameWord (f : BitVec 9) : Option Instr :=
  (accepted (decode .basic (.frame f))).orElse (fun _ => accepted (decode .extended (.frame f)))

/-- The host's question: the instruction of a row's word. A request row has 20 bits (24 in whole bytes), a frame row 9 (16). -/
def decodeTableWord (nbits w : Nat) : Option Instr :=
  if nbits = 20 ∨ nbits = 24 then
    if w < 2 ^ 20 then accepted (decodeRequest (BitVec.ofNat 20 w)) else none
  else if nbits = 9 ∨ nbits = 16 then
    if w < 2 ^ 9 then decodeFrameWord (BitVec.ofNat 9 w) else none
  else none

end Sys2Proof
end

