-- ==== Sys2Proof/Machine/State.lean ====
section
/-! DEFINITION. The state of N5110-TX (spec/10_state.md R10 to R31, spec/20_memory.md R40 to R43), the receiver's among it,
its value after reset, and the reasons a step can stop. -/

namespace Sys2Proof.Machine

/-- The one reason the machine stops with a fault. The spec has none (spec/60_exceptions.md R170). -/
inductive Fault where
  /-- Raised by `step` in a state with BUSY = 1 and UPC past the end of the trace, which R14 rules out and no run reaches
  (log entry 26). Safe. -/
  | upcPastEnd
deriving DecidableEq, Repr

/-- Refusals. No meaning of this model refuses. -/
inductive Refusal where
  /-- Raised by `exec` for an instruction that has no meaning yet: none has to. Safe. -/
  | notModelled (mnemonic : String)
deriving DecidableEq, Repr

/-- A byte memory: (address, byte) pairs, addresses strictly rising. An address that is not listed has no value. -/
abbrev Memory := List Host.Cell

/-- The six pin registers (R12). -/
structure Pins where
  rst : Level
  cs : Level
  dc : Level
  din : Level
  clk : Level
  aux : Level
deriving DecidableEq, Repr

/-- The receiver (R23 to R30, R41). -/
structure Rx where
  /-- `RX.H` (R24). -/
  h : InstrSet
  addrMode : AddrMode
  display : Display
  vop : BitVec 7
  /-- `RX.TC`, kept as the whole byte (R28). -/
  tc : Byte
  /-- `RX.BIAS`, kept as the whole byte (R28). -/
  bias : Byte
  x : BitVec 7
  y : BitVec 3
  sr : Byte
  bitcnt : BitVec 3
  ddram : Memory
  /-- The receiver has no defined state: every other field is arbitrary, until the next reset pulse (R154, R192; log entry 7). -/
  undef : Bool
deriving DecidableEq, Repr

/-- What the host does, one action a step (spec/70_reset_and_hazards.md R213; log entry 13). -/
inductive HostAct where
  /-- Nothing in this step. -/
  | wait
  /-- `rst_n` is low in this step (R190). -/
  | reset
  /-- The host writes a byte of OPB. -/
  | writeOpb (i : BitVec 9) (b : Byte)
  /-- The host has one more request to present, after those it already has. -/
  | request (w : BitVec 20)
deriving DecidableEq, Repr

/-- The whole machine. -/
structure State where
  /-- The parameters of R5: no step changes them. -/
  params : Params
  /-- `REQ` (R11). -/
  req : BitVec 20
  /-- `PIN` (R12). -/
  pins : Pins
  /-- `OE` (R13). -/
  oe : Bool
  /-- `UPC` (R14). -/
  upc : Nat
  /-- `BUSY` (R16). -/
  busy : Bool
  /-- `HCNT` (R17). -/
  hcnt : Nat
  /-- The model's own: the hold at UPC has been loaded into HCNT and is being waited out (log entry 1). -/
  holding : Bool
  /-- The model's own: cycles the hold goes on after HCNT has reached 0 (U12; log entry 2). -/
  stall : Nat
  /-- `ILL` (R18). -/
  ill : Bool
  /-- `CTRL_STATE` (R19). -/
  ctrl : CtrlState
  /-- The output `done` (R20). -/
  done : Bool
  /-- `OPB`, the host's operand buffer (R42). -/
  opb : Memory
  /-- The model's own: the operand bytes of the running operation, OPB as it stood at acceptance (R56; log entry 12). -/
  opbAcc : Memory
  /-- The receiver. -/
  rx : Rx
  /-- The host's requests not yet accepted, the head on the port (R20, R212). -/
  requests : List (BitVec 20)
  /-- What the host does in the coming steps, the next first; nothing when empty (R213). -/
  hostIn : List HostAct
  /-- The events emitted so far, the block's observable (R7, D25; log entry 21). -/
  log : List Event
  /-- The model's own: how many free values have been drawn. -/
  freeCtr : Nat
deriving DecidableEq, Repr

/-- The pin registers after hardware reset (R31). -/
def Pins.reset : Pins where
  rst := true
  cs := true
  dc := true
  din := false
  clk := false
  aux := true

/-- The receiver at power-on. The spec leaves every field but BITCNT arbitrary until INIT has run (R32, R192), which `undef`
says; the values named here are the family's reset state of G2 (log entry 6). -/
def Rx.reset : Rx where
  h := .basic
  addrMode := .horizontal
  display := .blank
  vop := 0
  tc := 0x04
  bias := 0x10
  x := 0
  y := 0
  sr := 0
  bitcnt := 0
  ddram := []
  undef := true

/-- The machine right after hardware reset (R31, R191), with the default parameters of R5. -/
def State.reset : State where
  params := Params.default
  req := 0
  pins := Pins.reset
  oe := false
  upc := 0
  busy := false
  hcnt := 0
  holding := false
  stall := 0
  ill := false
  ctrl := .unpowered
  done := false
  opb := []
  opbAcc := []
  rx := Rx.reset
  requests := []
  hostIn := []
  log := []
  freeCtr := 0

end Sys2Proof.Machine
end

