-- ==== Sys2Proof/Machine/Ops.lean ====
section
/-! DEFINITION. The named operations over memories, pin registers, the receiver and the block's registers. -/

namespace Sys2Proof.Machine

/-! ### Memories (canonical form: addresses strictly rising; an unlisted address has no value) -/

/-- The byte at an address, `none` where nothing has given it a value. -/
def Memory.read : Memory → Nat → Option Byte
  | [], _ => none
  | (k, v) :: m, a => if a = k then some v else Memory.read m a

/-- Write one byte, keeping the addresses rising. -/
def Memory.write : Memory → Nat → Byte → Memory
  | [], a, b => [(a, b)]
  | (k, v) :: m, a, b =>
    if a < k then (a, b) :: (k, v) :: m
    else if a = k then (a, b) :: m
    else (k, v) :: Memory.write m a b

/-- Every address lies in `lo ≤ a < size`, and they rise strictly. -/
def Memory.risingFrom : Memory → Nat → Nat → Bool
  | [], _, _ => true
  | (k, _) :: m, lo, size => decide (lo ≤ k) && decide (k < size) && Memory.risingFrom m (k + 1) size

/-- The canonical form of a memory of `size` bytes. -/
def Memory.wf (m : Memory) (size : Nat) : Bool := Memory.risingFrom m 0 size

/-! ### Pin registers (R12) -/

/-- The level a pin register holds. -/
def Pins.get (q : Pins) : Pin → Level
  | .rst => q.rst
  | .cs => q.cs
  | .dc => q.dc
  | .din => q.din
  | .clk => q.clk
  | .aux => q.aux

/-- `PIN[p] <- v` (R8). -/
def Pins.put (q : Pins) (p : Pin) (v : Level) : Pins :=
  match p with
  | .rst => { q with rst := v }
  | .cs => { q with cs := v }
  | .dc => { q with dc := v }
  | .din => { q with din := v }
  | .clk => { q with clk := v }
  | .aux => { q with aux := v }

/-! ### The receiver's arbitrary values (R32, R154, R192) -/

/-- The `n`-th draw of a receiver: every field a free value, no cell with a value. -/
def Rx.drawn (n : Nat) (bitcnt : BitVec 3) (undef : Bool) : Rx where
  h := Config.rxH n
  addrMode := Config.rxAddrMode n
  display := Config.rxDisplay n
  vop := Config.rxVop n
  tc := Config.rxTc n
  bias := Config.rxBias n
  x := Config.rxX n
  y := Config.rxY n
  sr := Config.rxSr n
  bitcnt := bitcnt
  ddram := []
  undef := undef

/-- The receiver has no defined state from here on, until the next reset pulse (R154). -/
def State.loseRx (s : State) : State :=
  { s with rx := Rx.drawn s.freeCtr (Config.rxBitcnt s.freeCtr) true, freeCtr := s.freeCtr + 1 }

/-- The receiver at power-on and after `rst_n`: BITCNT is 0 (U9), everything else arbitrary, and no frame gives it a defined state
before a reset pulse (R192). -/
def State.forgetRx (s : State) : State :=
  { s with rx := Rx.drawn s.freeCtr 0 true, freeCtr := s.freeCtr + 1 }

/-- The receiver's reset pulse: BITCNT is 0, everything else unspecified (R152, R32). -/
def State.pulseRx (s : State) : State :=
  { s with rx := Rx.drawn s.freeCtr 0 false, freeCtr := s.freeCtr + 1 }

/-- A change of the receiver alone. -/
def State.setRx (s : State) (r : Rx) : State := { s with rx := r }

/-- A frame reaches the receiver: nothing defined happens in a receiver without a defined state (R154), else it takes `f`. -/
def State.frame (s : State) (f : State → State) : State := if s.rx.undef then s.loseRx else f s

/-! ### Data frames (R150, R151) -/

/-- The linear index of the receiver's address (R52). -/
def Rx.cell (p : Params) (r : Rx) : Nat := r.y.toNat * p.cols + r.x.toNat

/-- The address is one of a cell, and the addressing mode the one that has a rule (R150's precondition). -/
def Rx.addressed (p : Params) (r : Rx) : Bool :=
  r.addrMode == .horizontal && decide (r.x.toNat < p.cols) && decide (r.y.toNat < p.bands)

/-- The address after a data byte: column first, then band, then WRAP_LAST (R150, R151); `n` picks the free value where
WRAP_LAST leaves the address arbitrary. -/
def Rx.nextAddress (p : Params) (n : Nat) (r : Rx) : BitVec 7 × BitVec 3 :=
  if r.x.toNat + 1 < p.cols then (r.x + 1, r.y)
  else if r.y.toNat + 1 < p.bands then (0, r.y + 1)
  else
    match p.wrapLast with
    | some a => a
    | none => (Config.rxX n, Config.rxY n)

/-- A data byte in a receiver with a defined state: one cell written, the address advanced (R150); without an address of a
cell the result is not defined (log entry 9). -/
def State.dataByte (b : Byte) (s : State) : State :=
  if s.rx.addressed s.params then
    { s with
      rx := { s.rx with
        ddram := s.rx.ddram.write (s.rx.cell s.params) b
        x := (s.rx.nextAddress s.params s.freeCtr).1
        y := (s.rx.nextAddress s.params s.freeCtr).2 }
      freeCtr := s.freeCtr + 1 }
  else s.loseRx

/-! ### Column, band and voltage (R144, R145, R147) -/

/-- Column-set; a value that is no column leaves the receiver undefined (R144, R154). -/
def State.setColumn (x : BitVec 7) (s : State) : State :=
  if x.toNat < s.params.cols then s.setRx { s.rx with x := x } else s.loseRx

/-- Band-set; a value that is no band leaves the receiver undefined (R145, R154). -/
def State.setBand (y : BitVec 3) (s : State) : State :=
  if y.toNat < s.params.bands then s.setRx { s.rx with y := y } else s.loseRx

/-- Voltage-set (R147). -/
def State.setVoltage (v : BitVec 7) (s : State) : State := s.setRx { s.rx with vop := v }

/-! ### Acceptance, completion, hardware reset -/

/-- Accept a request word (R15 (a)): latch it, start at event 0, fix the operand bytes (R14, R56). A request offered while
BUSY = 1 is not accepted (R16): nothing changes. -/
def State.accept (w : BitVec 20) (s : State) : State :=
  if s.busy then s
  else
    { s with
      req := w
      upc := 0
      busy := true
      hcnt := 0
      holding := false
      stall := 0
      opbAcc := s.opb }

/-- The end of an operation (R15 (c)): BUSY falls, one pulse on `done`; no operand byte is kept (R56). -/
def State.complete (s : State) : State :=
  { s with busy := false, done := true, hcnt := 0, holding := false, stall := 0, opbAcc := [] }

/-- `rst_n` is low: every register of the block takes its reset value (R190, R31), the receiver's state is arbitrary (R192). What is
the host's (OPB, its requests) and what was observed stay. -/
def State.hardReset (s : State) : State :=
  { s.forgetRx with
    req := 0
    pins := Pins.reset
    oe := false
    upc := 0
    busy := false
    hcnt := 0
    holding := false
    stall := 0
    ill := false
    ctrl := .unpowered
    done := false
    opbAcc := [] }

end Sys2Proof.Machine
end

