-- ==== Sys2Proof/Machine/Operands.lean ====
section
/-! DEFINITION. Operand assembly (spec/30_encoding.md R65 to R67) and the reads of OPB and GLYPH (spec/20_memory.md R42, R43). -/

namespace Sys2Proof.Machine

/-- The column-set byte of GOTO: an 8-bit OR, no check, no mask (R65). -/
def colCmd (x : Byte) : Byte := 0x80 ||| x

/-- The band-set byte of GOTO (R65). -/
def bandCmd (y : Byte) : Byte := 0x40 ||| y

/-- The voltage byte of CONTRAST (R66). -/
def adj (level : Byte) : Byte := if level = 0 then 0x00 else 0x80 ||| (level &&& 0x7F)

/-- The three control characters CHAR skips: tab, newline, carriage return (R122; codes: log entry 20). -/
def isControl (ch : Byte) : Bool := ch == 0x09 || ch == 0x0A || ch == 0x0D

/-- The glyph row of a character, that of '?' where the code is outside 0x20 to 0x7F (R67, R123). -/
def glyphRow (ch : Byte) : Nat := if 0x20 ≤ ch ∧ ch ≤ 0x7F then ch.toNat - 0x20 else 0x1F

/-- Column `k` of the glyph of a character (R43, R48). -/
def glyphByte (ch : Byte) (k : Nat) : Byte := Config.glyph (glyphRow ch) k

/-- `OPB[i]` (R42); a byte nothing has written is a free value (log entry 11). -/
def opbByte (m : Memory) (i : Nat) : Byte := (m.read i).getD (Config.opbUnwritten i)

/-- The mode-select level of a mode (R93). -/
def lvl (p : Params) : Mode → Level
  | .command => p.dcCmdLevel
  | .data => !p.dcCmdLevel

/-- `DISPCTL = 0x0C | INVERSE` (R106). -/
def dispCtl (p : Params) : Byte := 0x0C ||| (if p.inverse then 1 else 0)

/-- The quotient rounded up. -/
def ceilDiv (a b : Nat) : Nat := a / b + if a % b = 0 then 0 else 1

/-- The number of cycles `H(d)` loads into HCNT: `ceil(d * CLK_HZ / 1000000)` (R17). -/
def holdCycles (p : Params) (d : Nat) : Nat := ceilDiv (d * p.clkHz) 1000000

end Sys2Proof.Machine
end

