-- ==== Sys2Proof/Machine/Transmitter.lean ====
section
/-! DEFINITION. The bit transmitter (spec/40_bit_transmitter.md): TXB. -/

namespace Sys2Proof.Machine

/-- `BIT(v)`, the seven events of one bit (R81). -/
def bitTrace (p : Params) (v : Level) : List Event :=
  [ .hold p.tUs, .set .clk false, .set .din v, .hold p.tUs, .set .clk true, .hold p.tUs, .set .clk false ]

/-- The bits of a byte in the order they are sent (R80, R45). -/
def bitOrder (msbFirst : Bool) : List Nat :=
  if msbFirst then [7, 6, 5, 4, 3, 2, 1, 0] else [0, 1, 2, 3, 4, 5, 6, 7]

/-- The trace of TXB (R80). -/
def txbTrace (p : Params) (byte : Byte) (msbFirst : Bool) : List Event :=
  (bitOrder msbFirst).flatMap (fun i => bitTrace p (byte.getLsbD i)) ++ [.hold (p.tailT * p.tUs)]

/-- TXB (R80): the request is accepted; its trace is `txbTrace`. -/
def execTxb (byte : Byte) (msbFirst : Bool) (s : State) : Host.Outcome State Fault Refusal :=
  .next (s.accept (reqWord 0x1 byte (flagByte msbFirst)))

end Sys2Proof.Machine
end

