-- ==== Sys2Proof/Machine/Framer.lean ====
section
/-! DEFINITION. The command/data framer (spec/41_framer.md): WRB. -/

namespace Sys2Proof.Machine

/-- The trace of WRB, one frame in one bracket (R90). -/
def wrbTrace (p : Params) (mode : Mode) (byte : Byte) : List Event :=
  [ .set .dc (lvl p mode), .set .cs false ] ++ txbTrace p byte true ++ [ .set .cs true, .hold p.tUs ]

/-- `cmd(b)` and `dat(b)` (R90). -/
def cmdTrace (p : Params) (b : Byte) : List Event := wrbTrace p .command b
def datTrace (p : Params) (b : Byte) : List Event := wrbTrace p .data b

/-- WRB (R90): the request is accepted; its trace is `wrbTrace`. -/
def execWrb (mode : Mode) (byte : Byte) (s : State) : Host.Outcome State Fault Refusal :=
  .next (s.accept (reqWord 0x2 byte (flagByte mode.bit)))

end Sys2Proof.Machine
end

