-- ==== Sys2Proof/Machine/Addressing.lean ====
section
/-! DEFINITION. Contrast and cursor addressing (spec/42_controller.md): CONTRAST, GOTO. -/

namespace Sys2Proof.Machine

/-- The trace of CONTRAST (R105). -/
def contrastTrace (p : Params) (level : Byte) : List Event :=
  cmdTrace p 0x21 ++ cmdTrace p (adj level) ++ cmdTrace p 0x20

/-- The trace of GOTO: column first, then band (R107). -/
def gotoTrace (p : Params) (x y : Byte) : List Event := cmdTrace p (colCmd x) ++ cmdTrace p (bandCmd y)

/-- A request word that is a GOTO to no cell of the display, `x > 83` or `y > 5`: the block sends its two frames like any others, and
what the receiver makes of them is undefined, whichever bytes they are (R53, R72, R108; log entry 32). -/
def gotoStrays (p : Params) (w : BitVec 20) : Bool :=
  reqOp w == 0x5 && (decide (p.cols ≤ (reqA w).toNat) || decide (p.bands ≤ (reqB w).toNat))

/-- CONTRAST (R105): the request is accepted; its trace is `contrastTrace`. CTRL_STATE is left alone (R104). -/
def execContrast (level : Byte) (s : State) : Host.Outcome State Fault Refusal :=
  .next (s.accept (reqWord 0x4 level 0))

/-- GOTO (R107, R108): the request is accepted whatever its operands; its trace is `gotoTrace`. Out of range, its frames leave the
receiver without a defined state (`gotoStrays`, in `sampleBit`). -/
def execGoto (x y : Byte) (s : State) : Host.Outcome State Fault Refusal :=
  .next (s.accept (reqWord 0x5 x y))

end Sys2Proof.Machine
end

