-- ==== Sys2Proof/Machine/Rendering.lean ====
section
/-! DEFINITION. Streaming and rendering (spec/43_rendering.md): CLEAR, IMAGE, CHAR, TEXT, PAD, BORDER. -/

namespace Sys2Proof.Machine

/-- The trace of CLEAR (R120). -/
def clearTrace (p : Params) : List Event :=
  gotoTrace p 0 0 ++ (List.range p.ncell).flatMap (fun _ => datTrace p 0x00)

/-- The trace of IMAGE, from the operand bytes (R121). -/
def imageTrace (p : Params) (opb : Memory) : List Event :=
  gotoTrace p 0 0 ++ (List.range p.ncell).flatMap (fun i => datTrace p (opbByte opb i))

/-- The trace of CHAR (R122, R123): the control test comes first. -/
def charTrace (p : Params) (ch : Byte) : List Event :=
  if isControl ch then []
  else datTrace p 0x00 ++ (List.range 5).flatMap (fun k => datTrace p (glyphByte ch k)) ++ datTrace p 0x00

/-- The trace of the characters `OPB[0 .. n-1]` (R124). -/
def textTrace (p : Params) (opb : Memory) (n : Nat) : List Event :=
  (List.range n).flatMap (fun i => charTrace p (opbByte opb i))

/-- The trace of PAD (R125). -/
def padTrace (p : Params) (n : Nat) : List Event := (List.range n).flatMap (fun _ => charTrace p 0x20)

/-- One goto-and-write pair of BORDER (R126). -/
def borderPair (p : Params) (x y : Nat) (b : Byte) : List Event :=
  gotoTrace p (BitVec.ofNat 8 x) (BitVec.ofNat 8 y) ++ datTrace p b

/-- The trace of BORDER: top, bottom, left, right, each in ascending coordinate (R126). -/
def borderTrace (p : Params) : List Event :=
  (List.range p.cols).flatMap (fun x => borderPair p x 0 0x01) ++
  (List.range p.cols).flatMap (fun x => borderPair p x (p.bands - 1) 0x80) ++
  (List.range p.bands).flatMap (fun y => borderPair p 0 y 0xFF) ++
  (List.range p.bands).flatMap (fun y => borderPair p (p.cols - 1) y 0xFF)

/-- CLEAR (R120): the request is accepted; its trace is `clearTrace`. -/
def execClear (s : State) : Host.Outcome State Fault Refusal := .next (s.accept (reqWord 0x6 0 0))

/-- IMAGE (R121): the request is accepted with OPB's bytes as they stand; its trace is `imageTrace`. -/
def execImage (s : State) : Host.Outcome State Fault Refusal := .next (s.accept (reqWord 0x7 0 0))

/-- CHAR (R122): the request is accepted; its trace is `charTrace`. -/
def execChar (ch : Byte) (s : State) : Host.Outcome State Fault Refusal := .next (s.accept (reqWord 0x8 ch 0))

/-- TEXT (R124): the request is accepted with OPB's bytes as they stand; its trace is `textTrace`. -/
def execText (n : Byte) (s : State) : Host.Outcome State Fault Refusal := .next (s.accept (reqWord 0x9 n 0))

/-- PAD (R125): the request is accepted; its trace is `padTrace`. -/
def execPad (n : Byte) (s : State) : Host.Outcome State Fault Refusal := .next (s.accept (reqWord 0xA n 0))

/-- BORDER (R126): the request is accepted; its trace is `borderTrace`. -/
def execBorder (s : State) : Host.Outcome State Fault Refusal := .next (s.accept (reqWord 0xB 0 0))

end Sys2Proof.Machine
end

