-- ==== Sys2Proof/Machine/Initialisation.lean ====
section
/-! DEFINITION. The initialisation state machine (spec/42_controller.md): INIT. -/

namespace Sys2Proof.Machine

/-- Step 1: outputs enabled, then the power-on levels in the order listed (R101). -/
def initStep1 (p : Params) : List Event :=
  [ .cfg, .set .rst true, .set .cs true, .set .dc true, .set .din false, .set .clk false ] ++
    (if p.hasAux then [ .set .aux true ] else [])

/-- Steps 2 and 3: the holds and the reset pulse (R102). -/
def initPulse (p : Params) : List Event :=
  [ .hold p.tPwrUs, .set .rst false, .hold (p.rstPulseT * p.tUs), .set .rst true, .hold p.tRstRecUs ]

/-- Steps 1 to 4, after which CTRL_STATE is EXTENDED_MODE (R104). -/
def initToExtended (p : Params) : List Event := initStep1 p ++ initPulse p ++ cmdTrace p 0x21

/-- Steps 5 to 9, after which CTRL_STATE is NORMAL_MODE (R103, R104). -/
def initToNormal (p : Params) : List Event :=
  cmdTrace p p.vopDefaultCmd ++ cmdTrace p p.tcCmd ++ cmdTrace p p.biasCmd ++ cmdTrace p (dispCtl p) ++ cmdTrace p 0x20

/-- The trace of INIT (R100). -/
def initTrace (p : Params) : List Event :=
  initToExtended p ++ initToNormal p ++ cmdTrace p (dispCtl p) ++ [ .hold p.tSettleUs ] ++ clearTrace p

/-- The CTRL_STATE updates attached to positions of INIT's trace (R104): the value UPC becomes, and the state it brings. -/
def initMark (p : Params) (k : Nat) : Option CtrlState :=
  if k = (initToExtended p).length then some .extendedMode
  else if k = (initToExtended p ++ initToNormal p).length then some .normalMode
  else none

/-- INIT (R100): the request is accepted and CTRL_STATE becomes RESET (R15 (a), R104); its trace is `initTrace`. -/
def execInit (s : State) : Host.Outcome State Fault Refusal :=
  .next (if s.busy then s else { s.accept (reqWord 0x3 0 0) with ctrl := .reset })

end Sys2Proof.Machine
end

