-- ==== Sys2Proof/Machine/Receiver.lean ====
section
/-! DEFINITION. The frames as the receiver executes them (spec/44_display_commands.md R143 to R151, R154). A frame acts by its
word and RX.H: where a constructor's row does not apply in the receiver's instruction set, its word has the meaning the other
set gives it (R73), or none (R154); log entry 17. -/

namespace Sys2Proof.Machine

/-- FSET_EXT, either set (R143). The rule does not state whether it selects horizontal addressing too: the mode is kept (log
entry 34). -/
def execFsetExt (s : State) : Host.Outcome State Fault Refusal :=
  .next (s.frame fun s => s.setRx { s.rx with h := .extended })

/-- FSET_BASIC, either set (R143). -/
def execFsetBasic (s : State) : Host.Outcome State Fault Refusal :=
  .next (s.frame fun s => s.setRx { s.rx with h := .basic, addrMode := .horizontal })

/-- SETX (R144); in EXTENDED its word is SETVOP (R73). -/
def execSetx (x : BitVec 7) (s : State) : Host.Outcome State Fault Refusal :=
  .next (s.frame fun s =>
    match s.rx.h with
    | .basic => s.setColumn x
    | .extended => s.setVoltage x)

/-- SETY (R145); in EXTENDED its word has no meaning (R154). -/
def execSety (y : BitVec 3) (s : State) : Host.Outcome State Fault Refusal :=
  .next (s.frame fun s =>
    match s.rx.h with
    | .basic => s.setBand y
    | .extended => s.loseRx)

/-- DISP_NORMAL (R146): no effect in EXTENDED. -/
def execDispNormal (s : State) : Host.Outcome State Fault Refusal :=
  .next (s.frame fun s =>
    match s.rx.h with
    | .basic => s.setRx { s.rx with display := .normal }
    | .extended => s)

/-- DISP_INVERSE (R146): no effect in EXTENDED. -/
def execDispInverse (s : State) : Host.Outcome State Fault Refusal :=
  .next (s.frame fun s =>
    match s.rx.h with
    | .basic => s.setRx { s.rx with display := .inverse }
    | .extended => s)

/-- SETVOP (R147); in BASIC its word is SETX (R73). -/
def execSetvop (v : BitVec 7) (s : State) : Host.Outcome State Fault Refusal :=
  .next (s.frame fun s =>
    match s.rx.h with
    | .basic => s.setColumn v
    | .extended => s.setVoltage v)

/-- VOP_ZERO (R148), as the source has it (log entry 16); in power save the chip keeps everything else (log entry 35). In BASIC the
word has no meaning (R154). -/
def execVopZero (s : State) : Host.Outcome State Fault Refusal :=
  .next (s.frame fun s =>
    match s.rx.h with
    | .basic => s.loseRx
    | .extended => s.setVoltage 0)

/-- SETTC (R149); in BASIC its word has no meaning (R154). -/
def execSettc (s : State) : Host.Outcome State Fault Refusal :=
  .next (s.frame fun s =>
    match s.rx.h with
    | .basic => s.loseRx
    | .extended => s.setRx { s.rx with tc := 0x04 })

/-- SETBIAS (R149); in BASIC its word has no meaning (R154). -/
def execSetbias (s : State) : Host.Outcome State Fault Refusal :=
  .next (s.frame fun s =>
    match s.rx.h with
    | .basic => s.loseRx
    | .extended => s.setRx { s.rx with bias := 0x14 })

/-- DATA, either set (R150, R151). -/
def execData (d : Byte) (s : State) : Host.Outcome State Fault Refusal :=
  .next (s.frame fun s => s.dataByte d)

end Sys2Proof.Machine
end

