-- ==== Sys2Proof/Machine/Dispatch.lean ====
section
/-! DEFINITION. One arm per instruction: requests are accepted by the block, frames executed by the receiver. -/

namespace Sys2Proof.Machine

def exec (i : Instr) (s : State) : Host.Outcome State Fault Refusal :=
  match i with
  | .txb byte msbFirst => Sys2Proof.Machine.execTxb byte msbFirst s
  | .wrb mode byte => Sys2Proof.Machine.execWrb mode byte s
  | .init => Sys2Proof.Machine.execInit s
  | .contrast level => Sys2Proof.Machine.execContrast level s
  | .goto x y => Sys2Proof.Machine.execGoto x y s
  | .clear => Sys2Proof.Machine.execClear s
  | .image => Sys2Proof.Machine.execImage s
  | .char ch => Sys2Proof.Machine.execChar ch s
  | .text n => Sys2Proof.Machine.execText n s
  | .pad n => Sys2Proof.Machine.execPad n s
  | .border => Sys2Proof.Machine.execBorder s
  | .fsetExt => Sys2Proof.Machine.execFsetExt s
  | .fsetBasic => Sys2Proof.Machine.execFsetBasic s
  | .setx x => Sys2Proof.Machine.execSetx x s
  | .sety y => Sys2Proof.Machine.execSety y s
  | .dispNormal => Sys2Proof.Machine.execDispNormal s
  | .dispInverse => Sys2Proof.Machine.execDispInverse s
  | .setvop v => Sys2Proof.Machine.execSetvop v s
  | .vopZero => Sys2Proof.Machine.execVopZero s
  | .settc => Sys2Proof.Machine.execSettc s
  | .setbias => Sys2Proof.Machine.execSetbias s
  | .data d => Sys2Proof.Machine.execData d s

end Sys2Proof.Machine
end

