-- ==== Sys2Proof/Machine/Flags.lean ====
section
/-! DEFINITION. The flags and what the host sees of the block: `ILL`, `req_ready`, `busy`, `done`, `status`, the pads
(spec/10_state.md R13, R16, R18 to R21). -/

namespace Sys2Proof.Machine

/-- The 2-bit encoding of CTRL_STATE (R19). -/
def ctrlCode : CtrlState → BitVec 2
  | .unpowered => 0
  | .reset => 1
  | .extendedMode => 2
  | .normalMode => 3

/-- `req_ready` = not BUSY (R20). -/
def State.reqReady (s : State) : Bool := !s.busy

/-- `status[3:0]`: CTRL_STATE in bits 1:0, ILL in bit 2, OE in bit 3 (R21). -/
def State.status (s : State) : BitVec 4 :=
  (BitVec.ofBool s.oe ++ BitVec.ofBool s.ill : BitVec 2) ++ ctrlCode s.ctrl

/-- A pad: the level of its pin register when OE = 1, not driven otherwise (R13). Without an illumination line (HAS_AUX = 0) the
register and the pad of AUX are kept all the same, at the reset level 1 (log entry 33). -/
def State.pad (s : State) (p : Pin) : Option Level := if s.oe then some (s.pins.get p) else none

/-- A reserved opcode sets ILL, which stays until hardware reset (R18, R70). -/
def State.setIll (s : State) : State := { s with ill := true }

end Sys2Proof.Machine
end

