-- ==== Sys2Proof/Machine/Traces.lean ====
section
/-! DEFINITION. The trace of the operation in progress, formed from REQ, the operand bytes and GLYPH alone (spec/10_state.md R14,
R15), and where in it the operand bytes stand (spec/20_memory.md R56). -/

namespace Sys2Proof.Machine

/-- `trace(REQ, OPB, GLYPH)` of R14; a frame is no operation and has none. -/
def opTrace (p : Params) (opb : Memory) (i : Instr) : List Event :=
  match i with
  | .txb byte msbFirst => txbTrace p byte msbFirst
  | .wrb mode byte => wrbTrace p mode byte
  | .init => initTrace p
  | .contrast level => contrastTrace p level
  | .goto x y => gotoTrace p x y
  | .clear => clearTrace p
  | .image => imageTrace p opb
  | .char ch => charTrace p ch
  | .text n => textTrace p opb n.toNat
  | .pad n => padTrace p n.toNat
  | .border => borderTrace p
  | .fsetExt => []
  | .fsetBasic => []
  | .setx _ => []
  | .sety _ => []
  | .dispNormal => []
  | .dispInverse => []
  | .setvop _ => []
  | .vopZero => []
  | .settc => []
  | .setbias => []
  | .data _ => []

/-- The trace of a request word; a reserved opcode has the empty trace (R70). -/
def wordTrace (p : Params) (opb : Memory) (w : BitVec 20) : List Event :=
  match decodeRequest w with
  | .ok i => opTrace p opb i
  | .error _ => []

/-- `L`, the trace of the operation in progress (R14). -/
def State.trace (s : State) : List Event := wordTrace s.params s.opbAcc s.req

/-- The position in an operation's trace of the first event formed from `OPB[j]`, where the operation reads that byte: IMAGE reads
`OPB[0 .. NCELL-1]`, TEXT `OPB[0 .. n-1]`, the others none (R42, R121, R124). -/
def opbOffset (p : Params) (opb : Memory) (i : Instr) (j : Nat) : Option Nat :=
  match i with
  | .image =>
    if j < p.ncell then
      some (gotoTrace p 0 0 ++ (List.range j).flatMap (fun k => datTrace p (opbByte opb k))).length
    else none
  | .text n => if j < n.toNat then some (textTrace p opb j).length else none
  | .txb _ _ => none
  | .wrb _ _ => none
  | .init => none
  | .contrast _ => none
  | .goto _ _ => none
  | .clear => none
  | .char _ => none
  | .pad _ => none
  | .border => none
  | .fsetExt => none
  | .fsetBasic => none
  | .setx _ => none
  | .sety _ => none
  | .dispNormal => none
  | .dispInverse => none
  | .setvop _ => none
  | .vopZero => none
  | .settc => none
  | .setbias => none
  | .data _ => none

/-- Where `OPB[j]` stands in the trace of the operation in progress. -/
def State.offset (s : State) (j : Nat) : Option Nat :=
  match decodeRequest s.req with
  | .ok i => opbOffset s.params s.opbAcc i j
  | .error _ => none

/-- The operation in progress still has to read `OPB[j]` (R56). -/
def State.unread (s : State) (j : Nat) : Bool :=
  s.busy && (match s.offset j with
    | some o => decide (s.upc ≤ o)
    | none => false)

/-- `opb_addr` (R20, R42): the indices on the port in the next step, one after another: those of the operand bytes that the trace
from UPC on is the first to need. There is none, or one, or several where TEXT skips control characters, whose bytes are read with
the byte after them (log entry 31). -/
def State.opbAddr (s : State) : List (BitVec 9) :=
  if s.busy then ((List.range 512).filter (fun j => s.offset j == some s.upc)).map (BitVec.ofNat 9) else []

/-- The CTRL_STATE update attached to the position `k`: only INIT has any (R104, R19). -/
def State.mark (s : State) (k : Nat) : Option CtrlState :=
  match decodeRequest s.req with
  | .ok .init => initMark s.params k
  | _ => none

end Sys2Proof.Machine
end

