-- ==== Sys2Proof/Machine/Sequencer.lean ====
section
/-! DEFINITION. The sequencer's step rule (spec/10_state.md R15), the receiver's serial input (spec/44_display_commands.md R140 to
R142, R152, R153) and the host's actions (spec/70_reset_and_hazards.md R190, R213). `exec` is called in two places: where the
block accepts a request, and where the receiver has sampled the eighth bit of a frame. -/

namespace Sys2Proof.Machine

/-! ### The receiver's serial input -/

/-- The mode of the frame being received (R142). -/
def State.frameMode (s : State) : Mode := if s.pins.dc = s.params.dcCmdLevel then .command else .data

/-- `{RX.SR[6:0], PIN[DIN]}` (R140). -/
def State.shifted (s : State) : Byte := s.rx.sr.extractLsb' 0 7 ++ BitVec.ofBool s.pins.din

/-- A bit is sampled (R140); the eighth completes the frame, which is executed by the rule its byte and RX.H select (R142), a
frame outside the table leaving the receiver undefined (R154), and so a frame of a GOTO to no cell (R108; log entry 32). -/
def sampleBit (s : State) : Host.Outcome State Fault Refusal :=
  if s.rx.bitcnt = 7 then
    if gotoStrays s.params s.req then .next s.loseRx
    else
      match decodeFrame s.rx.h s.frameMode s.shifted with
      | .ok i => exec i (s.setRx { s.rx with sr := s.shifted, bitcnt := 0 })
      | .error _ => .next s.loseRx
  else .next (s.setRx { s.rx with sr := s.shifted, bitcnt := s.rx.bitcnt + 1 })

/-- What a pin write that took the pin from `old` to `v` does at the receiver: nothing while OE = 0 (R141); the reset pulse
(R152); anything, in a receiver without a defined state (R154); the end of a bracket (R153); a sample on a rising clock edge
while selected and not in reset (R140, R141, R152); else nothing. -/
def deliver (p : Pin) (old v : Level) (s : State) : Host.Outcome State Fault Refusal :=
  if s.oe = false then .next s
  else if p = .rst ∧ v = false then .next s.pulseRx
  else if s.rx.undef then .next s.loseRx
  else if p = .cs ∧ v = true then .next (s.setRx { s.rx with bitcnt := 0 })
  else if p = .clk ∧ v = true ∧ old = false ∧ s.pins.rst = true ∧ s.pins.cs = false then sampleBit s
  else .next s

/-! ### Events -/

/-- An event has been performed: it is observed, UPC moves on, the CTRL_STATE update of the new position applies (R15 (b)). -/
def State.advance (e : Event) (s : State) : State :=
  { s with
    upc := s.upc + 1
    hcnt := 0
    holding := false
    stall := 0
    ctrl := (s.mark (s.upc + 1)).getD s.ctrl
    log := s.log ++ [e] }

/-- `H(d)` begins: HCNT is loaded (R17); how long the hold goes on after that is free (U12). -/
def State.startHold (d : Nat) (s : State) : State :=
  { s with
    hcnt := holdCycles s.params d
    holding := true
    stall := Config.extraCycles s.freeCtr
    freeCtr := s.freeCtr + 1 }

/-- One cycle of a hold: load HCNT, count it down, go on as long as the implementation likes, end (R15 (b), R17). -/
def holdStep (d : Nat) (s : State) : State :=
  if s.holding = false then s.startHold d
  else if s.hcnt ≠ 0 then { s with hcnt := s.hcnt - 1 }
  else if s.stall ≠ 0 then { s with stall := s.stall - 1 }
  else s.advance (.hold d)

/-- `PIN[p] <- v` as an event. -/
def State.setPin (p : Pin) (v : Level) (s : State) : State :=
  { s.advance (.set p v) with pins := s.pins.put p v }

/-- `OE <- 1` as an event. -/
def State.enable (s : State) : State := { s.advance .cfg with oe := true }

/-- A step at the event UPC points to (R15 (b)). -/
def eventStep (e : Event) (s : State) : Host.Outcome State Fault Refusal :=
  match e with
  | .hold d => .next (holdStep d s)
  | .cfg => .next s.enable
  | .set p v => deliver p (s.pins.get p) v (s.setPin p v)

/-! ### The block -/

/-- REQ holds the word as presented, its unused bits included (R11, R60). -/
def latchReq (w : BitVec 20) (o : Host.Outcome State Fault Refusal) : Host.Outcome State Fault Refusal :=
  match o with
  | .next t => .next { t with req := w }
  | .fault f => .fault f
  | .refused r => .refused r

/-- A request word is accepted: its instruction is executed; a reserved opcode starts the empty trace and sets ILL (R15 (a), R70). -/
def acceptRequest (w : BitVec 20) (s : State) : Host.Outcome State Fault Refusal :=
  match decodeRequest w with
  | .ok i => latchReq w (exec i s)
  | .error _ => .next (s.accept w).setIll

/-- The step rule (R15): (a) idle, (b) at an event, (c) at the end of the trace. -/
def blockStep (s : State) : Host.Outcome State Fault Refusal :=
  if s.busy then
    match s.trace[s.upc]? with
    | some e => eventStep e s
    | none => if s.upc = s.trace.length then .next s.complete else .fault .upcPastEnd
  else
    match s.requests with
    | [] => .next s
    | w :: ws => acceptRequest w { s with requests := ws }

/-! ### The host -/

/-- The host writes `OPB[i]` (R213). If the operation in progress has still to read that byte, it sees the old or the new one
(R56, U6): the choice is free. -/
def State.hostWrite (i : BitVec 9) (b : Byte) (s : State) : State :=
  if s.unread i.toNat then
    { s with
      opb := s.opb.write i.toNat b
      opbAcc := if Config.hostWriteSeen s.freeCtr then s.opbAcc.write i.toNat b else s.opbAcc
      freeCtr := s.freeCtr + 1 }
  else { s with opb := s.opb.write i.toNat b }

/-- One step: what the host does in it, `done` having lasted its one cycle (R20), then the block; `rst_n` wins (R174, R190). -/
def machineStep (s : State) : Host.Outcome State Fault Refusal :=
  match s.hostIn with
  | [] => blockStep { s with done := false }
  | .wait :: rest => blockStep { s with done := false, hostIn := rest }
  | .reset :: rest => .next { s with hostIn := rest }.hardReset
  | .writeOpb i b :: rest => blockStep ({ s with done := false, hostIn := rest }.hostWrite i b)
  | .request w :: rest => blockStep { s with done := false, hostIn := rest, requests := s.requests ++ [w] }

/-! ### Placing an instruction before the next step (log entry 18) -/

/-- A request on the port of an idle block. -/
def State.withRequest (w : BitVec 20) (s : State) : State :=
  { s with busy := false, hostIn := [], requests := w :: s.requests }

/-- A frame about to be completed: a WRB of it stands at its eighth rising clock edge, the receiver has sampled seven bits and is
in the instruction set in which `decodeFrameWord` reads the word. -/
def State.withFrame (f : BitVec 9) (s : State) : State :=
  { s with
    hostIn := []
    busy := true
    req := reqWord 0x2 (f.extractLsb' 0 8) (flagByte (f.getLsbD 8))
    upc := 55
    hcnt := 0
    holding := false
    stall := 0
    oe := true
    pins := { s.pins with rst := true, cs := false, dc := lvl s.params (modeOfBit (f.getLsbD 8)), din := f.getLsbD 0, clk := false }
    rx := { s.rx with
      h := if (accepted (decode .basic (.frame f))).isSome then .basic else .extended
      sr := f.extractLsb' 0 8 >>> 1
      bitcnt := 7
      undef := false } }

/-- The instruction of a table row's word, placed so that the next step runs it. -/
def State.withTableWord (s : State) (nbits w : Nat) : State :=
  if nbits = 20 ∨ nbits = 24 then s.withRequest (BitVec.ofNat 20 w)
  else s.withFrame (BitVec.ofNat 9 w)

end Sys2Proof.Machine
end

