-- ==== Sys2Proof/Machine/Step.lean ====
section
/-! DEFINITION. The step of the machine, one cycle of `clk` (log entry 1), and the host's way to place an instruction. -/

namespace Sys2Proof.Machine

/-- One step (spec/10_state.md R15). -/
def step (s : State) : Host.Outcome State Fault Refusal := machineStep s

/-- `s` with the instruction of a table row's word where the next step takes it. -/
def State.withFetchWord (s : State) (nbits w : Nat) : State := s.withTableWord nbits w

end Sys2Proof.Machine
end

