-- ==== Sys2Proof/Machine/Glass.lean ====
section
/-! DEFINITION. The glass: what the receiver's memory shows (spec/20_memory.md R47, spec/10_state.md R25). Nothing reads it (R41). -/

namespace Sys2Proof.Machine

/-- The bit of DDRAM at column `x`, pixel row `r`: bit `r mod 8` of cell (`x`, `r div 8`) (R47). -/
def State.pixel (s : State) (x r : Nat) : Option Level :=
  (s.rx.ddram.read (r / 8 * s.params.cols + x)).map (fun b => b.getLsbD (r % 8))

/-- Whether the pixel is lit (dark): the bit in NORMAL display mode, its opposite in INVERSE (R47); every pixel off in blank, on in
all-on (R25, G3; log entry 36). A receiver without a defined state, or a cell without a value, shows nothing that is known. -/
def State.lit (s : State) (x r : Nat) : Option Bool :=
  if s.rx.undef then none
  else
    match s.rx.display with
    | .normal => s.pixel x r
    | .inverse => (s.pixel x r).map (fun v => !v)
    | .blank => some false
    | .allOn => some true

end Sys2Proof.Machine
end

