-- ==== Sys2Proof/Safety.lean ====
section
/-! DEFINITION. The terms claims are made in: running the machine, the invariant of its states, and what can be read off a trace. -/

namespace Sys2Proof.Machine

/-! ### Running -/

/-- `n` steps, stopping at the first fault or refusal. -/
def stepN : Nat → State → Host.Outcome State Fault Refusal
  | 0, s => .next s
  | n + 1, s =>
    match step s with
    | .next t => stepN n t
    | .fault f => .fault f
    | .refused r => .refused r

/-- Some number of steps leads from `s` to `t`. -/
def Reaches (s t : State) : Prop := ∃ n, stepN n s = .next t

/-- The instruction is executed, and the machine then runs the operation to its end (R212): BUSY has fallen, `done` pulses. -/
def Completes (i : Instr) (s u : State) : Prop :=
  ∃ t, exec i s = .next t ∧ Reaches t u ∧ u.busy = false ∧ u.done = true

/-! ### Reading a trace (R7) -/

/-- The level of pin `p` after a trace, from level `v`. -/
def lastLevel (p : Pin) (v : Level) : List Event → Level
  | [] => v
  | .set q w :: L => lastLevel p (if q = p then w else v) L
  | .hold _ :: L => lastLevel p v L
  | .cfg :: L => lastLevel p v L

/-- The number of `S` events. -/
def setCount : List Event → Nat
  | [] => 0
  | .set _ _ :: L => setCount L + 1
  | .hold _ :: L => setCount L
  | .cfg :: L => setCount L

/-- The number of `H` events. -/
def holdCount : List Event → Nat
  | [] => 0
  | .set _ _ :: L => holdCount L
  | .hold _ :: L => holdCount L + 1
  | .cfg :: L => holdCount L

/-- The sum of the holds, in microseconds. -/
def holdSum : List Event → Nat
  | [] => 0
  | .set _ _ :: L => holdSum L
  | .hold d :: L => holdSum L + d
  | .cfg :: L => holdSum L

/-- The pin writes and `CFG` events alone, in order. -/
def pinEvents : List Event → List Event
  | [] => []
  | .set p v :: L => .set p v :: pinEvents L
  | .hold _ :: L => pinEvents L
  | .cfg :: L => .cfg :: pinEvents L

/-- Every run of adjacent holds replaced by one hold of their sum (R7, D12). -/
def mergeHolds : List Event → List Event
  | [] => []
  | .set p v :: L => .set p v :: mergeHolds L
  | .cfg :: L => .cfg :: mergeHolds L
  | .hold d :: L =>
    match mergeHolds L with
    | .hold e :: M => .hold (d + e) :: M
    | M => .hold d :: M

/-- The data line's level at each rising edge of the clock line, from the levels `clk` and `din` (R80, R82). -/
def clocked (clk din : Level) : List Event → List Level
  | [] => []
  | .set .clk true :: L => if clk then clocked true din L else din :: clocked true din L
  | .set .clk false :: L => clocked false din L
  | .set .din v :: L => clocked clk v L
  | .set .rst _ :: L => clocked clk din L
  | .set .cs _ :: L => clocked clk din L
  | .set .dc _ :: L => clocked clk din L
  | .set .aux _ :: L => clocked clk din L
  | .hold _ :: L => clocked clk din L
  | .cfg :: L => clocked clk din L

/-- The bracket invariant (R91, R200), `k` being the number of `S(CLK, 1)` in the open bracket: chip-select low and high alternate,
eight clock pulses between them, no mode-select write there; the trace ends outside a bracket. -/
def bracketed : Option Nat → List Event → Bool
  | none, [] => true
  | some _, [] => false
  | none, .set .cs false :: L => bracketed (some 0) L
  | none, .set .cs true :: _ => false
  | some _, .set .cs false :: _ => false
  | some k, .set .cs true :: L => decide (k = 8) && bracketed none L
  | some _, .set .dc _ :: _ => false
  | none, .set .dc _ :: L => bracketed none L
  | some k, .set .clk true :: L => bracketed (some (k + 1)) L
  | none, .set .clk true :: L => bracketed none L
  | b, .set .clk false :: L => bracketed b L
  | b, .set .din _ :: L => bracketed b L
  | b, .set .rst _ :: L => bracketed b L
  | b, .set .aux _ :: L => bracketed b L
  | b, .hold _ :: L => bracketed b L
  | b, .cfg :: L => bracketed b L

/-! ### Streams of data bytes (R150, R127) -/

/-- The data bytes of CHAR (R122). -/
def charBytes (ch : Byte) : List Byte :=
  if isControl ch then []
  else [0x00, glyphByte ch 0, glyphByte ch 1, glyphByte ch 2, glyphByte ch 3, glyphByte ch 4, 0x00]

/-- The data bytes of TEXT (R124). -/
def textBytes (opb : Memory) (n : Nat) : List Byte := (List.range n).flatMap (fun i => charBytes (opbByte opb i))

/-- The data bytes of PAD (R125). -/
def padBytes (n : Nat) : List Byte := (List.range n).flatMap (fun _ => charBytes 0x20)

/-- `bytes` in consecutive cells from linear index `a`, going on at cell 0 after the last of `size` cells; other cells as in `m`.
Stated on the values cells have (R150, R151 with WRAP_LAST = (0, 0)). -/
def streamed (size a : Nat) : List Byte → (Nat → Option Byte) → Nat → Option Byte
  | [], m => m
  | b :: bs, m => streamed size ((a + 1) % size) bs (fun c => if c = a then some b else m c)

/-! ### What an operation leaves alone -/

/-- The receiver's settings: what addressing and data frames do not change (R144, R145, R150). -/
structure SameSettings (r r' : Rx) : Prop where
  h : r'.h = r.h
  addrMode : r'.addrMode = r.addrMode
  display : r'.display = r.display
  vop : r'.vop = r.vop
  tc : r'.tc = r.tc
  bias : r'.bias = r.bias

/-- What every operation but INIT leaves alone in the block, and the host's (R12, R13, R18, R19, R42). -/
structure Keeps (s u : State) : Prop where
  params : u.params = s.params
  oe : u.oe = s.oe
  ill : u.ill = s.ill
  ctrl : u.ctrl = s.ctrl
  opb : u.opb = s.opb
  requests : u.requests = s.requests
  hostIn : u.hostIn = s.hostIn
  rst : u.pins.rst = s.pins.rst
  aux : u.pins.aux = s.pins.aux

/-- The pins after an operation that ends with a frame (R92). -/
structure EndsFrame (m : Mode) (b : Byte) (u : State) : Prop where
  dc : u.pins.dc = lvl u.params m
  cs : u.pins.cs = true
  clk : u.pins.clk = false
  din : u.pins.din = b.getLsbD 0

/-! ### The invariant -/

/-- The events of the operation in progress performed so far. -/
def State.performed (s : State) : List Event := if s.busy then s.trace.take s.upc else []

/-- What holds in every state the machine can be in. -/
structure Inv (s : State) : Prop where
  params : s.params.wf = true
  opb : s.opb.wf 512 = true
  opbAcc : s.opbAcc.wf 512 = true
  ddram : s.rx.ddram.wf s.params.ncell = true
  /-- UPC never exceeds `len(L)` (R14). -/
  upc : s.busy = true → s.upc ≤ s.trace.length
  /-- The clock is low and chip-select high in idle (R33), and while busy they are where the operation has brought them. -/
  clk : s.pins.clk = lastLevel .clk false s.performed
  cs : s.pins.cs = lastLevel .cs true s.performed
  /-- The reset and illumination lines are high in idle: only INIT writes them (R12). -/
  rst : s.pins.rst = lastLevel .rst true s.performed
  aux : s.pins.aux = lastLevel .aux true s.performed
  /-- No hold is counted in idle (R17). -/
  hold : s.busy = false → s.hcnt = 0 ∧ s.holding = false
  /-- A receiver whose lines are not driven has no defined state (R141, R192). -/
  driven : s.oe = false → s.rx.undef = true
  /-- Outputs are enabled only after INIT has been accepted (R13, R196). -/
  enabled : s.oe = true → s.ctrl ≠ .unpowered
  initial : s.busy = true → decodeRequest s.req = .ok .init → s.ctrl ≠ .unpowered
  /-- No partial byte outlives its bracket (R153). -/
  bracket : s.rx.undef = false → s.pins.cs = true → s.rx.bitcnt = 0

/-- The block is idle and the host lets it run. -/
structure Ready (s : State) : Prop where
  inv : Inv s
  idle : s.busy = false
  quiet : s.hostIn = []

/-- Ready, the lines driven, and the receiver in a defined state. -/
structure Listening (s : State) : Prop extends Ready s where
  driven : s.oe = true
  defined : s.rx.undef = false

/-- The receiver's address is that of a cell under horizontal addressing (R150's precondition). -/
def Addressed (s : State) : Prop := s.rx.addressed s.params = true

end Sys2Proof.Machine
end

