-- ==== Sys2Proof/Certificates/Slice0/Obligations.lean ====
section
/-! DEFINITION. What is to be proved of the model, from the numbered rules of spec/. -/

open Sys2Proof Sys2Proof.Machine

/-! ### Encoding and decoding -/

/-- R60 to R63, R68, R73: every instruction's word decodes to it, in every instruction set its row applies in. -/
def Obligations.DecodeOfEncode : Prop :=
  ∀ (i : Instr) (h : InstrSet), i.appliesIn h = true → decode h (encode i) = .ok i

/-- R68, R73: a frame word that has a meaning in an instruction set has one meaning there: it is the word of that instruction. -/
def Obligations.EncodeOfDecodedFrame : Prop :=
  ∀ (h : InstrSet) (f : BitVec 9) (i : Instr), decode h (.frame f) = .ok i →
    encode i = .frame f ∧ i.appliesIn h = true

/-- R71: the unused bits of R62 select nothing. -/
def Obligations.UnusedBitsIgnored : Prop :=
  ∀ w w' : BitVec 20, reqOp w = reqOp w' →
    ((reqOp w = 0x3 ∨ reqOp w = 0x6 ∨ reqOp w = 0x7 ∨ reqOp w = 0xB) → decodeRequest w = decodeRequest w') ∧
    ((reqOp w = 0x4 ∨ reqOp w = 0x8 ∨ reqOp w = 0x9 ∨ reqOp w = 0xA) → reqA w = reqA w' → decodeRequest w = decodeRequest w') ∧
    ((reqOp w = 0x1 ∨ reqOp w = 0x2) → reqA w = reqA w' → (reqB w).getLsbD 0 = (reqB w').getLsbD 0 →
      decodeRequest w = decodeRequest w')

/-- R61, R70: the opcodes 0x0 and 0xC to 0xF, and no others, are rejected, as reserved. -/
def Obligations.ReservedOpcodesRejected : Prop :=
  ∀ w : BitVec 20, (∃ r, decodeRequest w = .error r) ↔ (reqOp w = 0x0 ∨ 0xC ≤ reqOp w)

/-- Words written out in R74 and in spec/95_test_vectors.md decode to the instructions named there. -/
def Obligations.WrittenWordsDecode : Prop :=
  decodeRequest 0x22100 = .ok (.wrb .command 0x21) ∧ decodeRequest 0x2FF01 = .ok (.wrb .data 0xFF) ∧
  decodeRequest 0x1A500 = .ok (.txb 0xA5 false) ∧ decodeRequest 0x50A02 = .ok (.goto 10 2) ∧
  decodeRequest 0x84100 = .ok (.char 0x41) ∧ decodeRequest 0x3ABCD = .ok .init ∧
  decodeFrame .basic .command 0x8A = .ok (.setx 10) ∧ decodeFrame .extended .command 0xC8 = .ok (.setvop 0x48)

/-- R73: RX.H decides what a COMMAND byte means, and nothing of a DATA frame. -/
def Obligations.ModeDecidesDecoding : Prop :=
  (∀ v : BitVec 7, decodeFrame .basic .command (1#1 ++ v) = .ok (.setx v) ∧
    decodeFrame .extended .command (1#1 ++ v) = .ok (.setvop v)) ∧
  (∀ b : Byte, b = 0x04 ∨ b = 0x14 ∨ b = 0x00 →
    (∃ r, decodeFrame .basic .command b = .error r) ∧ ∃ i, decodeFrame .extended .command b = .ok i) ∧
  (∀ h : InstrSet, decodeFrame h .command 0x21 = .ok .fsetExt ∧ decodeFrame h .command 0x20 = .ok .fsetBasic) ∧
  ∀ (h : InstrSet) (b : Byte), decodeFrame h .data b = .ok (.data b)

/-! ### The step -/

/-- R15 (a), R184, R191: a step of an idle block with a request on the port executes the request's instruction; REQ then holds the
word as presented, the request is no longer on the port, and a `done` pulse of the step before is over. With no request nothing
but that pulse changes: every register keeps its value. -/
def Obligations.StepExecutesRequest : Prop :=
  ∀ s : State, s.busy = false → s.hostIn = [] →
    (s.requests = [] → step s = .next { s with done := false }) ∧
    ∀ (w : BitVec 20) (ws : List (BitVec 20)) (i : Instr), s.requests = w :: ws → decodeRequest w = .ok i →
      step s = latchReq w (exec i { s with done := false, requests := ws })

/-- R140, R142, R154, R108: a step at a frame's eighth rising clock edge executes the frame's instruction, after the edge itself: the
pin is written, UPC moves on, the byte is complete. A frame outside the table, and a frame of a GOTO whose column or band is none of
the display's (log entry 32), leaves the receiver without a defined state (the model's flag `undef`, log entry 7). -/
def Obligations.StepExecutesFrame : Prop :=
  ∀ s : State, s.busy = true → s.hostIn = [] → s.trace[s.upc]? = some (.set .clk true) →
    s.oe = true → s.pins.rst = true → s.pins.cs = false → s.pins.clk = false → s.rx.undef = false → s.rx.bitcnt = 7 →
    (∀ i : Instr, decodeFrame s.rx.h s.frameMode s.shifted = .ok i →
      (∀ x y, decodeRequest s.req = .ok (.goto x y) → x.toNat < s.params.cols ∧ y.toNat < s.params.bands) →
      step s = exec i (({ s with done := false }.setPin .clk true).setRx { s.rx with sr := s.shifted, bitcnt := 0 })) ∧
    ((∃ r, decodeFrame s.rx.h s.frameMode s.shifted = .error r) ∨
      (∃ x y, decodeRequest s.req = .ok (.goto x y) ∧ (s.params.cols ≤ x.toNat ∨ s.params.bands ≤ y.toNat)) →
      ∃ t, step s = .next t ∧ t.rx.undef = true ∧ (∀ a, t.rx.ddram.read a = none) ∧ t.pins = { s.pins with clk := true } ∧
        t.upc = s.upc + 1 ∧ t.log = s.log ++ [.set .clk true])

/-- R70: a request with a reserved opcode is accepted, emits no event, sets ILL and completes at once. -/
def Obligations.ReservedOpcodeSetsIll : Prop :=
  ∀ (s : State) (w : BitVec 20) (ws : List (BitVec 20)), s.busy = false → s.hostIn = [] → s.requests = w :: ws →
    (reqOp w = 0x0 ∨ 0xC ≤ reqOp w) →
    ∃ t u, step s = .next t ∧ step t = .next u ∧ t.busy = true ∧ t.req = w ∧ t.ill = true ∧ t.pins = s.pins ∧ t.log = s.log ∧
      u.busy = false ∧ u.done = true ∧ u.ill = true ∧ u.pins = s.pins ∧ u.oe = s.oe ∧ u.log = s.log ∧ u.rx = s.rx ∧
      u.ctrl = s.ctrl ∧ u.opb = s.opb ∧ u.requests = ws

/-- R15 (b), R7: the step at a pin write writes that pin register and no other, is observed, and moves UPC on by one. -/
def Obligations.PinWriteStep : Prop :=
  ∀ (s : State) (p : Pin) (v : Level), s.busy = true → s.hostIn = [] → s.trace[s.upc]? = some (.set p v) →
    ∃ t, step s = .next t ∧ t.pins.get p = v ∧ (∀ q, q ≠ p → t.pins.get q = s.pins.get q) ∧ t.upc = s.upc + 1 ∧
      t.log = s.log ++ [.set p v] ∧ t.busy = true ∧ t.req = s.req ∧ t.oe = s.oe ∧ t.ill = s.ill ∧ t.opb = s.opb ∧
      t.trace = s.trace ∧ t.requests = s.requests

/-- R17: a hold of `d` microseconds loads HCNT with `ceil(d * CLK_HZ / 1000000)`, which counts down one a cycle; the event ends
when it has reached 0 and the free number of further cycles `stall` is over (U12; log entries 1, 2); no pin register changes. -/
def Obligations.HoldCountsDown : Prop :=
  ∀ (s : State) (d : Nat), s.busy = true → s.hostIn = [] → s.trace[s.upc]? = some (.hold d) →
    ∃ t, step s = .next t ∧ t.pins = s.pins ∧ t.rx = s.rx ∧
      (s.holding = false → t.holding = true ∧ t.upc = s.upc ∧ t.log = s.log ∧
        d * s.params.clkHz ≤ t.hcnt * 1000000 ∧ t.hcnt * 1000000 < d * s.params.clkHz + 1000000) ∧
      (s.holding = true → s.hcnt ≠ 0 → t.hcnt = s.hcnt - 1 ∧ t.holding = true ∧ t.upc = s.upc ∧ t.log = s.log) ∧
      (s.holding = true → s.hcnt = 0 → s.stall = 0 → t.holding = false ∧ t.upc = s.upc + 1 ∧ t.log = s.log ++ [.hold d])

/-- R17, R199, R210: no hold is shorter than its minimum: for `ceil(d * CLK_HZ / 1000000)` cycles the event has not ended and no
pin register has changed. -/
def Obligations.HoldIsNeverShorter : Prop :=
  ∀ (s : State) (d n : Nat), s.busy = true → s.hostIn = [] → s.holding = false → s.trace[s.upc]? = some (.hold d) →
    n * 1000000 < d * s.params.clkHz + 1000000 →
    ∃ t, stepN n s = .next t ∧ t.upc = s.upc ∧ t.pins = s.pins ∧ t.log = s.log ∧ t.rx = s.rx

/-- R20, R21, R13, R19: what the host sees of a state: the status port, with R19's codes of CTRL_STATE, `req_ready`, the pads. -/
def Obligations.StatusPort : Prop :=
  ∀ s : State, (s.status.extractLsb' 0 2 = match s.ctrl with
      | .unpowered => 0
      | .reset => 1
      | .extendedMode => 2
      | .normalMode => 3) ∧ s.status.getLsbD 2 = s.ill ∧ s.status.getLsbD 3 = s.oe ∧
    s.reqReady = !s.busy ∧ (∀ p, s.oe = true → s.pad p = some (s.pins.get p)) ∧ (∀ p, s.oe = false → s.pad p = none)

/-- R190, R31: `rst_n` low, at any time, puts every register of the block at its reset value; the operation in progress is
abandoned; OPB, the host's, stays. That the host's requests and its later actions stay, and the trace observed so far, are the
model's choices (log entries 13, 21). -/
def Obligations.HardwareReset : Prop :=
  ∀ (s : State) (rest : List HostAct), s.hostIn = .reset :: rest →
    ∃ t, step s = .next t ∧ t.req = 0 ∧
      t.pins = { rst := true, cs := true, dc := true, din := false, clk := false, aux := true } ∧
      t.oe = false ∧ t.upc = 0 ∧ t.busy = false ∧ t.hcnt = 0 ∧ t.ill = false ∧ t.ctrl = .unpowered ∧
      t.hostIn = rest ∧ t.opb = s.opb ∧ t.requests = s.requests ∧ t.log = s.log ∧ t.params = s.params

/-- R56, U6: a byte of OPB changed under the running operation: OPB holds the new byte, the operation sees the old or the new one,
and no event already performed is another (the choice is free: log entry 12). -/
def Obligations.OperandChangedWhileRead : Prop :=
  ∀ (s : State) (i : BitVec 9) (b : Byte),
    (s.hostWrite i b).opb = s.opb.write i.toNat b ∧
    ((s.hostWrite i b).opbAcc = s.opbAcc ∨ (s.unread i.toNat = true ∧ (s.hostWrite i b).opbAcc = s.opbAcc.write i.toNat b)) ∧
    (s.busy = true → (s.hostWrite i b).trace.take s.upc = s.trace.take s.upc) ∧
    (s.hostWrite i b).pins = s.pins ∧ (s.hostWrite i b).rx = s.rx ∧ (s.hostWrite i b).upc = s.upc

/-- R42, R20, R124: an operation reads each of its operand bytes once, in ascending order: the indices that `opb_addr` shows at the
events of IMAGE and at its end are 0 to NCELL - 1, those of TEXT 0 to n - 1; no other operation reads OPB. A byte whose character
TEXT skips is read with the byte after it (log entry 31). -/
def Obligations.OperandsReadInOrder : Prop :=
  ∀ (s : State) (i : Instr), s.busy = true → s.params.wf = true → decodeRequest s.req = .ok i →
    (List.range (s.trace.length + 1)).flatMap (fun k => ({ s with upc := k } : State).opbAddr) =
      (match i with
        | .image => (List.range s.params.ncell).map (BitVec.ofNat 9)
        | .text n => (List.range n.toNat).map (BitVec.ofNat 9)
        | _ => [])

/-! ### Traces -/

/-- R80, R81, R45: TXB puts the eight bits of its byte on the data line at the rising clock edges, in the order asked for, in 57
events. -/
def Obligations.TxbSendsBitsInOrder : Prop :=
  ∀ (p : Params) (b : Byte) (din : Level),
    clocked false din (txbTrace p b true) = [7, 6, 5, 4, 3, 2, 1, 0].map b.getLsbD ∧
    clocked false din (txbTrace p b false) = [0, 1, 2, 3, 4, 5, 6, 7].map b.getLsbD ∧
    ∀ m, (txbTrace p b m).length = 57 ∧ setCount (txbTrace p b m) = 32 ∧ holdCount (txbTrace p b m) = 25 ∧
      holdSum (txbTrace p b m) = (24 + p.tailT) * p.tUs

/-- R82, R198, R199: in every trace, a rising clock edge comes a hold of T after the last write of the data line, which comes a
hold of T and a clock-low write before; the clock is high for a hold of T, then low, before anything else happens. -/
def Obligations.DataLineStableAroundEdge : Prop :=
  ∀ (p : Params) (opb : Memory) (i : Instr) (pre post : List Event), opTrace p opb i = pre ++ .set .clk true :: post →
    (∃ pre' v, pre = pre' ++ [.hold p.tUs, .set .clk false, .set .din v, .hold p.tUs]) ∧
    ∃ post', post = [.hold p.tUs, .set .clk false] ++ post'

/-- R91, R200: one byte per bracket, the mode-select level constant within it, in every trace; INIT's first chip-select write, in
its step 1, opens none: step 1 has no falling chip-select and no clock pulse, and the trace after it is a sequence of brackets. -/
def Obligations.OneByteBrackets : Prop :=
  ∀ (p : Params) (opb : Memory) (i : Instr),
    (i ≠ .init → bracketed none (opTrace p opb i) = true) ∧
    (i = .init → ∃ rest, opTrace p opb i = initStep1 p ++ rest ∧ bracketed none rest = true ∧
      Event.set .cs false ∉ initStep1 p ∧ Event.set .clk true ∉ initStep1 p ∧ Event.set .cs true ∈ initStep1 p)

/-- R201, R12, R33: no trace leaves the clock high or chip-select low, or the reset or illumination line low; whenever BUSY = 0, the
clock is low and chip-select high. -/
def Obligations.TracesEndIdle : Prop :=
  (∀ (p : Params) (opb : Memory) (i : Instr),
    lastLevel .clk false (opTrace p opb i) = false ∧ lastLevel .cs true (opTrace p opb i) = true ∧
    lastLevel .rst true (opTrace p opb i) = true ∧ lastLevel .aux true (opTrace p opb i) = true) ∧
  ∀ s : State, Inv s → s.busy = false → s.pins.clk = false ∧ s.pins.cs = true

/-- R209 (the `S` and `H` columns and the durations, with the default times): what each operation's trace counts to, TEXT and PAD per
drawn character; R14: no trace is longer than 108885 events. -/
def Obligations.DurationTable : Prop :=
  ∀ (p : Params) (opb : Memory), p.tUs = 14 → p.tailT = 2 → p.cols = 84 → p.bands = 6 →
    let counts := fun (L : List Event) => (setCount L, holdCount L, holdSum L)
    (∀ b m, counts (txbTrace p b m) = (32, 25, 364)) ∧ (∀ m b, counts (wrbTrace p m b) = (35, 26, 378)) ∧
    (∀ x y, counts (gotoTrace p x y) = (70, 52, 756)) ∧ (∀ l, counts (contrastTrace p l) = (105, 78, 1134)) ∧
    (∀ ch, isControl ch = false → counts (charTrace p ch) = (245, 182, 2646)) ∧
    (∀ ch, isControl ch = true → charTrace p ch = []) ∧
    (∀ n, counts (padTrace p n) = (245 * n, 182 * n, 2646 * n)) ∧
    (∀ n, let drawn := ((List.range n).filter (fun i => !isControl (opbByte opb i))).length
      counts (textTrace p opb n) = (245 * drawn, 182 * drawn, 2646 * drawn)) ∧
    counts (clearTrace p) = (17710, 13156, 191268) ∧ counts (imageTrace p opb) = (17710, 13156, 191268) ∧
    counts (borderTrace p) = (18900, 14040, 204120) ∧
    (p = Params.default → counts (initTrace p) = (17963, 13342, 313956) ∧ (initTrace p).length = 31306) ∧
    ∀ i, (opTrace p opb i).length ≤ 108885

/-- R207: the display's reset pulse is never omitted from INIT, no frame precedes it, and it is the only one. -/
def Obligations.ResetPulseComesFirst : Prop :=
  ∀ p : Params, ∃ pre post, initTrace p =
      pre ++ [.set .rst false, .hold (p.rstPulseT * p.tUs), .set .rst true, .hold p.tRstRecUs] ++ post ∧
    Event.set .cs false ∉ pre ∧ Event.set .rst false ∉ pre ∧ ∀ v, Event.set .rst v ∉ post

/-- R75: what the pseudo-operations abbreviate, as equalities of traces. -/
def Obligations.PseudoOperations : Prop :=
  ∀ (p : Params) (opb : Memory),
    (∀ x y, gotoTrace p x y = wrbTrace p .command (0x80 ||| x) ++ wrbTrace p .command (0x40 ||| y)) ∧
    (∀ l, contrastTrace p l = wrbTrace p .command 0x21 ++ wrbTrace p .command (adj l) ++ wrbTrace p .command 0x20) ∧
    clearTrace p = gotoTrace p 0 0 ++ (List.replicate p.ncell (wrbTrace p .data 0)).flatten ∧
    (∀ c, isControl c = false → charTrace p c = (charBytes c).flatMap (wrbTrace p .data)) ∧
    (∀ n, padTrace p n = (List.replicate n (charTrace p 0x20)).flatten) ∧
    (∀ m n, textTrace p opb (m + n) = textTrace p opb m ++ (List.range n).flatMap (fun i => charTrace p (opbByte opb (m + i)))) ∧
    ((∀ a < p.ncell, opbByte opb a = 0) → imageTrace p opb = clearTrace p)

/-- R67, R123: the glyph row of a character. -/
def Obligations.GlyphSelection : Prop :=
  ∀ ch : Byte, (0x20 ≤ ch ∧ ch ≤ 0x7F → glyphRow ch = ch.toNat - 0x20) ∧ (¬ (0x20 ≤ ch ∧ ch ≤ 0x7F) → glyphRow ch = 0x1F) ∧
    glyphRow ch < 96 ∧ charBytes 0x41 = [0x00, 0x7E, 0x11, 0x11, 0x11, 0x7E, 0x00]

/-! ### Frames at the receiver -/

/-- R143: FSET_EXT and FSET_BASIC, in either instruction set: nothing else changes. Whether FSET_EXT also selects horizontal
addressing the rule leaves open (log entry 34): the mode it leaves is not stated here, but that it stays horizontal if it was. -/
def Obligations.FunctionSet : Prop :=
  ∀ s : State, s.rx.undef = false →
    (∃ m, exec .fsetExt s = .next { s with rx := { s.rx with h := .extended, addrMode := m } } ∧
      (s.rx.addrMode = .horizontal → m = .horizontal)) ∧
    exec .fsetBasic s = .next { s with rx := { s.rx with h := .basic, addrMode := .horizontal } }

/-- R144, R145: SETX and SETY in BASIC; a value that is no column or no band leaves the receiver without a defined state (R154; the
model's flag `undef`, log entry 7). -/
def Obligations.AddressSet : Prop :=
  ∀ s : State, s.rx.undef = false → s.rx.h = .basic →
    (∀ x : BitVec 7, (x.toNat < s.params.cols → exec (.setx x) s = .next { s with rx := { s.rx with x := x } }) ∧
      (s.params.cols ≤ x.toNat → ∃ t, exec (.setx x) s = .next t ∧ t.rx.undef = true)) ∧
    (∀ y : BitVec 3, (y.toNat < s.params.bands → exec (.sety y) s = .next { s with rx := { s.rx with y := y } }) ∧
      (s.params.bands ≤ y.toNat → ∃ t, exec (.sety y) s = .next t ∧ t.rx.undef = true))

/-- R146: display control acts in BASIC and has no effect in EXTENDED. -/
def Obligations.DisplayControl : Prop :=
  ∀ s : State, s.rx.undef = false →
    (s.rx.h = .basic → exec .dispNormal s = .next { s with rx := { s.rx with display := .normal } } ∧
      exec .dispInverse s = .next { s with rx := { s.rx with display := .inverse } }) ∧
    (s.rx.h = .extended → exec .dispNormal s = .next s ∧ exec .dispInverse s = .next s)

/-- R147, R73, R148: SETVOP in EXTENDED; SETX's word there is the same frame, and SETVOP's in BASIC is SETX's
(log entry 17). VOP_ZERO in EXTENDED
changes nothing but RX.VOP, the model's choice for the power-save setting (log entry 35); what RX.VOP then is, no statement says
(U16). -/
def Obligations.VoltageSet : Prop :=
  ∀ (s : State) (v : BitVec 7), s.rx.undef = false →
    (s.rx.h = .extended → exec (.setvop v) s = .next { s with rx := { s.rx with vop := v } } ∧ exec (.setx v) s = exec (.setvop v) s ∧
      ∃ z, exec .vopZero s = .next { s with rx := { s.rx with vop := z } }) ∧
    (s.rx.h = .basic → exec (.setvop v) s = exec (.setx v) s)

/-- R149: SETTC and SETBIAS in EXTENDED. -/
def Obligations.TemperatureAndBias : Prop :=
  ∀ s : State, s.rx.undef = false → s.rx.h = .extended →
    exec .settc s = .next { s with rx := { s.rx with tc := 0x04 } } ∧
    exec .setbias s = .next { s with rx := { s.rx with bias := 0x14 } }

/-- R150, R151, R41, R52: DATA writes the addressed cell, whole, and no other; the address goes on by column, then by band, and
after the last cell to WRAP_LAST where that is fixed. -/
def Obligations.DataWritesOneCell : Prop :=
  ∀ (s : State) (d : Byte), s.rx.undef = false → Addressed s →
    ∃ t, exec (.data d) s = .next t ∧ t = { s with rx := t.rx, freeCtr := t.freeCtr } ∧
      t.rx.ddram.read (s.rx.y.toNat * s.params.cols + s.rx.x.toNat) = some d ∧
      (∀ a, a ≠ s.rx.y.toNat * s.params.cols + s.rx.x.toNat → t.rx.ddram.read a = s.rx.ddram.read a) ∧
      SameSettings s.rx t.rx ∧ t.rx.sr = s.rx.sr ∧ t.rx.bitcnt = s.rx.bitcnt ∧ t.rx.undef = false ∧
      (s.rx.x.toNat + 1 < s.params.cols → t.rx.x = s.rx.x + 1 ∧ t.rx.y = s.rx.y) ∧
      (s.rx.x.toNat + 1 = s.params.cols → s.rx.y.toNat + 1 < s.params.bands → t.rx.x = 0 ∧ t.rx.y = s.rx.y + 1) ∧
      (s.rx.x.toNat + 1 = s.params.cols → s.rx.y.toNat + 1 = s.params.bands →
        ∀ w, s.params.wrapLast = some w → (t.rx.x, t.rx.y) = w)

/-- R154, R150: a frame whose effect the spec does not define leaves the receiver without a defined state: no cell has a value
(the model's flag `undef`, log entries 7, 9, 17); and
a receiver without a defined state stays without one, whatever frame it takes. -/
def Obligations.UndefinedFrames : Prop :=
  ∀ (s : State) (i : Instr) (f : BitVec 9), encode i = .frame f →
    (s.rx.undef = true ∨
      (s.rx.h = .basic ∧ (i = .vopZero ∨ i = .settc ∨ i = .setbias ∨
        (∃ x, (i = .setx x ∨ i = .setvop x) ∧ s.params.cols ≤ x.toNat) ∨ ∃ y, i = .sety y ∧ s.params.bands ≤ y.toNat)) ∨
      (s.rx.h = .extended ∧ ∃ y, i = .sety y) ∨ (∃ d, i = .data d ∧ ¬ Addressed s)) →
    ∃ t, exec i s = .next t ∧ t.rx.undef = true ∧ (∀ a, t.rx.ddram.read a = none) ∧ t = { s with rx := t.rx, freeCtr := t.freeCtr }

/-- R41, R143 to R150, R154 (frame): a frame changes the receiver alone; in a receiver that keeps its defined state, each field is
changed by no frames but its own. That FSET_EXT leaves the addressing mode and VOP_ZERO the other settings alone are the model's
choices (log entries 34, 35): of FSET_EXT and the addressing mode nothing is said here. -/
def Obligations.FrameOfFrames : Prop :=
  ∀ (s t : State) (i : Instr) (f : BitVec 9), encode i = .frame f → exec i s = .next t →
    t = { s with rx := t.rx, freeCtr := t.freeCtr } ∧
    (s.rx.undef = false → t.rx.undef = false →
      t.rx.sr = s.rx.sr ∧ t.rx.bitcnt = s.rx.bitcnt ∧
      ((∀ d, i ≠ .data d) → ∀ a, t.rx.ddram.read a = s.rx.ddram.read a) ∧
      ((∀ d, i ≠ .data d) → (∀ x, i ≠ .setx x ∧ i ≠ .setvop x) → t.rx.x = s.rx.x) ∧
      ((∀ d, i ≠ .data d) → (∀ y, i ≠ .sety y) → t.rx.y = s.rx.y) ∧
      (i ≠ .fsetExt → i ≠ .fsetBasic → t.rx.h = s.rx.h ∧ t.rx.addrMode = s.rx.addrMode) ∧
      (i ≠ .dispNormal → i ≠ .dispInverse → t.rx.display = s.rx.display) ∧
      (i ≠ .vopZero → (∀ v, i ≠ .setvop v ∧ i ≠ .setx v) → t.rx.vop = s.rx.vop) ∧
      (i ≠ .settc → t.rx.tc = s.rx.tc) ∧ (i ≠ .setbias → t.rx.bias = s.rx.bias))

/-! ### Requests at the block -/

/-- R15 (a), R11, R14, R16, R56, R104: each request (TXB, WRB, INIT, CONTRAST, GOTO, CLEAR, IMAGE, CHAR, TEXT, PAD, BORDER) accepted
by an idle block is latched, starts at event 0 of its operation's trace with the operand bytes as they stand, and changes nothing
else; INIT also brings CTRL_STATE to RESET. While BUSY = 1 the block does not accept it: nothing changes (log entry 22). -/
def Obligations.RequestAccepted : Prop :=
  ∀ (s : State) (i : Instr) (w : BitVec 20), encode i = .request w →
    (s.busy = true → exec i s = .next s) ∧
    (s.busy = false → ∃ t, exec i s = .next t ∧ t.trace = opTrace s.params s.opb i ∧
      t = { s with
        req := w
        upc := 0
        busy := true
        hcnt := 0
        holding := false
        stall := 0
        opbAcc := t.opbAcc
        ctrl := if i = .init then .reset else s.ctrl })

/-! ### Operations from acceptance to end -/

/-- R212, R15, R57: every request, from every ready state, runs to its end: its whole trace is emitted, and nothing else. -/
def Obligations.EveryRequestCompletes : Prop :=
  ∀ (s : State) (i : Instr) (w : BitVec 20), Ready s → encode i = .request w →
    ∃ u, Completes i s u ∧ u.log = s.log ++ opTrace s.params s.opb i ∧ u.params = s.params ∧ u.ill = s.ill ∧
      u.opb = s.opb ∧ u.requests = s.requests ∧ u.hostIn = [] ∧ (i ≠ .init → Keeps s u)

/-- R80, R83, R141: TXB leaves its last bit on the data line and the clock low, touches no other pin, and a receiver that is not
selected takes nothing. -/
def Obligations.TxbCompletes : Prop :=
  ∀ (s : State) (b : Byte) (m : Bool), Ready s →
    ∃ u, Completes (.txb b m) s u ∧ Keeps s u ∧ u.log = s.log ++ txbTrace s.params b m ∧
      u.pins = { s.pins with clk := false, din := b.getLsbD (if m then 0 else 7) } ∧
      (s.oe = false ∨ s.rx.undef = false → u.rx = s.rx)

/-- R90, R92, R142: WRB delivers its frame to the receiver, which executes it, if it gives it a defined effect; the pins are left
as R92 says. -/
def Obligations.WrbDeliversItsFrame : Prop :=
  ∀ (s : State) (m : Mode) (b : Byte) (i : Instr), Listening s → decodeFrame s.rx.h m b = .ok i →
    (∀ n, ∃ v, exec i { s with rx := { s.rx with sr := b }, freeCtr := n } = .next v ∧ v.rx.undef = false) →
    ∃ u n v, Completes (.wrb m b) s u ∧ Keeps s u ∧ u.log = s.log ++ wrbTrace s.params m b ∧ EndsFrame m b u ∧
      exec i { s with rx := { s.rx with sr := b }, freeCtr := n } = .next v ∧ u.rx = v.rx

/-- R72, R53, R108, R144, R145, R154, R92: COMMAND bytes without a defined effect, by WRB (outside the table, or a column or band that
is none of the display's), and every GOTO to a column or a band outside the display, in either instruction set, are sent all the
same; the receiver is left without a defined state (the model's flag `undef`, log entries 7, 32). -/
def Obligations.OutsideTheTable : Prop :=
  ∀ s : State, Listening s →
    (∀ b : Byte, ((∃ r, decodeFrame s.rx.h .command b = .error r) ∨
        (∃ x, decodeFrame s.rx.h .command b = .ok (.setx x) ∧ s.params.cols ≤ x.toNat) ∨
        ∃ y, decodeFrame s.rx.h .command b = .ok (.sety y) ∧ s.params.bands ≤ y.toNat) →
      ∃ u, Completes (.wrb .command b) s u ∧ Keeps s u ∧ u.log = s.log ++ wrbTrace s.params .command b ∧ EndsFrame .command b u ∧
        u.rx.undef = true) ∧
    (∀ x y : Byte, s.params.cols ≤ x.toNat ∨ s.params.bands ≤ y.toNat →
      ∃ u, Completes (.goto x y) s u ∧ Keeps s u ∧
        u.log = s.log ++ (wrbTrace s.params .command (0x80 ||| x) ++ wrbTrace s.params .command (0x40 ||| y)) ∧
        EndsFrame .command (0x40 ||| y) u ∧ u.rx.undef = true)

/-- R107: GOTO sets the receiver's address, column and band, and nothing else there. -/
def Obligations.GotoCompletes : Prop :=
  ∀ (s : State) (x y : Byte), Listening s → s.rx.h = .basic → x.toNat < s.params.cols → y.toNat < s.params.bands →
    ∃ u, Completes (.goto x y) s u ∧ Keeps s u ∧ u.log = s.log ++ gotoTrace s.params x y ∧
      EndsFrame .command y u ∧ u.rx.x.toNat = x.toNat ∧ u.rx.y.toNat = y.toNat ∧ SameSettings s.rx u.rx ∧
      (∀ a, u.rx.ddram.read a = s.rx.ddram.read a) ∧ u.rx.undef = false

/-- R105, R66: CONTRAST sets the voltage for a non-zero level and leaves the receiver in BASIC, horizontal; the address and the
cells are not touched, nor is CTRL_STATE. That level 0 leaves the display mode, temperature and bias settings alone is the model's
choice (log entry 35). -/
def Obligations.ContrastCompletes : Prop :=
  ∀ (s : State) (level : Byte), Listening s →
    ∃ u, Completes (.contrast level) s u ∧ Keeps s u ∧ u.log = s.log ++ contrastTrace s.params level ∧
      EndsFrame .command 0x20 u ∧ u.rx.h = .basic ∧ u.rx.addrMode = .horizontal ∧
      (level ≠ 0 → u.rx.vop = level.extractLsb' 0 7) ∧ u.rx.x = s.rx.x ∧ u.rx.y = s.rx.y ∧ u.rx.display = s.rx.display ∧
      u.rx.tc = s.rx.tc ∧ u.rx.bias = s.rx.bias ∧ (∀ a, u.rx.ddram.read a = s.rx.ddram.read a) ∧ u.rx.undef = false

/-- R120, R151: CLEAR writes zero to every cell; the address is then WRAP_LAST. -/
def Obligations.ClearCompletes : Prop :=
  ∀ s : State, Listening s → s.rx.h = .basic → s.rx.addrMode = .horizontal →
    ∃ u, Completes .clear s u ∧ Keeps s u ∧ u.log = s.log ++ clearTrace s.params ∧ EndsFrame .data 0 u ∧
      (∀ a, a < s.params.ncell → u.rx.ddram.read a = some 0) ∧ SameSettings s.rx u.rx ∧ u.rx.undef = false ∧
      (s.params.wrapLast = some (0, 0) → u.rx.x = 0 ∧ u.rx.y = 0)

/-- R121, R46: IMAGE writes the frame buffer, byte `i` of OPB to cell `i`. -/
def Obligations.ImageCompletes : Prop :=
  ∀ s : State, Listening s → s.rx.h = .basic → s.rx.addrMode = .horizontal →
    ∃ u, Completes .image s u ∧ Keeps s u ∧ u.log = s.log ++ imageTrace s.params s.opb ∧
      EndsFrame .data (opbByte s.opb (s.params.ncell - 1)) u ∧
      (∀ a, a < s.params.ncell → u.rx.ddram.read a = some (opbByte s.opb a)) ∧ SameSettings s.rx u.rx ∧ u.rx.undef = false ∧
      (s.params.wrapLast = some (0, 0) → u.rx.x = 0 ∧ u.rx.y = 0)

/-- R122, R127, R155: a drawn CHAR writes its seven bytes to consecutive cells from the address, in either instruction set, going
on in the next band, and at cell 0 after the last under WRAP_LAST = (0, 0); the address moves by seven cells. -/
def Obligations.CharCompletes : Prop :=
  ∀ (s : State) (ch : Byte), Listening s → Addressed s → isControl ch = false →
    (s.params.wrapLast = some (0, 0) ∨ s.rx.cell s.params + 7 < s.params.ncell) →
    ∃ u, Completes (.char ch) s u ∧ Keeps s u ∧ u.log = s.log ++ charTrace s.params ch ∧ EndsFrame .data 0 u ∧
      (∀ a, u.rx.ddram.read a =
        streamed s.params.ncell (s.rx.cell s.params)
          [0, glyphByte ch 0, glyphByte ch 1, glyphByte ch 2, glyphByte ch 3, glyphByte ch 4, 0] s.rx.ddram.read a) ∧
      Addressed u ∧ u.rx.cell s.params = (s.rx.cell s.params + 7) % s.params.ncell ∧ SameSettings s.rx u.rx ∧ u.rx.undef = false

/-- R122: CHAR of newline, carriage return or tab completes at once: no event, no pin written, no cursor motion. -/
def Obligations.CharSkipsControl : Prop :=
  ∀ (s : State) (ch : Byte), Ready s → (ch = 0x0A ∨ ch = 0x0D ∨ ch = 0x09) →
    ∃ u, Completes (.char ch) s u ∧ Keeps s u ∧ u.log = s.log ∧ u.pins = s.pins ∧ u.rx = s.rx

/-- R124, R127: TEXT streams the characters of OPB, skipping the control characters. -/
def Obligations.TextCompletes : Prop :=
  ∀ (s : State) (n : Byte), Listening s → Addressed s →
    (s.params.wrapLast = some (0, 0) ∨ s.rx.cell s.params + (textBytes s.opb n.toNat).length < s.params.ncell) →
    ∃ u, Completes (.text n) s u ∧ Keeps s u ∧ u.log = s.log ++ textTrace s.params s.opb n.toNat ∧
      (∀ a, u.rx.ddram.read a =
        streamed s.params.ncell (s.rx.cell s.params) (textBytes s.opb n.toNat) s.rx.ddram.read a) ∧
      Addressed u ∧ u.rx.cell s.params = (s.rx.cell s.params + (textBytes s.opb n.toNat).length) % s.params.ncell ∧
      SameSettings s.rx u.rx ∧ u.rx.undef = false ∧ (n = 0 → u.rx = s.rx ∧ u.pins = s.pins)

/-- R125, R127: PAD streams the space's seven bytes `n` times and moves the address by `7 n` cells. -/
def Obligations.PadCompletes : Prop :=
  ∀ (s : State) (n : Byte), Listening s → Addressed s →
    (s.params.wrapLast = some (0, 0) ∨ s.rx.cell s.params + 7 * n.toNat < s.params.ncell) →
    ∃ u, Completes (.pad n) s u ∧ Keeps s u ∧ u.log = s.log ++ padTrace s.params n.toNat ∧
      (∀ a, u.rx.ddram.read a = streamed s.params.ncell (s.rx.cell s.params) (padBytes n.toNat) s.rx.ddram.read a) ∧
      Addressed u ∧ u.rx.cell s.params = (s.rx.cell s.params + 7 * n.toNat) % s.params.ncell ∧
      SameSettings s.rx u.rx ∧ u.rx.undef = false ∧ (n = 0 → u.rx = s.rx ∧ u.pins = s.pins)

/-- R126, R47: BORDER writes the four edges, each byte replacing its cell, the side columns last; every other cell keeps its value.
In pixels, it sets the bits of the first and the last pixel row and of the first and the last column, which are lit in NORMAL display
mode and not lit in INVERSE (log entry 36). -/
def Obligations.BorderCompletes : Prop :=
  ∀ s : State, Listening s → s.rx.h = .basic → s.rx.addrMode = .horizontal → s.params.cols = 84 → s.params.bands = 6 →
    ∃ u, Completes .border s u ∧ Keeps s u ∧ u.log = s.log ++ borderTrace s.params ∧ EndsFrame .data 0xFF u ∧
      (∀ x y, x < 84 → y < 6 → u.rx.ddram.read (y * 84 + x) =
        if x = 0 ∨ x = 83 then some 0xFF else if y = 0 then some 0x01 else if y = 5 then some 0x80
        else s.rx.ddram.read (y * 84 + x)) ∧
      (∀ x r, x < 84 → r < 48 → (x = 0 ∨ x = 83 ∨ r = 0 ∨ r = 47) → u.pixel x r = some true ∧
        (s.rx.display = .normal → u.lit x r = some true) ∧ (s.rx.display = .inverse → u.lit x r = some false)) ∧
      SameSettings s.rx u.rx ∧ u.rx.undef = false ∧ (s.params.wrapLast = some (0, 0) → u.rx.x = 0 ∧ u.rx.y = 0)

/-- R100, R155, R197, R32: INIT, from any ready state and whatever the receiver's state, brings the block and the receiver to the
state R100 gives, with every cell zero. The receiver measures neither the reset pulse nor the time after it, so this holds with
RST_PULSE_T, T_RST_REC_US or T_US below their defaults too (log entry 29). -/
def Obligations.InitCompletes : Prop :=
  ∀ s : State, Ready s → s.params.vopDefaultCmd = 0xB1 → s.params.tcCmd = 0x04 → s.params.biasCmd = 0x14 →
    ∃ u, Completes .init s u ∧ u.log = s.log ++ initTrace s.params ∧ u.oe = true ∧ u.ctrl = .normalMode ∧
      EndsFrame .data 0 u ∧ u.pins.rst = true ∧ u.pins.aux = true ∧ u.params = s.params ∧ u.ill = s.ill ∧ u.opb = s.opb ∧
      u.requests = s.requests ∧
      u.rx.undef = false ∧ u.rx.h = .basic ∧ u.rx.addrMode = .horizontal ∧
      u.rx.display = (if s.params.inverse then .inverse else .normal) ∧ u.rx.vop = 0x31 ∧ u.rx.tc = 0x04 ∧ u.rx.bias = 0x14 ∧
      (∀ a, a < s.params.ncell → u.rx.ddram.read a = some 0) ∧
      (s.params.wrapLast = some (0, 0) → u.rx.x = 0 ∧ u.rx.y = 0)

/-- R104, R19: during INIT, CTRL_STATE is RESET until the frame 0x21 has been sent, EXTENDED_MODE until the frame 0x20 has been
sent, then NORMAL_MODE; UPC is 73 and 378 at those moments, one less without the illumination line. -/
def Obligations.ControllerStateDuringInit : Prop :=
  ∀ (s t v : State) (n : Nat), Ready s → exec .init s = .next t → stepN n t = .next v →
    (∀ k ≤ n, ∀ m, stepN k t = .next m → m.busy = true) →
    v.ctrl = (if v.upc < (initToExtended s.params).length then .reset
      else if v.upc < (initToExtended s.params ++ initToNormal s.params).length then .extendedMode else .normalMode) ∧
    (s.params.hasAux = true → (initToExtended s.params).length = 73 ∧
      (initToExtended s.params ++ initToNormal s.params).length = 378) ∧
    (s.params.hasAux = false → (initToExtended s.params).length = 72 ∧
      (initToExtended s.params ++ initToNormal s.params).length = 377)

/-- R196, R13, R141: an operation before INIT runs its trace on the pin registers, but nothing reaches the receiver and
CTRL_STATE stays. -/
def Obligations.OperationBeforeInit : Prop :=
  ∀ (s : State) (i : Instr) (w : BitVec 20), Ready s → s.oe = false → encode i = .request w → i ≠ .init →
    ∃ u, Completes i s u ∧ Keeps s u ∧ u.rx = s.rx ∧ u.log = s.log ++ opTrace s.params s.opb i ∧
      ∀ p, u.pins.get p = lastLevel p (s.pins.get p) (opTrace s.params s.opb i)

/-! ### What every step keeps -/

/-- R31: the invariant holds right after reset. -/
def Obligations.InvariantAtReset : Prop := Inv State.reset

/-- R33, R14, R12, R196, R153: every step keeps the invariant: idle lines, UPC inside the trace, canonical memories, no partial
byte outside a bracket, no defined receiver on undriven lines. -/
def Obligations.InvariantKept : Prop := ∀ s t : State, Inv s → step s = .next t → Inv t

/-- R212, R170: there is no stuck state and no fault: from every state that meets the invariant a step answers a next state. -/
def Obligations.NoStuckState : Prop := ∀ s : State, Inv s → ∃ t, step s = .next t

/-- R212, R57: every operation in progress ends, whatever its operands: the rest of its trace is emitted and BUSY falls. -/
def Obligations.EveryOperationEnds : Prop :=
  ∀ s : State, Inv s → s.busy = true → s.hostIn = [] →
    ∃ u, Reaches s u ∧ u.busy = false ∧ u.done = true ∧ u.log = s.log ++ s.trace.drop s.upc

/-- R15, R54, R57: a step emits at most one event, and then it is the one UPC points to, of the operation in progress. -/
def Obligations.StepsFollowTheTrace : Prop :=
  ∀ s t : State, step s = .next t → (∀ i b rest, s.hostIn ≠ .writeOpb i b :: rest) →
    t.log = s.log ∨ ∃ e, s.busy = true ∧ s.trace[s.upc]? = some e ∧ t.log = s.log ++ [e] ∧ t.upc = s.upc + 1

/-- R18, R176: ILL, once set, stays until hardware reset; it is set by nothing but a reserved opcode. -/
def Obligations.IllIsSticky : Prop :=
  ∀ s t : State, step s = .next t →
    (s.ill = true → t.ill = true ∨ ∃ rest, s.hostIn = .reset :: rest) ∧
    (s.ill = false → t.ill = true → (reqOp t.req = 0x0 ∨ 0xC ≤ reqOp t.req))

/-- R12, R13, R19, R104: CTRL_STATE, the reset and illumination pins and the output enable are written by hardware reset and by a
running INIT (or its acceptance) alone, in every state of the machine. -/
def Obligations.OnlyInitWrites : Prop :=
  ∀ s t : State, step s = .next t →
    (t.ctrl = s.ctrl ∧ t.pins.rst = s.pins.rst ∧ t.pins.aux = s.pins.aux ∧ t.oe = s.oe) ∨ (∃ rest, s.hostIn = .reset :: rest) ∨
      (t.busy = true ∧ decodeRequest t.req = .ok .init)

/-- R42, R50, R5: the block never writes OPB, and nothing changes the parameters. -/
def Obligations.BlockNeverWritesOpb : Prop :=
  ∀ s t : State, step s = .next t →
    t.params = s.params ∧ (t.opb = s.opb ∨ ∃ i b rest, s.hostIn = .writeOpb i b :: rest ∧ t.opb = s.opb.write i.toNat b)

/-- R141, R192: while OE = 0 nothing reaches the receiver; only hardware reset takes its state from it. -/
def Obligations.UndrivenReceiverUntouched : Prop :=
  ∀ s t : State, step s = .next t → s.oe = false → t.rx = s.rx ∨ ∃ rest, s.hostIn = .reset :: rest

/-- R154, R152, R192, U9: hardware reset leaves the receiver without a defined state (the model's flag `undef`, log entry 7) and BITCNT
0; a receiver without a defined state gets one only from a reset pulse on the reset line; the pulse leaves every receiver, with a
defined state before it or without, no partial byte and no cell with a value (log entry 8). -/
def Obligations.UndefinedUntilResetPulse : Prop :=
  (∀ (s : State) (rest : List HostAct), s.hostIn = .reset :: rest →
    ∃ t, step s = .next t ∧ t.rx.undef = true ∧ t.rx.bitcnt = 0 ∧ ∀ a, t.rx.ddram.read a = none) ∧
  (∀ s t : State, step s = .next t → s.rx.undef = true →
    t.rx.undef = true ∨ (s.oe = true ∧ s.busy = true ∧ t.log = s.log ++ [.set .rst false])) ∧
  ∀ s : State, s.busy = true → s.hostIn = [] → s.trace[s.upc]? = some (.set .rst false) → s.oe = true →
    ∃ t, step s = .next t ∧ t.rx.undef = false ∧ t.rx.bitcnt = 0 ∧ ∀ a, t.rx.ddram.read a = none

/-- R41, R50, R140, R142: in a receiver that keeps its defined state, a step writes at most one cell of DDRAM, and does so only at
the rising clock edge of a data frame's eighth bit, the receiver's address being that cell's. -/
def Obligations.OnlyDataFramesWriteCells : Prop :=
  ∀ s t : State, step s = .next t → s.rx.undef = false → t.rx.undef = false → t.log ≠ s.log ++ [.set .rst false] →
    (∀ a, t.rx.ddram.read a = s.rx.ddram.read a) ∨
    (t.log = s.log ++ [.set .clk true] ∧ s.pins.clk = false ∧ s.pins.cs = false ∧ s.rx.bitcnt = 7 ∧ s.frameMode = .data ∧
      Addressed s ∧ t.rx.ddram = s.rx.ddram.write (s.rx.cell s.params) s.shifted)
end

