-- ==== Sys2Proof/Laws/Decode.lean ====
section
/-! SUPPORT. The fields of request words and of frame words, taken apart and put together. -/

namespace Sys2Proof

theorem reqWord_toNat (op : BitVec 4) (a b : Byte) :
    (reqWord op a b).toNat = op.toNat * 65536 + a.toNat * 256 + b.toNat := by
  have h : (reqWord op a b).toNat = (op.toNat <<< 8 ||| a.toNat) <<< 8 ||| b.toNat := rfl
  rw [h, ← Nat.shiftLeft_add_eq_or_of_lt a.isLt, ← Nat.shiftLeft_add_eq_or_of_lt b.isLt]
  simp only [Nat.shiftLeft_eq]
  omega

@[simp] theorem reqOp_reqWord (op : BitVec 4) (a b : Byte) : reqOp (reqWord op a b) = op := by
  apply BitVec.eq_of_toNat_eq
  have := op.isLt; have := a.isLt; have := b.isLt
  simp only [reqOp, BitVec.extractLsb'_toNat, reqWord_toNat, Nat.shiftRight_eq_div_pow]
  omega

@[simp] theorem reqA_reqWord (op : BitVec 4) (a b : Byte) : reqA (reqWord op a b) = a := by
  apply BitVec.eq_of_toNat_eq
  have := op.isLt; have := a.isLt; have := b.isLt
  simp only [reqA, BitVec.extractLsb'_toNat, reqWord_toNat, Nat.shiftRight_eq_div_pow]
  omega

@[simp] theorem reqB_reqWord (op : BitVec 4) (a b : Byte) : reqB (reqWord op a b) = b := by
  apply BitVec.eq_of_toNat_eq
  have := op.isLt; have := a.isLt; have := b.isLt
  simp only [reqB, BitVec.extractLsb'_toNat, reqWord_toNat, Nat.shiftRight_eq_div_pow]
  omega

theorem reqWord_fields (w : BitVec 20) : reqWord (reqOp w) (reqA w) (reqB w) = w := by
  apply BitVec.eq_of_toNat_eq
  have := w.isLt
  simp only [reqOp, reqA, reqB, BitVec.extractLsb'_toNat, reqWord_toNat, Nat.shiftRight_eq_div_pow]
  omega

@[simp] theorem flagByte_bit (v : Bool) : (flagByte v)[0] = v := by cases v <;> rfl

@[simp] theorem modeOfBit_bit (m : Mode) : modeOfBit m.bit = m := by cases m <;> rfl

@[simp] theorem bit_modeOfBit (v : Bool) : (modeOfBit v).bit = v := by cases v <;> rfl

theorem frameWord_toNat (m : Mode) (b : Byte) : (frameWord m b).toNat = m.bit.toNat * 256 + b.toNat := by
  have h : (frameWord m b).toNat = (BitVec.ofBool m.bit).toNat <<< 8 ||| b.toNat := rfl
  rw [h, ← Nat.shiftLeft_add_eq_or_of_lt b.isLt, Nat.shiftLeft_eq]
  simp

theorem frameWord_mode (m : Mode) (b : Byte) : (frameWord m b).getLsbD 8 = m.bit := by
  have := b.isLt
  rw [BitVec.getLsbD, frameWord_toNat]
  cases m <;> simp [Mode.bit, Nat.testBit, Nat.shiftRight_eq_div_pow] <;> omega

@[simp] theorem frameWord_getElem (m : Mode) (b : Byte) : (frameWord m b)[8] = m.bit := by
  rw [← BitVec.getLsbD_eq_getElem, frameWord_mode]

@[simp] theorem frameWord_byte (m : Mode) (b : Byte) : (frameWord m b).extractLsb' 0 8 = b := by
  apply BitVec.eq_of_toNat_eq
  have := b.isLt
  simp only [BitVec.extractLsb'_toNat, frameWord_toNat, Nat.shiftRight_eq_div_pow]
  omega

theorem frameWord_fields (f : BitVec 9) : frameWord (modeOfBit (f.getLsbD 8)) (f.extractLsb' 0 8) = f := by
  apply BitVec.eq_of_toNat_eq
  have := f.isLt
  have h : (f.getLsbD 8).toNat = f.toNat / 256 := by
    rw [BitVec.getLsbD, Nat.testBit_eq_decide_div_mod_eq]
    have : f.toNat / 256 < 2 := by omega
    interval_cases f.toNat / 2 ^ 8 <;> simp
  simp only [BitVec.extractLsb'_toNat, frameWord_toNat, Nat.shiftRight_eq_div_pow, bit_modeOfBit, h]
  omega

/-- A frame word decodes as its mode and byte. -/
@[simp] theorem decode_frameWord (h : InstrSet) (m : Mode) (b : Byte) :
    decode h (.frame (frameWord m b)) = decodeFrame h m b := by simp [decode]

/-- A byte with bit 7 set is SETX in BASIC. -/
theorem decodeCommand_setx (x : BitVec 7) : decodeCommand .basic (1#1 ++ x) = .ok (.setx x) := by
  revert x; decide

/-- The same byte is SETVOP in EXTENDED. -/
theorem decodeCommand_setvop (v : BitVec 7) : decodeCommand .extended (1#1 ++ v) = .ok (.setvop v) := by
  revert v; decide

theorem decodeCommand_sety (y : BitVec 3) : decodeCommand .basic (0b01000#5 ++ y) = .ok (.sety y) := by
  revert y; decide

end Sys2Proof
end

