-- ==== Sys2Proof/Laws/Memory.lean ====
section
/-! SUPPORT. Laws of byte memories: a read after a write, and the canonical form. -/

namespace Sys2Proof.Machine

theorem Memory.read_write_same (m : Memory) (a : Nat) (b : Byte) : (m.write a b).read a = some b := by
  induction m with
  | nil => simp [Memory.write, Memory.read]
  | cons c m ih =>
    obtain ⟨k, v⟩ := c
    simp only [Memory.write]
    split
    · simp [Memory.read]
    · split
      · simp [Memory.read]
      · simp [Memory.read, *]

theorem Memory.read_write_other (m : Memory) {a c : Nat} (b : Byte) (h : c ≠ a) :
    (m.write a b).read c = m.read c := by
  induction m with
  | nil => simp [Memory.write, Memory.read, h]
  | cons e m ih =>
    obtain ⟨k, v⟩ := e
    simp only [Memory.write]
    split
    · simp [Memory.read, h]
    · split
      · subst_vars; simp [Memory.read, h]
      · simp [Memory.read, ih]

/-- The two laws in one. -/
theorem Memory.read_write (m : Memory) (a c : Nat) (b : Byte) :
    (m.write a b).read c = if c = a then some b else m.read c := by
  by_cases h : c = a
  · subst h; simp [Memory.read_write_same]
  · simp [h, Memory.read_write_other m b h]

theorem Memory.risingFrom_write (m : Memory) {a lo size : Nat} (b : Byte) (ha : a < size) (hlo : lo ≤ a)
    (hm : m.risingFrom lo size = true) : (m.write a b).risingFrom lo size = true := by
  induction m generalizing lo with
  | nil => simp [Memory.write, Memory.risingFrom, ha, hlo]
  | cons e m ih =>
    obtain ⟨k, v⟩ := e
    simp only [Memory.risingFrom, Bool.and_eq_true, decide_eq_true_eq] at hm
    obtain ⟨⟨h1, h2⟩, h3⟩ := hm
    simp only [Memory.write]
    split
    · simp only [Memory.risingFrom, Bool.and_eq_true, decide_eq_true_eq]
      exact ⟨⟨hlo, ha⟩, ⟨by omega, h2⟩, h3⟩
    · split
      · subst_vars; simp [Memory.risingFrom, h1, h2, h3]
      · simp only [Memory.risingFrom, Bool.and_eq_true, decide_eq_true_eq]
        exact ⟨⟨h1, h2⟩, ih (by omega) h3⟩

/-- A write inside the memory keeps the canonical form. -/
theorem Memory.wf_write {m : Memory} {a size : Nat} (b : Byte) (ha : a < size) (hm : m.wf size = true) :
    (m.write a b).wf size = true :=
  Memory.risingFrom_write m b ha (Nat.zero_le a) hm

theorem Memory.wf_nil (size : Nat) : Memory.wf [] size = true := rfl

theorem Memory.read_below (m : Memory) {a lo size : Nat} (ha : a < lo) (hm : m.risingFrom lo size = true) :
    m.read a = none := by
  induction m generalizing lo with
  | nil => rfl
  | cons e m ih =>
    obtain ⟨k, v⟩ := e
    simp only [Memory.risingFrom, Bool.and_eq_true, decide_eq_true_eq] at hm
    have : a ≠ k := by omega
    simp [Memory.read, this, ih (lo := k + 1) (by omega) hm.2]

/-- No address outside a memory in canonical form has a value. -/
theorem Memory.read_outside {m : Memory} {a size : Nat} (ha : size ≤ a) (hm : m.wf size = true) : m.read a = none := by
  unfold Memory.wf at hm
  generalize 0 = lo at hm
  induction m generalizing lo with
  | nil => rfl
  | cons e m ih =>
    obtain ⟨k, v⟩ := e
    simp only [Memory.risingFrom, Bool.and_eq_true, decide_eq_true_eq] at hm
    have : a ≠ k := by omega
    simp [Memory.read, this, ih (k + 1) hm.2]

/-- Equal reads of memories in canonical form: equal memories. -/
theorem Memory.ext_of_rising {m n : Memory} {lo size : Nat} (hm : m.risingFrom lo size = true)
    (hn : n.risingFrom lo size = true) (h : ∀ a, m.read a = n.read a) : m = n := by
  induction m generalizing n lo with
  | nil =>
    cases n with
    | nil => rfl
    | cons e n => obtain ⟨k, v⟩ := e; simpa [Memory.read] using h k
  | cons e m ih =>
    obtain ⟨k, v⟩ := e
    cases n with
    | nil => simpa [Memory.read] using h k
    | cons f n =>
      obtain ⟨l, w⟩ := f
      simp only [Memory.risingFrom, Bool.and_eq_true, decide_eq_true_eq] at hm hn
      have hkl : k = l := by
        by_contra hne
        rcases Nat.lt_or_gt_of_ne hne with hlt | hgt
        · have h1 := h k
          rw [Memory.read, if_pos rfl, Memory.read, if_neg hne, Memory.read_below n (by omega) hn.2] at h1
          simp at h1
        · have h1 := h l
          rw [Memory.read, if_neg (Ne.symm hne), Memory.read, if_pos rfl, Memory.read_below m (by omega) hm.2] at h1
          simp at h1
      subst hkl
      have hv : v = w := by simpa [Memory.read] using h k
      subst hv
      refine congrArg _ (ih hm.2 hn.2 fun a => ?_)
      by_cases hak : a = k
      · subst hak; rw [Memory.read_below m (Nat.lt_succ_self a) hm.2, Memory.read_below n (Nat.lt_succ_self a) hn.2]
      · simpa [Memory.read, hak] using h a

end Sys2Proof.Machine
end

