-- ==== Sys2Proof/Laws/State.lean ====
section
/-! SUPPORT. What each update of the state does to each field, so that no later proof unfolds a record update. -/

namespace Sys2Proof.Machine

@[simp] theorem Pins.get_put_same (q : Pins) (p : Pin) (v : Level) : (q.put p v).get p = v := by cases p <;> rfl

theorem Pins.get_put (q : Pins) (p p' : Pin) (v : Level) : (q.put p v).get p' = if p = p' then v else q.get p' := by
  cases p <;> cases p' <;> rfl

@[simp] theorem Pins.put_rst_rst (q : Pins) (v : Level) : (q.put .rst v).rst = v := rfl
@[simp] theorem Pins.put_rst_cs (q : Pins) (v : Level) : (q.put .rst v).cs = q.cs := rfl
@[simp] theorem Pins.put_rst_dc (q : Pins) (v : Level) : (q.put .rst v).dc = q.dc := rfl
@[simp] theorem Pins.put_rst_din (q : Pins) (v : Level) : (q.put .rst v).din = q.din := rfl
@[simp] theorem Pins.put_rst_clk (q : Pins) (v : Level) : (q.put .rst v).clk = q.clk := rfl
@[simp] theorem Pins.put_rst_aux (q : Pins) (v : Level) : (q.put .rst v).aux = q.aux := rfl
@[simp] theorem Pins.put_cs_rst (q : Pins) (v : Level) : (q.put .cs v).rst = q.rst := rfl
@[simp] theorem Pins.put_cs_cs (q : Pins) (v : Level) : (q.put .cs v).cs = v := rfl
@[simp] theorem Pins.put_cs_dc (q : Pins) (v : Level) : (q.put .cs v).dc = q.dc := rfl
@[simp] theorem Pins.put_cs_din (q : Pins) (v : Level) : (q.put .cs v).din = q.din := rfl
@[simp] theorem Pins.put_cs_clk (q : Pins) (v : Level) : (q.put .cs v).clk = q.clk := rfl
@[simp] theorem Pins.put_cs_aux (q : Pins) (v : Level) : (q.put .cs v).aux = q.aux := rfl
@[simp] theorem Pins.put_dc_rst (q : Pins) (v : Level) : (q.put .dc v).rst = q.rst := rfl
@[simp] theorem Pins.put_dc_cs (q : Pins) (v : Level) : (q.put .dc v).cs = q.cs := rfl
@[simp] theorem Pins.put_dc_dc (q : Pins) (v : Level) : (q.put .dc v).dc = v := rfl
@[simp] theorem Pins.put_dc_din (q : Pins) (v : Level) : (q.put .dc v).din = q.din := rfl
@[simp] theorem Pins.put_dc_clk (q : Pins) (v : Level) : (q.put .dc v).clk = q.clk := rfl
@[simp] theorem Pins.put_dc_aux (q : Pins) (v : Level) : (q.put .dc v).aux = q.aux := rfl
@[simp] theorem Pins.put_din_rst (q : Pins) (v : Level) : (q.put .din v).rst = q.rst := rfl
@[simp] theorem Pins.put_din_cs (q : Pins) (v : Level) : (q.put .din v).cs = q.cs := rfl
@[simp] theorem Pins.put_din_dc (q : Pins) (v : Level) : (q.put .din v).dc = q.dc := rfl
@[simp] theorem Pins.put_din_din (q : Pins) (v : Level) : (q.put .din v).din = v := rfl
@[simp] theorem Pins.put_din_clk (q : Pins) (v : Level) : (q.put .din v).clk = q.clk := rfl
@[simp] theorem Pins.put_din_aux (q : Pins) (v : Level) : (q.put .din v).aux = q.aux := rfl
@[simp] theorem Pins.put_clk_rst (q : Pins) (v : Level) : (q.put .clk v).rst = q.rst := rfl
@[simp] theorem Pins.put_clk_cs (q : Pins) (v : Level) : (q.put .clk v).cs = q.cs := rfl
@[simp] theorem Pins.put_clk_dc (q : Pins) (v : Level) : (q.put .clk v).dc = q.dc := rfl
@[simp] theorem Pins.put_clk_din (q : Pins) (v : Level) : (q.put .clk v).din = q.din := rfl
@[simp] theorem Pins.put_clk_clk (q : Pins) (v : Level) : (q.put .clk v).clk = v := rfl
@[simp] theorem Pins.put_clk_aux (q : Pins) (v : Level) : (q.put .clk v).aux = q.aux := rfl
@[simp] theorem Pins.put_aux_rst (q : Pins) (v : Level) : (q.put .aux v).rst = q.rst := rfl
@[simp] theorem Pins.put_aux_cs (q : Pins) (v : Level) : (q.put .aux v).cs = q.cs := rfl
@[simp] theorem Pins.put_aux_dc (q : Pins) (v : Level) : (q.put .aux v).dc = q.dc := rfl
@[simp] theorem Pins.put_aux_din (q : Pins) (v : Level) : (q.put .aux v).din = q.din := rfl
@[simp] theorem Pins.put_aux_clk (q : Pins) (v : Level) : (q.put .aux v).clk = q.clk := rfl
@[simp] theorem Pins.put_aux_aux (q : Pins) (v : Level) : (q.put .aux v).aux = v := rfl

@[simp] theorem Pins.get_rst (q : Pins) : q.get .rst = q.rst := rfl
@[simp] theorem Pins.get_cs (q : Pins) : q.get .cs = q.cs := rfl
@[simp] theorem Pins.get_dc (q : Pins) : q.get .dc = q.dc := rfl
@[simp] theorem Pins.get_din (q : Pins) : q.get .din = q.din := rfl
@[simp] theorem Pins.get_clk (q : Pins) : q.get .clk = q.clk := rfl
@[simp] theorem Pins.get_aux (q : Pins) : q.get .aux = q.aux := rfl

/-! ### `State.loseRx` -/

@[simp] theorem State.loseRx_params (s : State) : s.loseRx.params = s.params := rfl
@[simp] theorem State.loseRx_req (s : State) : s.loseRx.req = s.req := rfl
@[simp] theorem State.loseRx_pins (s : State) : s.loseRx.pins = s.pins := rfl
@[simp] theorem State.loseRx_oe (s : State) : s.loseRx.oe = s.oe := rfl
@[simp] theorem State.loseRx_upc (s : State) : s.loseRx.upc = s.upc := rfl
@[simp] theorem State.loseRx_busy (s : State) : s.loseRx.busy = s.busy := rfl
@[simp] theorem State.loseRx_hcnt (s : State) : s.loseRx.hcnt = s.hcnt := rfl
@[simp] theorem State.loseRx_holding (s : State) : s.loseRx.holding = s.holding := rfl
@[simp] theorem State.loseRx_stall (s : State) : s.loseRx.stall = s.stall := rfl
@[simp] theorem State.loseRx_ill (s : State) : s.loseRx.ill = s.ill := rfl
@[simp] theorem State.loseRx_ctrl (s : State) : s.loseRx.ctrl = s.ctrl := rfl
@[simp] theorem State.loseRx_done (s : State) : s.loseRx.done = s.done := rfl
@[simp] theorem State.loseRx_opb (s : State) : s.loseRx.opb = s.opb := rfl
@[simp] theorem State.loseRx_opbAcc (s : State) : s.loseRx.opbAcc = s.opbAcc := rfl
@[simp] theorem State.loseRx_rx (s : State) : s.loseRx.rx = Rx.drawn s.freeCtr (Config.rxBitcnt s.freeCtr) true := rfl
@[simp] theorem State.loseRx_requests (s : State) : s.loseRx.requests = s.requests := rfl
@[simp] theorem State.loseRx_hostIn (s : State) : s.loseRx.hostIn = s.hostIn := rfl
@[simp] theorem State.loseRx_log (s : State) : s.loseRx.log = s.log := rfl
@[simp] theorem State.loseRx_freeCtr (s : State) : s.loseRx.freeCtr = s.freeCtr + 1 := rfl

/-! ### `State.forgetRx` -/

@[simp] theorem State.forgetRx_params (s : State) : s.forgetRx.params = s.params := rfl
@[simp] theorem State.forgetRx_req (s : State) : s.forgetRx.req = s.req := rfl
@[simp] theorem State.forgetRx_pins (s : State) : s.forgetRx.pins = s.pins := rfl
@[simp] theorem State.forgetRx_oe (s : State) : s.forgetRx.oe = s.oe := rfl
@[simp] theorem State.forgetRx_upc (s : State) : s.forgetRx.upc = s.upc := rfl
@[simp] theorem State.forgetRx_busy (s : State) : s.forgetRx.busy = s.busy := rfl
@[simp] theorem State.forgetRx_hcnt (s : State) : s.forgetRx.hcnt = s.hcnt := rfl
@[simp] theorem State.forgetRx_holding (s : State) : s.forgetRx.holding = s.holding := rfl
@[simp] theorem State.forgetRx_stall (s : State) : s.forgetRx.stall = s.stall := rfl
@[simp] theorem State.forgetRx_ill (s : State) : s.forgetRx.ill = s.ill := rfl
@[simp] theorem State.forgetRx_ctrl (s : State) : s.forgetRx.ctrl = s.ctrl := rfl
@[simp] theorem State.forgetRx_done (s : State) : s.forgetRx.done = s.done := rfl
@[simp] theorem State.forgetRx_opb (s : State) : s.forgetRx.opb = s.opb := rfl
@[simp] theorem State.forgetRx_opbAcc (s : State) : s.forgetRx.opbAcc = s.opbAcc := rfl
@[simp] theorem State.forgetRx_rx (s : State) : s.forgetRx.rx = Rx.drawn s.freeCtr 0 true := rfl
@[simp] theorem State.forgetRx_requests (s : State) : s.forgetRx.requests = s.requests := rfl
@[simp] theorem State.forgetRx_hostIn (s : State) : s.forgetRx.hostIn = s.hostIn := rfl
@[simp] theorem State.forgetRx_log (s : State) : s.forgetRx.log = s.log := rfl
@[simp] theorem State.forgetRx_freeCtr (s : State) : s.forgetRx.freeCtr = s.freeCtr + 1 := rfl

/-! ### `State.pulseRx` -/

@[simp] theorem State.pulseRx_params (s : State) : s.pulseRx.params = s.params := rfl
@[simp] theorem State.pulseRx_req (s : State) : s.pulseRx.req = s.req := rfl
@[simp] theorem State.pulseRx_pins (s : State) : s.pulseRx.pins = s.pins := rfl
@[simp] theorem State.pulseRx_oe (s : State) : s.pulseRx.oe = s.oe := rfl
@[simp] theorem State.pulseRx_upc (s : State) : s.pulseRx.upc = s.upc := rfl
@[simp] theorem State.pulseRx_busy (s : State) : s.pulseRx.busy = s.busy := rfl
@[simp] theorem State.pulseRx_hcnt (s : State) : s.pulseRx.hcnt = s.hcnt := rfl
@[simp] theorem State.pulseRx_holding (s : State) : s.pulseRx.holding = s.holding := rfl
@[simp] theorem State.pulseRx_stall (s : State) : s.pulseRx.stall = s.stall := rfl
@[simp] theorem State.pulseRx_ill (s : State) : s.pulseRx.ill = s.ill := rfl
@[simp] theorem State.pulseRx_ctrl (s : State) : s.pulseRx.ctrl = s.ctrl := rfl
@[simp] theorem State.pulseRx_done (s : State) : s.pulseRx.done = s.done := rfl
@[simp] theorem State.pulseRx_opb (s : State) : s.pulseRx.opb = s.opb := rfl
@[simp] theorem State.pulseRx_opbAcc (s : State) : s.pulseRx.opbAcc = s.opbAcc := rfl
@[simp] theorem State.pulseRx_rx (s : State) : s.pulseRx.rx = Rx.drawn s.freeCtr 0 false := rfl
@[simp] theorem State.pulseRx_requests (s : State) : s.pulseRx.requests = s.requests := rfl
@[simp] theorem State.pulseRx_hostIn (s : State) : s.pulseRx.hostIn = s.hostIn := rfl
@[simp] theorem State.pulseRx_log (s : State) : s.pulseRx.log = s.log := rfl
@[simp] theorem State.pulseRx_freeCtr (s : State) : s.pulseRx.freeCtr = s.freeCtr + 1 := rfl

/-! ### `State.setRx` -/

@[simp] theorem State.setRx_params (s : State) (r : Rx) : (s.setRx r).params = s.params := rfl
@[simp] theorem State.setRx_req (s : State) (r : Rx) : (s.setRx r).req = s.req := rfl
@[simp] theorem State.setRx_pins (s : State) (r : Rx) : (s.setRx r).pins = s.pins := rfl
@[simp] theorem State.setRx_oe (s : State) (r : Rx) : (s.setRx r).oe = s.oe := rfl
@[simp] theorem State.setRx_upc (s : State) (r : Rx) : (s.setRx r).upc = s.upc := rfl
@[simp] theorem State.setRx_busy (s : State) (r : Rx) : (s.setRx r).busy = s.busy := rfl
@[simp] theorem State.setRx_hcnt (s : State) (r : Rx) : (s.setRx r).hcnt = s.hcnt := rfl
@[simp] theorem State.setRx_holding (s : State) (r : Rx) : (s.setRx r).holding = s.holding := rfl
@[simp] theorem State.setRx_stall (s : State) (r : Rx) : (s.setRx r).stall = s.stall := rfl
@[simp] theorem State.setRx_ill (s : State) (r : Rx) : (s.setRx r).ill = s.ill := rfl
@[simp] theorem State.setRx_ctrl (s : State) (r : Rx) : (s.setRx r).ctrl = s.ctrl := rfl
@[simp] theorem State.setRx_done (s : State) (r : Rx) : (s.setRx r).done = s.done := rfl
@[simp] theorem State.setRx_opb (s : State) (r : Rx) : (s.setRx r).opb = s.opb := rfl
@[simp] theorem State.setRx_opbAcc (s : State) (r : Rx) : (s.setRx r).opbAcc = s.opbAcc := rfl
@[simp] theorem State.setRx_rx (s : State) (r : Rx) : (s.setRx r).rx = r := rfl
@[simp] theorem State.setRx_requests (s : State) (r : Rx) : (s.setRx r).requests = s.requests := rfl
@[simp] theorem State.setRx_hostIn (s : State) (r : Rx) : (s.setRx r).hostIn = s.hostIn := rfl
@[simp] theorem State.setRx_log (s : State) (r : Rx) : (s.setRx r).log = s.log := rfl
@[simp] theorem State.setRx_freeCtr (s : State) (r : Rx) : (s.setRx r).freeCtr = s.freeCtr := rfl

/-! ### `State.complete` -/

@[simp] theorem State.complete_params (s : State) : s.complete.params = s.params := rfl
@[simp] theorem State.complete_req (s : State) : s.complete.req = s.req := rfl
@[simp] theorem State.complete_pins (s : State) : s.complete.pins = s.pins := rfl
@[simp] theorem State.complete_oe (s : State) : s.complete.oe = s.oe := rfl
@[simp] theorem State.complete_upc (s : State) : s.complete.upc = s.upc := rfl
@[simp] theorem State.complete_busy (s : State) : s.complete.busy = false := rfl
@[simp] theorem State.complete_hcnt (s : State) : s.complete.hcnt = 0 := rfl
@[simp] theorem State.complete_holding (s : State) : s.complete.holding = false := rfl
@[simp] theorem State.complete_stall (s : State) : s.complete.stall = 0 := rfl
@[simp] theorem State.complete_ill (s : State) : s.complete.ill = s.ill := rfl
@[simp] theorem State.complete_ctrl (s : State) : s.complete.ctrl = s.ctrl := rfl
@[simp] theorem State.complete_done (s : State) : s.complete.done = true := rfl
@[simp] theorem State.complete_opb (s : State) : s.complete.opb = s.opb := rfl
@[simp] theorem State.complete_opbAcc (s : State) : s.complete.opbAcc = [] := rfl
@[simp] theorem State.complete_rx (s : State) : s.complete.rx = s.rx := rfl
@[simp] theorem State.complete_requests (s : State) : s.complete.requests = s.requests := rfl
@[simp] theorem State.complete_hostIn (s : State) : s.complete.hostIn = s.hostIn := rfl
@[simp] theorem State.complete_log (s : State) : s.complete.log = s.log := rfl
@[simp] theorem State.complete_freeCtr (s : State) : s.complete.freeCtr = s.freeCtr := rfl

/-! ### `State.hardReset` -/

@[simp] theorem State.hardReset_params (s : State) : s.hardReset.params = s.params := rfl
@[simp] theorem State.hardReset_req (s : State) : s.hardReset.req = 0 := rfl
@[simp] theorem State.hardReset_pins (s : State) : s.hardReset.pins = Pins.reset := rfl
@[simp] theorem State.hardReset_oe (s : State) : s.hardReset.oe = false := rfl
@[simp] theorem State.hardReset_upc (s : State) : s.hardReset.upc = 0 := rfl
@[simp] theorem State.hardReset_busy (s : State) : s.hardReset.busy = false := rfl
@[simp] theorem State.hardReset_hcnt (s : State) : s.hardReset.hcnt = 0 := rfl
@[simp] theorem State.hardReset_holding (s : State) : s.hardReset.holding = false := rfl
@[simp] theorem State.hardReset_stall (s : State) : s.hardReset.stall = 0 := rfl
@[simp] theorem State.hardReset_ill (s : State) : s.hardReset.ill = false := rfl
@[simp] theorem State.hardReset_ctrl (s : State) : s.hardReset.ctrl = .unpowered := rfl
@[simp] theorem State.hardReset_done (s : State) : s.hardReset.done = false := rfl
@[simp] theorem State.hardReset_opb (s : State) : s.hardReset.opb = s.opb := rfl
@[simp] theorem State.hardReset_opbAcc (s : State) : s.hardReset.opbAcc = [] := rfl
@[simp] theorem State.hardReset_rx (s : State) : s.hardReset.rx = Rx.drawn s.freeCtr 0 true := rfl
@[simp] theorem State.hardReset_requests (s : State) : s.hardReset.requests = s.requests := rfl
@[simp] theorem State.hardReset_hostIn (s : State) : s.hardReset.hostIn = s.hostIn := rfl
@[simp] theorem State.hardReset_log (s : State) : s.hardReset.log = s.log := rfl
@[simp] theorem State.hardReset_freeCtr (s : State) : s.hardReset.freeCtr = s.freeCtr + 1 := rfl

/-! ### `State.setIll` -/

@[simp] theorem State.setIll_params (s : State) : s.setIll.params = s.params := rfl
@[simp] theorem State.setIll_req (s : State) : s.setIll.req = s.req := rfl
@[simp] theorem State.setIll_pins (s : State) : s.setIll.pins = s.pins := rfl
@[simp] theorem State.setIll_oe (s : State) : s.setIll.oe = s.oe := rfl
@[simp] theorem State.setIll_upc (s : State) : s.setIll.upc = s.upc := rfl
@[simp] theorem State.setIll_busy (s : State) : s.setIll.busy = s.busy := rfl
@[simp] theorem State.setIll_hcnt (s : State) : s.setIll.hcnt = s.hcnt := rfl
@[simp] theorem State.setIll_holding (s : State) : s.setIll.holding = s.holding := rfl
@[simp] theorem State.setIll_stall (s : State) : s.setIll.stall = s.stall := rfl
@[simp] theorem State.setIll_ill (s : State) : s.setIll.ill = true := rfl
@[simp] theorem State.setIll_ctrl (s : State) : s.setIll.ctrl = s.ctrl := rfl
@[simp] theorem State.setIll_done (s : State) : s.setIll.done = s.done := rfl
@[simp] theorem State.setIll_opb (s : State) : s.setIll.opb = s.opb := rfl
@[simp] theorem State.setIll_opbAcc (s : State) : s.setIll.opbAcc = s.opbAcc := rfl
@[simp] theorem State.setIll_rx (s : State) : s.setIll.rx = s.rx := rfl
@[simp] theorem State.setIll_requests (s : State) : s.setIll.requests = s.requests := rfl
@[simp] theorem State.setIll_hostIn (s : State) : s.setIll.hostIn = s.hostIn := rfl
@[simp] theorem State.setIll_log (s : State) : s.setIll.log = s.log := rfl
@[simp] theorem State.setIll_freeCtr (s : State) : s.setIll.freeCtr = s.freeCtr := rfl

/-! ### `State.advance` -/

@[simp] theorem State.advance_params (s : State) (e : Event) : (s.advance e).params = s.params := rfl
@[simp] theorem State.advance_req (s : State) (e : Event) : (s.advance e).req = s.req := rfl
@[simp] theorem State.advance_pins (s : State) (e : Event) : (s.advance e).pins = s.pins := rfl
@[simp] theorem State.advance_oe (s : State) (e : Event) : (s.advance e).oe = s.oe := rfl
@[simp] theorem State.advance_upc (s : State) (e : Event) : (s.advance e).upc = s.upc + 1 := rfl
@[simp] theorem State.advance_busy (s : State) (e : Event) : (s.advance e).busy = s.busy := rfl
@[simp] theorem State.advance_hcnt (s : State) (e : Event) : (s.advance e).hcnt = 0 := rfl
@[simp] theorem State.advance_holding (s : State) (e : Event) : (s.advance e).holding = false := rfl
@[simp] theorem State.advance_stall (s : State) (e : Event) : (s.advance e).stall = 0 := rfl
@[simp] theorem State.advance_ill (s : State) (e : Event) : (s.advance e).ill = s.ill := rfl
@[simp] theorem State.advance_ctrl (s : State) (e : Event) : (s.advance e).ctrl = (s.mark (s.upc + 1)).getD s.ctrl := rfl
@[simp] theorem State.advance_done (s : State) (e : Event) : (s.advance e).done = s.done := rfl
@[simp] theorem State.advance_opb (s : State) (e : Event) : (s.advance e).opb = s.opb := rfl
@[simp] theorem State.advance_opbAcc (s : State) (e : Event) : (s.advance e).opbAcc = s.opbAcc := rfl
@[simp] theorem State.advance_rx (s : State) (e : Event) : (s.advance e).rx = s.rx := rfl
@[simp] theorem State.advance_requests (s : State) (e : Event) : (s.advance e).requests = s.requests := rfl
@[simp] theorem State.advance_hostIn (s : State) (e : Event) : (s.advance e).hostIn = s.hostIn := rfl
@[simp] theorem State.advance_log (s : State) (e : Event) : (s.advance e).log = s.log ++ [e] := rfl
@[simp] theorem State.advance_freeCtr (s : State) (e : Event) : (s.advance e).freeCtr = s.freeCtr := rfl

/-! ### `State.startHold` -/

@[simp] theorem State.startHold_params (s : State) (d : Nat) : (s.startHold d).params = s.params := rfl
@[simp] theorem State.startHold_req (s : State) (d : Nat) : (s.startHold d).req = s.req := rfl
@[simp] theorem State.startHold_pins (s : State) (d : Nat) : (s.startHold d).pins = s.pins := rfl
@[simp] theorem State.startHold_oe (s : State) (d : Nat) : (s.startHold d).oe = s.oe := rfl
@[simp] theorem State.startHold_upc (s : State) (d : Nat) : (s.startHold d).upc = s.upc := rfl
@[simp] theorem State.startHold_busy (s : State) (d : Nat) : (s.startHold d).busy = s.busy := rfl
@[simp] theorem State.startHold_hcnt (s : State) (d : Nat) : (s.startHold d).hcnt = holdCycles s.params d := by
  simp only [State.startHold]
@[simp] theorem State.startHold_holding (s : State) (d : Nat) : (s.startHold d).holding = true := rfl
@[simp] theorem State.startHold_stall (s : State) (d : Nat) : (s.startHold d).stall = Config.extraCycles s.freeCtr := rfl
@[simp] theorem State.startHold_ill (s : State) (d : Nat) : (s.startHold d).ill = s.ill := rfl
@[simp] theorem State.startHold_ctrl (s : State) (d : Nat) : (s.startHold d).ctrl = s.ctrl := rfl
@[simp] theorem State.startHold_done (s : State) (d : Nat) : (s.startHold d).done = s.done := rfl
@[simp] theorem State.startHold_opb (s : State) (d : Nat) : (s.startHold d).opb = s.opb := rfl
@[simp] theorem State.startHold_opbAcc (s : State) (d : Nat) : (s.startHold d).opbAcc = s.opbAcc := rfl
@[simp] theorem State.startHold_rx (s : State) (d : Nat) : (s.startHold d).rx = s.rx := rfl
@[simp] theorem State.startHold_requests (s : State) (d : Nat) : (s.startHold d).requests = s.requests := rfl
@[simp] theorem State.startHold_hostIn (s : State) (d : Nat) : (s.startHold d).hostIn = s.hostIn := rfl
@[simp] theorem State.startHold_log (s : State) (d : Nat) : (s.startHold d).log = s.log := rfl
@[simp] theorem State.startHold_freeCtr (s : State) (d : Nat) : (s.startHold d).freeCtr = s.freeCtr + 1 := rfl

/-! ### `State.setPin` -/

@[simp] theorem State.setPin_params (s : State) (p : Pin) (v : Level) : (s.setPin p v).params = s.params := rfl
@[simp] theorem State.setPin_req (s : State) (p : Pin) (v : Level) : (s.setPin p v).req = s.req := rfl
@[simp] theorem State.setPin_pins (s : State) (p : Pin) (v : Level) : (s.setPin p v).pins = s.pins.put p v := rfl
@[simp] theorem State.setPin_oe (s : State) (p : Pin) (v : Level) : (s.setPin p v).oe = s.oe := rfl
@[simp] theorem State.setPin_upc (s : State) (p : Pin) (v : Level) : (s.setPin p v).upc = s.upc + 1 := rfl
@[simp] theorem State.setPin_busy (s : State) (p : Pin) (v : Level) : (s.setPin p v).busy = s.busy := rfl
@[simp] theorem State.setPin_hcnt (s : State) (p : Pin) (v : Level) : (s.setPin p v).hcnt = 0 := rfl
@[simp] theorem State.setPin_holding (s : State) (p : Pin) (v : Level) : (s.setPin p v).holding = false := rfl
@[simp] theorem State.setPin_stall (s : State) (p : Pin) (v : Level) : (s.setPin p v).stall = 0 := rfl
@[simp] theorem State.setPin_ill (s : State) (p : Pin) (v : Level) : (s.setPin p v).ill = s.ill := rfl
@[simp] theorem State.setPin_ctrl (s : State) (p : Pin) (v : Level) : (s.setPin p v).ctrl = (s.mark (s.upc + 1)).getD s.ctrl := rfl
@[simp] theorem State.setPin_done (s : State) (p : Pin) (v : Level) : (s.setPin p v).done = s.done := rfl
@[simp] theorem State.setPin_opb (s : State) (p : Pin) (v : Level) : (s.setPin p v).opb = s.opb := rfl
@[simp] theorem State.setPin_opbAcc (s : State) (p : Pin) (v : Level) : (s.setPin p v).opbAcc = s.opbAcc := rfl
@[simp] theorem State.setPin_rx (s : State) (p : Pin) (v : Level) : (s.setPin p v).rx = s.rx := rfl
@[simp] theorem State.setPin_requests (s : State) (p : Pin) (v : Level) : (s.setPin p v).requests = s.requests := rfl
@[simp] theorem State.setPin_hostIn (s : State) (p : Pin) (v : Level) : (s.setPin p v).hostIn = s.hostIn := rfl
@[simp] theorem State.setPin_log (s : State) (p : Pin) (v : Level) : (s.setPin p v).log = s.log ++ [.set p v] := rfl
@[simp] theorem State.setPin_freeCtr (s : State) (p : Pin) (v : Level) : (s.setPin p v).freeCtr = s.freeCtr := rfl

/-! ### `State.enable` -/

@[simp] theorem State.enable_params (s : State) : s.enable.params = s.params := rfl
@[simp] theorem State.enable_req (s : State) : s.enable.req = s.req := rfl
@[simp] theorem State.enable_pins (s : State) : s.enable.pins = s.pins := rfl
@[simp] theorem State.enable_oe (s : State) : s.enable.oe = true := rfl
@[simp] theorem State.enable_upc (s : State) : s.enable.upc = s.upc + 1 := rfl
@[simp] theorem State.enable_busy (s : State) : s.enable.busy = s.busy := rfl
@[simp] theorem State.enable_hcnt (s : State) : s.enable.hcnt = 0 := rfl
@[simp] theorem State.enable_holding (s : State) : s.enable.holding = false := rfl
@[simp] theorem State.enable_stall (s : State) : s.enable.stall = 0 := rfl
@[simp] theorem State.enable_ill (s : State) : s.enable.ill = s.ill := rfl
@[simp] theorem State.enable_ctrl (s : State) : s.enable.ctrl = (s.mark (s.upc + 1)).getD s.ctrl := rfl
@[simp] theorem State.enable_done (s : State) : s.enable.done = s.done := rfl
@[simp] theorem State.enable_opb (s : State) : s.enable.opb = s.opb := rfl
@[simp] theorem State.enable_opbAcc (s : State) : s.enable.opbAcc = s.opbAcc := rfl
@[simp] theorem State.enable_rx (s : State) : s.enable.rx = s.rx := rfl
@[simp] theorem State.enable_requests (s : State) : s.enable.requests = s.requests := rfl
@[simp] theorem State.enable_hostIn (s : State) : s.enable.hostIn = s.hostIn := rfl
@[simp] theorem State.enable_log (s : State) : s.enable.log = s.log ++ [.cfg] := rfl
@[simp] theorem State.enable_freeCtr (s : State) : s.enable.freeCtr = s.freeCtr := rfl

/-! ### Acceptance -/

/-- An idle block accepts a request. -/
theorem State.accept_idle {s : State} (w : BitVec 20) (h : s.busy = false) :
    s.accept w = { s with req := w, upc := 0, busy := true, hcnt := 0, holding := false, stall := 0, opbAcc := s.opb } := by
  simp [State.accept, h]

/-- A busy block does not. -/
theorem State.accept_busy {s : State} (w : BitVec 20) (h : s.busy = true) : s.accept w = s := by
  simp [State.accept, h]

/-- A receiver without a defined state takes no frame. -/
theorem State.frame_undef {s : State} (f : State → State) (h : s.rx.undef = true) : s.frame f = s.loseRx := by
  simp [State.frame, h]

theorem State.frame_def {s : State} (f : State → State) (h : s.rx.undef = false) : s.frame f = f s := by
  simp [State.frame, h]

end Sys2Proof.Machine
end

