-- ==== Sys2Proof/Laws/Link.lean ====
section
/-! SUPPORT. The link from pins to receiver on its own: a frame, a sample, an event, as functions of what they depend on (the
output enable, the pins, the receiver, the count of free values drawn), and the machine's operations as those functions. -/

namespace Sys2Proof.Machine

/-- A receiver and the number of free values drawn so far. -/
abbrev RxN := Rx × Nat

/-- `State.loseRx`, on the receiver. -/
def rxLose (n : Nat) : RxN := (Rx.drawn n (Config.rxBitcnt n) true, n + 1)

def rxColumn (p : Params) (x : BitVec 7) (r : Rx) (n : Nat) : RxN :=
  if x.toNat < p.cols then ({ r with x := x }, n) else rxLose n

def rxBand (p : Params) (y : BitVec 3) (r : Rx) (n : Nat) : RxN :=
  if y.toNat < p.bands then ({ r with y := y }, n) else rxLose n

def rxData (p : Params) (b : Byte) (r : Rx) (n : Nat) : RxN :=
  if r.addressed p then
    ({ r with
        ddram := r.ddram.write (r.cell p) b
        x := (r.nextAddress p n).1
        y := (r.nextAddress p n).2 }, n + 1)
  else rxLose n

/-- A frame in a receiver with a defined state. -/
def rxExec (p : Params) (i : Instr) (r : Rx) (n : Nat) : RxN :=
  match i with
  | .fsetExt => ({ r with h := .extended }, n)
  | .fsetBasic => ({ r with h := .basic, addrMode := .horizontal }, n)
  | .setx x => match r.h with
    | .basic => rxColumn p x r n
    | .extended => ({ r with vop := x }, n)
  | .sety y => match r.h with
    | .basic => rxBand p y r n
    | .extended => rxLose n
  | .dispNormal => match r.h with
    | .basic => ({ r with display := .normal }, n)
    | .extended => (r, n)
  | .dispInverse => match r.h with
    | .basic => ({ r with display := .inverse }, n)
    | .extended => (r, n)
  | .setvop v => match r.h with
    | .basic => rxColumn p v r n
    | .extended => ({ r with vop := v }, n)
  | .vopZero => match r.h with
    | .basic => rxLose n
    | .extended => ({ r with vop := 0 }, n)
  | .settc => match r.h with
    | .basic => rxLose n
    | .extended => ({ r with tc := 0x04 }, n)
  | .setbias => match r.h with
    | .basic => rxLose n
    | .extended => ({ r with bias := 0x14 }, n)
  | .data d => rxData p d r n
  | .txb _ _ => (r, n)
  | .wrb _ _ => (r, n)
  | .init => (r, n)
  | .contrast _ => (r, n)
  | .goto _ _ => (r, n)
  | .clear => (r, n)
  | .image => (r, n)
  | .char _ => (r, n)
  | .text _ => (r, n)
  | .pad _ => (r, n)
  | .border => (r, n)

/-- The instruction is a frame. -/
def isFrame (i : Instr) : Bool :=
  match encode i with
  | .request _ => false
  | .frame _ => true

/-- The receiver of a state and its count of free values, replaced. -/
def State.withRx (s : State) (q : RxN) : State := { s with rx := q.1, freeCtr := q.2 }

/-- A frame changes the receiver and the count of free values, nothing else, and depends on nothing else but the parameters. -/
theorem exec_frame {i : Instr} (hi : isFrame i = true) (s : State) :
    exec i s = .next (s.withRx (if s.rx.undef then rxLose s.freeCtr else rxExec s.params i s.rx s.freeCtr)) := by
  by_cases hu : s.rx.undef = true
  · cases i <;> first | (simp [isFrame, encode] at hi; done) |
      simp [exec, execFsetExt, execFsetBasic, execSetx, execSety, execDispNormal, execDispInverse, execSetvop, execVopZero,
        execSettc, execSetbias, execData, State.frame, hu, State.withRx, rxLose, State.loseRx]
  · cases i <;> first | (simp [isFrame, encode] at hi; done) |
      (simp only [exec, execFsetExt, execFsetBasic, execSetx, execSety, execDispNormal, execDispInverse, execSetvop, execVopZero,
        execSettc, execSetbias, execData, State.frame, hu, State.withRx, rxExec, if_false, Bool.false_eq_true]
       try cases hh : s.rx.h
       all_goals simp only [State.setRx, State.setColumn, State.setBand, State.setVoltage, State.dataByte, rxColumn, rxBand, rxData,
         State.loseRx, rxLose]
       all_goals try split
       all_goals first | rfl | simp_all)

/-- What decoding a frame gives is a frame. -/
theorem decodeFrame_isFrame {h : InstrSet} {m : Mode} {b : Byte} {i : Instr} (hd : decodeFrame h m b = .ok i) :
    isFrame i = true := by
  cases m with
  | data => simp only [decodeFrame, Except.ok.injEq] at hd; subst hd; rfl
  | command =>
    simp only [decodeFrame, decodeCommand] at hd
    cases h <;> simp only at hd <;> (repeat' split at hd) <;>
      first | (cases hd; rfl) | cases hd

/-- A completed frame in a receiver with a defined state: executed by its rule, or the receiver's state lost (R142, R154). -/
def rxTake (p : Params) (m : Mode) (b : Byte) (r : Rx) (n : Nat) : RxN :=
  match decodeFrame r.h m b with
  | .ok i => rxExec p i r n
  | .error _ => rxLose n

def pinMode (p : Params) (q : Pins) : Mode := if q.dc = p.dcCmdLevel then .command else .data

/-- One bit shifted in (R140). -/
def shiftIn (sr : Byte) (v : Level) : Byte := sr.extractLsb' 0 7 ++ BitVec.ofBool v

/-- `sampleBit`, on the receiver; `k` says that the frame belongs to a GOTO to no cell. -/
def rxSample (p : Params) (k : Bool) (q : Pins) (r : Rx) (n : Nat) : RxN :=
  if r.bitcnt = 7 then
    if k then rxLose n
    else rxTake p (pinMode p q) (shiftIn r.sr q.din) { r with sr := shiftIn r.sr q.din, bitcnt := 0 } n
  else ({ r with sr := shiftIn r.sr q.din, bitcnt := r.bitcnt + 1 }, n)

/-- `deliver`, on the receiver; `q` are the pins after the write. -/
def rxDeliver (p : Params) (k oe : Bool) (q : Pins) (pin : Pin) (old v : Level) (r : Rx) (n : Nat) : RxN :=
  if oe = false then (r, n)
  else if pin = .rst ∧ v = false then (Rx.drawn n 0 false, n + 1)
  else if r.undef then rxLose n
  else if pin = .cs ∧ v = true then ({ r with bitcnt := 0 }, n)
  else if pin = .clk ∧ v = true ∧ old = false ∧ q.rst = true ∧ q.cs = false then rxSample p k q r n
  else (r, n)

theorem sampleBit_eq (s : State) (hu : s.rx.undef = false) :
    sampleBit s = .next (s.withRx (rxSample s.params (gotoStrays s.params s.req) s.pins s.rx s.freeCtr)) := by
  unfold sampleBit rxSample
  split
  · split
    · rfl
    simp only [rxTake, State.shifted, State.frameMode, pinMode, shiftIn]
    cases hd : decodeFrame s.rx.h (if s.pins.dc = s.params.dcCmdLevel then Mode.command else Mode.data)
        (s.rx.sr.extractLsb' 0 7 ++ BitVec.ofBool s.pins.din) with
    | ok i =>
      simp only [exec_frame (decodeFrame_isFrame hd)]
      simp [State.setRx, hu, State.withRx]
    | error r => rfl
  · rfl

theorem deliver_eq (pin : Pin) (old v : Level) (s : State) :
    deliver pin old v s = .next (s.withRx (rxDeliver s.params (gotoStrays s.params s.req) s.oe s.pins pin old v s.rx s.freeCtr)) := by
  unfold deliver rxDeliver
  split
  · rfl
  · split
    · rfl
    · split
      · rfl
      · next hu =>
        split
        · rfl
        · split
          · exact sampleBit_eq s (by simpa using hu)
          · rfl

/-! ### The link as a machine of its own -/

/-- Everything the receiver's reaction to an event depends on, and all that it changes. -/
structure Link where
  oe : Bool
  pins : Pins
  rx : Rx
  n : Nat
  /-- The operation in progress is a GOTO to no cell: no event changes it. -/
  stray : Bool

/-- The link under the operation of the request word `w`. -/
def State.linkOf (w : BitVec 20) (s : State) : Link := ⟨s.oe, s.pins, s.rx, s.freeCtr, gotoStrays s.params w⟩

def State.link (s : State) : Link := s.linkOf s.req

/-- One whole event, seen from the link. -/
def Link.event (p : Params) (e : Event) (l : Link) : Link :=
  match e with
  | .hold _ => { l with n := l.n + 1 }
  | .cfg => { l with oe := true }
  | .set q v =>
    { l with
      pins := l.pins.put q v
      rx := (rxDeliver p l.stray l.oe (l.pins.put q v) q (l.pins.get q) v l.rx l.n).1
      n := (rxDeliver p l.stray l.oe (l.pins.put q v) q (l.pins.get q) v l.rx l.n).2 }

/-- A trace, seen from the link. -/
def Link.run (p : Params) (L : List Event) (l : Link) : Link := L.foldl (fun l e => l.event p e) l

@[simp] theorem Link.run_nil (p : Params) (l : Link) : l.run p [] = l := rfl
@[simp] theorem Link.run_cons (p : Params) (e : Event) (L : List Event) (l : Link) :
    l.run p (e :: L) = (l.event p e).run p L := rfl
theorem Link.run_append (p : Params) (A B : List Event) (l : Link) : l.run p (A ++ B) = (l.run p A).run p B := by
  simp [Link.run, List.foldl_append]

theorem Link.run_stray (p : Params) (L : List Event) (l : Link) : (l.run p L).stray = l.stray := by
  induction L generalizing l with
  | nil => rfl
  | cons e L ih => rw [Link.run_cons, ih]; cases e <;> rfl

/-- Nothing reaches a receiver while OE = 0 and the outputs are not enabled (R141). -/
theorem Link.run_undriven (p : Params) (L : List Event) (l : Link) (h : l.oe = false) (hL : Event.cfg ∉ L) :
    (l.run p L).rx = l.rx ∧ (l.run p L).oe = false := by
  induction L generalizing l with
  | nil => exact ⟨rfl, h⟩
  | cons e L ih =>
    have hne : e ≠ .cfg := by rintro rfl; simp at hL
    have hL' : Event.cfg ∉ L := fun hc => hL (by simp [hc])
    rw [Link.run_cons]
    cases e with
    | hold d => exact ih _ h hL'
    | cfg => exact absurd rfl hne
    | set q v =>
      have := ih (l.event p (.set q v)) h hL'
      simpa [Link.event, rxDeliver, h] using this

/-- One bit of a frame that is not the eighth (R140). -/
theorem Link.run_bit (p : Params) (v : Level) (l : Link) (hoe : l.oe = true) (hr : l.pins.rst = true) (hc : l.pins.cs = false)
    (hk : l.pins.clk = false) (hu : l.rx.undef = false) (hb : l.rx.bitcnt ≠ 7#3) :
    l.run p (bitTrace p v) =
      { l with
        pins := { l.pins with din := v, clk := false }
        rx := { l.rx with sr := shiftIn l.rx.sr v, bitcnt := l.rx.bitcnt + 1 }
        n := l.n + 3 } := by
  simp [bitTrace, Link.event, rxDeliver, rxSample, hoe, hr, hc, hk, hu, hb, Pins.put]

/-- What the receiver makes of a completed frame: its state lost under a GOTO to no cell, else what the frame does (R142, R108). -/
def rxTaken (p : Params) (k : Bool) (m : Mode) (b : Byte) (r : Rx) (n : Nat) : RxN :=
  if k then rxLose n else rxTake p m b r n

/-- The eighth bit of a frame, up to its rising clock edge (R142). -/
theorem Link.run_edge8 (p : Params) (v : Level) (l : Link) (hoe : l.oe = true) (hr : l.pins.rst = true) (hc : l.pins.cs = false)
    (hk : l.pins.clk = false) (hu : l.rx.undef = false) (hb : l.rx.bitcnt = 7#3) (q : RxN)
    (hq : rxTaken p l.stray (pinMode p l.pins) (shiftIn l.rx.sr v)
      { l.rx with sr := shiftIn l.rx.sr v, bitcnt := 0#3 } (l.n + 1 + 1) = q) :
    l.run p [.hold p.tUs, .set .clk false, .set .din v, .hold p.tUs, .set .clk true] =
      { l with pins := { l.pins with din := v, clk := true }, rx := q.1, n := q.2 } := by
  obtain ⟨oe, ⟨rst, cs, dc, din, clk, aux⟩, ⟨h, am, d, vop, tc, bias, x, y, sr, bc, dd, u⟩, n, k⟩ := l
  simp only at hoe hr hc hk hu hb hq
  subst hoe hr hc hk hu hb hq
  simp only [pinMode]
  simp [Link.event, rxDeliver, rxSample, rxTaken, Pins.put, pinMode]
  exact ⟨rfl, rfl⟩

theorem shiftIn_toNat (x : Byte) (v : Bool) : (shiftIn x v).toNat = x.toNat % 128 * 2 + v.toNat := by
  have h : (shiftIn x v).toNat = (x.extractLsb' 0 7).toNat <<< 1 ||| (BitVec.ofBool v).toNat := rfl
  rw [h, ← Nat.shiftLeft_add_eq_or_of_lt (BitVec.ofBool v).isLt, Nat.shiftLeft_eq]
  simp [BitVec.extractLsb'_toNat]

theorem getLsbD_shiftIn (x : Byte) (v : Bool) (j : Nat) :
    (shiftIn x v).getLsbD j = if j = 0 then v else if j < 8 then x.getLsbD (j - 1) else false := by
  have hx := shiftIn_toNat x v
  cases j with
  | zero => rw [BitVec.getLsbD, hx]; cases v <;> simp
  | succ k =>
    have h : (x.toNat % 128 * 2 + v.toNat) / 2 = x.toNat % 2 ^ 7 := by cases v <;> simp <;> omega
    rw [BitVec.getLsbD, hx, Nat.testBit_succ, h, Nat.testBit_mod_two_pow]
    have h8 : k + 1 < 8 ↔ k < 7 := by omega
    by_cases hk : k < 7 <;> simp [h8, hk, BitVec.getLsbD]

/-- Eight bits shifted in, most significant first, are the byte (R45, R140). -/
theorem shiftIn_byte (sr b : Byte) :
    shiftIn (shiftIn (shiftIn (shiftIn (shiftIn (shiftIn (shiftIn (shiftIn sr (b.getLsbD 7)) (b.getLsbD 6)) (b.getLsbD 5))
      (b.getLsbD 4)) (b.getLsbD 3)) (b.getLsbD 2)) (b.getLsbD 1)) (b.getLsbD 0) = b := by
  apply BitVec.eq_of_getLsbD_eq
  intro i hi
  interval_cases i <;> simp only [getLsbD_shiftIn] <;> rfl

/-- A frame up to its eighth rising clock edge, and after it. -/
def wrbHead (p : Params) (m : Mode) (b : Byte) : List Event :=
  [.set .dc (lvl p m), .set .cs false] ++
    (bitTrace p (b.getLsbD 7) ++ (bitTrace p (b.getLsbD 6) ++ (bitTrace p (b.getLsbD 5) ++ (bitTrace p (b.getLsbD 4) ++
    (bitTrace p (b.getLsbD 3) ++ (bitTrace p (b.getLsbD 2) ++ (bitTrace p (b.getLsbD 1) ++
    [.hold p.tUs, .set .clk false, .set .din (b.getLsbD 0), .hold p.tUs, .set .clk true])))))))

def wrbTail (p : Params) : List Event :=
  [.hold p.tUs, .set .clk false, .hold (p.tailT * p.tUs), .set .cs true, .hold p.tUs]

theorem wrbTrace_split (p : Params) (m : Mode) (b : Byte) : wrbTrace p m b = wrbHead p m b ++ wrbTail p := by
  simp [wrbTrace, txbTrace, bitOrder, bitTrace, wrbHead, wrbTail]

/-- At its eighth rising clock edge a frame is taken (R90, R140 to R142). -/
theorem Link.run_wrbHead (p : Params) (m : Mode) (b : Byte) (l : Link) (hoe : l.oe = true) (hr : l.pins.rst = true)
    (hk : l.pins.clk = false) (hu : l.rx.undef = false) (hb : l.rx.bitcnt = 0#3) (q : RxN)
    (hq : rxTaken p l.stray m b { l.rx with sr := b, bitcnt := 0 } (l.n + 23) = q) :
    l.run p (wrbHead p m b) =
      { l with pins := { l.pins with dc := lvl p m, cs := false, din := b.getLsbD 0, clk := true }, rx := q.1, n := q.2 } := by
  have hm : ∀ q' : Pins, q'.dc = lvl p m → pinMode p q' = m := by
    intro q' h
    unfold pinMode lvl at *
    cases m <;> simp [h]
  obtain ⟨oe, pins, r, n, k⟩ := l
  simp only at hoe hr hk hu hb hq
  subst hoe
  have start : Link.run p [.set .dc (lvl p m), .set .cs false] ⟨true, pins, r, n, k⟩ =
      ⟨true, { pins with dc := lvl p m, cs := false }, r, n, k⟩ := by
    simp [Link.event, rxDeliver, hu, Pins.put]
  rw [wrbHead]
  simp only [Link.run_append, start]
  rw [Link.run_bit p (b.getLsbD 7) ⟨true, { pins with dc := lvl p m, cs := false }, r, n, k⟩ rfl hr rfl hk hu (by simp [hb])]
  rw [Link.run_bit p (b.getLsbD 6) _ rfl hr rfl rfl hu (by simp [hb])]
  rw [Link.run_bit p (b.getLsbD 5) _ rfl hr rfl rfl hu (by simp [hb])]
  rw [Link.run_bit p (b.getLsbD 4) _ rfl hr rfl rfl hu (by simp [hb])]
  rw [Link.run_bit p (b.getLsbD 3) _ rfl hr rfl rfl hu (by simp [hb])]
  rw [Link.run_bit p (b.getLsbD 2) _ rfl hr rfl rfl hu (by simp [hb])]
  rw [Link.run_bit p (b.getLsbD 1) _ rfl hr rfl rfl hu (by simp [hb])]
  rw [Link.run_edge8 p (b.getLsbD 0) _ rfl hr rfl rfl hu (by simp [hb]) q
    (by simp only [shiftIn_byte]; rw [hm _ rfl]; exact hq)]

/-- A frame is delivered: the receiver has taken it, the pins are as R92 says. -/
theorem Link.run_wrb (p : Params) (m : Mode) (b : Byte) (l : Link) (hoe : l.oe = true) (hr : l.pins.rst = true)
    (hk : l.pins.clk = false) (hu : l.rx.undef = false) (hb : l.rx.bitcnt = 0#3) (q : RxN)
    (hq : rxTaken p l.stray m b { l.rx with sr := b, bitcnt := 0 } (l.n + 23) = q) (hqu : q.1.undef = false) :
    l.run p (wrbTrace p m b) =
      { l with
        pins := { l.pins with dc := lvl p m, cs := true, din := b.getLsbD 0, clk := false }
        rx := { q.1 with bitcnt := 0 }
        n := q.2 + 3 } := by
  rw [wrbTrace_split, Link.run_append, Link.run_wrbHead p m b l hoe hr hk hu hb q hq]
  obtain ⟨oe, pins, r, n, k⟩ := l
  obtain rfl : oe = true := hoe
  simp [wrbTail, Link.event, rxDeliver, hqu, Pins.put]

end Sys2Proof.Machine
end

