-- ==== Sys2Proof/Laws/Trace.lean ====
section
/-! SUPPORT. What can be read off the traces: how the readings of Safety.lean split over concatenation, and their values on one
frame. -/

namespace Sys2Proof.Machine

/-! ### Concatenation -/

theorem lastLevel_append (p : Pin) (v : Level) (A B : List Event) :
    lastLevel p v (A ++ B) = lastLevel p (lastLevel p v A) B := by
  induction A generalizing v with
  | nil => rfl
  | cons e A ih => cases e <;> simp [lastLevel, ih]

theorem lastLevel_snoc_set (p q : Pin) (v w : Level) (A : List Event) :
    lastLevel p v (A ++ [.set q w]) = if q = p then w else lastLevel p v A := by
  rw [lastLevel_append]; rfl

theorem lastLevel_snoc_hold (p : Pin) (v : Level) (d : Nat) (A : List Event) :
    lastLevel p v (A ++ [.hold d]) = lastLevel p v A := by
  rw [lastLevel_append]; rfl

theorem lastLevel_snoc_cfg (p : Pin) (v : Level) (A : List Event) :
    lastLevel p v (A ++ [.cfg]) = lastLevel p v A := by
  rw [lastLevel_append]; rfl

/-- Pieces that leave a level alone leave it alone together. -/
theorem lastLevel_flatMap {α : Type} (p : Pin) (v : Level) (f : α → List Event) (l : List α)
    (h : ∀ x ∈ l, lastLevel p v (f x) = v) : lastLevel p v (l.flatMap f) = v := by
  induction l with
  | nil => rfl
  | cons x l ih =>
    rw [List.flatMap_cons, lastLevel_append, h x (by simp), ih fun y hy => h y (by simp [hy])]

theorem setCount_append (A B : List Event) : setCount (A ++ B) = setCount A + setCount B := by
  induction A with
  | nil => simp [setCount]
  | cons e A ih => cases e <;> simp [setCount, ih] <;> omega

theorem holdCount_append (A B : List Event) : holdCount (A ++ B) = holdCount A + holdCount B := by
  induction A with
  | nil => simp [holdCount]
  | cons e A ih => cases e <;> simp [holdCount, ih] <;> omega

theorem holdSum_append (A B : List Event) : holdSum (A ++ B) = holdSum A + holdSum B := by
  induction A with
  | nil => simp [holdSum]
  | cons e A ih => cases e <;> simp [holdSum, ih] <;> omega

theorem pinEvents_append (A B : List Event) : pinEvents (A ++ B) = pinEvents A ++ pinEvents B := by
  induction A with
  | nil => rfl
  | cons e A ih => cases e <;> simp [pinEvents, ih]

/-- An additive measure over pieces of equal measure. -/
theorem measure_flatMap {α : Type} (μ : List Event → Nat) (h0 : μ [] = 0)
    (hμ : ∀ A B, μ (A ++ B) = μ A + μ B) (f : α → List Event) (l : List α) (n : Nat) (h : ∀ x ∈ l, μ (f x) = n) :
    μ (l.flatMap f) = l.length * n := by
  induction l with
  | nil => simp [h0]
  | cons x l ih =>
    rw [List.flatMap_cons, hμ, h x (by simp), ih fun y hy => h y (by simp [hy]), List.length_cons, Nat.succ_mul]
    omega

/-- The bracket automaton splits where the first part leaves no bracket open. -/
theorem bracketed_append {A B : List Event} {b : Option Nat} (hA : bracketed b A = true) :
    bracketed b (A ++ B) = bracketed none B := by
  induction A generalizing b with
  | nil => cases b <;> simp_all [bracketed]
  | cons e A ih =>
    rcases e with ⟨p, v⟩ | d | _
    · cases p <;> cases v <;> cases b <;> simp_all [bracketed]
    · cases b <;> simp_all [bracketed]
    · cases b <;> simp_all [bracketed]

theorem bracketed_flatMap {α : Type} (f : α → List Event) (l : List α) (h : ∀ x ∈ l, bracketed none (f x) = true) :
    bracketed none (l.flatMap f) = true := by
  induction l with
  | nil => rfl
  | cons x l ih =>
    rw [List.flatMap_cons, bracketed_append (h x (by simp))]
    exact ih fun y hy => h y (by simp [hy])

/-! ### One byte, one frame -/

section Frame
variable (p : Params) (m : Mode) (b : Byte) (o : Bool)

theorem txbTrace_length : (txbTrace p b o).length = 57 := by cases o <;> rfl
theorem wrbTrace_length : (wrbTrace p m b).length = 61 := rfl
@[simp] theorem cmdTrace_length : (cmdTrace p b).length = 61 := rfl
@[simp] theorem datTrace_length : (datTrace p b).length = 61 := rfl

theorem txbTrace_setCount : setCount (txbTrace p b o) = 32 := by cases o <;> rfl
theorem txbTrace_holdCount : holdCount (txbTrace p b o) = 25 := by cases o <;> rfl
theorem wrbTrace_setCount : setCount (wrbTrace p m b) = 35 := rfl
theorem wrbTrace_holdCount : holdCount (wrbTrace p m b) = 26 := rfl

theorem txbTrace_holdSum : holdSum (txbTrace p b o) = 24 * p.tUs + p.tailT * p.tUs := by
  cases o <;> simp [txbTrace, bitOrder, bitTrace, holdSum] <;> omega

theorem wrbTrace_holdSum : holdSum (wrbTrace p m b) = 25 * p.tUs + p.tailT * p.tUs := by
  simp [wrbTrace, txbTrace, bitOrder, bitTrace, holdSum]; omega

theorem txbTrace_clk (v : Level) : lastLevel .clk v (txbTrace p b o) = false := by
  cases o <;> simp [txbTrace, bitOrder, bitTrace, lastLevel]
theorem txbTrace_din (v : Level) : lastLevel .din v (txbTrace p b o) = b.getLsbD (if o then 0 else 7) := by
  cases o <;> simp [txbTrace, bitOrder, bitTrace, lastLevel]
theorem txbTrace_cs (v : Level) : lastLevel .cs v (txbTrace p b o) = v := by
  cases o <;> simp [txbTrace, bitOrder, bitTrace, lastLevel]
theorem txbTrace_dc (v : Level) : lastLevel .dc v (txbTrace p b o) = v := by
  cases o <;> simp [txbTrace, bitOrder, bitTrace, lastLevel]
theorem txbTrace_rst (v : Level) : lastLevel .rst v (txbTrace p b o) = v := by
  cases o <;> simp [txbTrace, bitOrder, bitTrace, lastLevel]
theorem txbTrace_aux (v : Level) : lastLevel .aux v (txbTrace p b o) = v := by
  cases o <;> simp [txbTrace, bitOrder, bitTrace, lastLevel]

theorem wrbTrace_clk (v : Level) : lastLevel .clk v (wrbTrace p m b) = false := by
  simp [wrbTrace, txbTrace, bitOrder, bitTrace, lastLevel]
theorem wrbTrace_din (v : Level) : lastLevel .din v (wrbTrace p m b) = b.getLsbD 0 := by
  simp [wrbTrace, txbTrace, bitOrder, bitTrace, lastLevel]
theorem wrbTrace_cs (v : Level) : lastLevel .cs v (wrbTrace p m b) = true := by
  simp [wrbTrace, txbTrace, bitOrder, bitTrace, lastLevel]
theorem wrbTrace_dc (v : Level) : lastLevel .dc v (wrbTrace p m b) = lvl p m := by
  simp [wrbTrace, txbTrace, bitOrder, bitTrace, lastLevel]
theorem wrbTrace_rst (v : Level) : lastLevel .rst v (wrbTrace p m b) = v := by
  simp [wrbTrace, txbTrace, bitOrder, bitTrace, lastLevel]
theorem wrbTrace_aux (v : Level) : lastLevel .aux v (wrbTrace p m b) = v := by
  simp [wrbTrace, txbTrace, bitOrder, bitTrace, lastLevel]

theorem wrbTrace_bracketed : bracketed none (wrbTrace p m b) = true := by
  simp [wrbTrace, txbTrace, bitOrder, bitTrace, bracketed]

end Frame

/-! ### Every trace is a concatenation of frames (R14), but for TXB and for INIT's head -/

/-- A property of traces that the empty trace has, that one frame has, and that passes to concatenations, is a property of every
trace built from frames. -/
structure FrameClosed (p : Params) (P : List Event → Prop) : Prop where
  nil : P []
  append : ∀ A B, P A → P B → P (A ++ B)
  frame : ∀ m b, P (wrbTrace p m b)

theorem FrameClosed.flatMap {p : Params} {P : List Event → Prop} (h : FrameClosed p P) {α : Type} (f : α → List Event)
    (l : List α) (hf : ∀ x ∈ l, P (f x)) : P (l.flatMap f) := by
  induction l with
  | nil => exact h.nil
  | cons x l ih =>
    rw [List.flatMap_cons]
    exact h.append _ _ (hf x (by simp)) (ih fun y hy => hf y (by simp [hy]))

theorem FrameClosed.goto {p : Params} {P : List Event → Prop} (h : FrameClosed p P) (x y : Byte) : P (gotoTrace p x y) :=
  h.append _ _ (h.frame _ _) (h.frame _ _)

theorem FrameClosed.contrast {p : Params} {P : List Event → Prop} (h : FrameClosed p P) (l : Byte) : P (contrastTrace p l) :=
  h.append _ _ (h.append _ _ (h.frame _ _) (h.frame _ _)) (h.frame _ _)

theorem FrameClosed.clear {p : Params} {P : List Event → Prop} (h : FrameClosed p P) : P (clearTrace p) :=
  h.append _ _ (h.goto 0 0) (h.flatMap _ _ fun _ _ => h.frame _ _)

theorem FrameClosed.image {p : Params} {P : List Event → Prop} (h : FrameClosed p P) (opb : Memory) : P (imageTrace p opb) :=
  h.append _ _ (h.goto 0 0) (h.flatMap _ _ fun _ _ => h.frame _ _)

theorem FrameClosed.char {p : Params} {P : List Event → Prop} (h : FrameClosed p P) (ch : Byte) : P (charTrace p ch) := by
  unfold charTrace
  split
  · exact h.nil
  · exact h.append _ _ (h.append _ _ (h.frame _ _) (h.flatMap _ _ fun _ _ => h.frame _ _)) (h.frame _ _)

theorem FrameClosed.text {p : Params} {P : List Event → Prop} (h : FrameClosed p P) (opb : Memory) (n : Nat) :
    P (textTrace p opb n) := h.flatMap _ _ fun _ _ => h.char _

theorem FrameClosed.pad {p : Params} {P : List Event → Prop} (h : FrameClosed p P) (n : Nat) : P (padTrace p n) :=
  h.flatMap _ _ fun _ _ => h.char _

theorem FrameClosed.border {p : Params} {P : List Event → Prop} (h : FrameClosed p P) : P (borderTrace p) := by
  have pair : ∀ x y b, P (borderPair p x y b) := fun x y b => h.append _ _ (h.goto _ _) (h.frame _ _)
  exact h.append _ _ (h.append _ _ (h.append _ _ (h.flatMap _ _ fun _ _ => pair _ _ _) (h.flatMap _ _ fun _ _ => pair _ _ _))
    (h.flatMap _ _ fun _ _ => pair _ _ _)) (h.flatMap _ _ fun _ _ => pair _ _ _)

theorem FrameClosed.toNormal {p : Params} {P : List Event → Prop} (h : FrameClosed p P) : P (initToNormal p) :=
  h.append _ _ (h.append _ _ (h.append _ _ (h.append _ _ (h.frame _ _) (h.frame _ _)) (h.frame _ _)) (h.frame _ _)) (h.frame _ _)

/-- Every operation's trace but TXB's and INIT's. -/
theorem FrameClosed.op {p : Params} {P : List Event → Prop} (h : FrameClosed p P) (opb : Memory) (i : Instr)
    (hi : i ≠ .init) (ht : ∀ b m, i ≠ .txb b m) : P (opTrace p opb i) := by
  cases i with
  | txb b m => exact absurd rfl (ht b m)
  | init => exact absurd rfl hi
  | wrb m b => exact h.frame m b
  | contrast l => exact h.contrast l
  | goto x y => exact h.goto x y
  | clear => exact h.clear
  | image => exact h.image opb
  | char ch => exact h.char ch
  | text n => exact h.text opb _
  | pad n => exact h.pad _
  | border => exact h.border
  | fsetExt => exact h.nil
  | fsetBasic => exact h.nil
  | setx x => exact h.nil
  | sety y => exact h.nil
  | dispNormal => exact h.nil
  | dispInverse => exact h.nil
  | setvop v => exact h.nil
  | vopZero => exact h.nil
  | settc => exact h.nil
  | setbias => exact h.nil
  | data d => exact h.nil

/-- Where INIT stands after its head: its remaining events are frames and holds. -/
theorem initTrace_split (p : Params) :
    initTrace p = (initStep1 p ++ initPulse p) ++
      (cmdTrace p 0x21 ++ initToNormal p ++ cmdTrace p (dispCtl p) ++ [.hold p.tSettleUs] ++ clearTrace p) := by
  simp [initTrace, initToExtended, List.append_assoc]

/-- The lines a level of which every frame restores: after an operation they are as in idle (R33, R201). -/
theorem frameClosed_idle (p : Params) :
    FrameClosed p (fun L => lastLevel .clk false L = false ∧ lastLevel .cs true L = true ∧
      lastLevel .rst true L = true ∧ lastLevel .aux true L = true) where
  nil := by simp [lastLevel]
  append A B hA hB := by simp [lastLevel_append, hA, hB]
  frame m b := by simp [wrbTrace_clk, wrbTrace_cs, wrbTrace_rst, wrbTrace_aux]

/-- The same of INIT's head. -/
theorem initHead_idle (p : Params) :
    lastLevel .clk false (initStep1 p ++ initPulse p) = false ∧ lastLevel .cs true (initStep1 p ++ initPulse p) = true ∧
      lastLevel .rst true (initStep1 p ++ initPulse p) = true ∧ lastLevel .aux true (initStep1 p ++ initPulse p) = true := by
  cases h : p.hasAux <;> simp [initStep1, initPulse, h, lastLevel]

end Sys2Proof.Machine
end

