-- ==== Sys2Proof/Laws/Run.lean ====
section
/-! SUPPORT. Running an operation: whole events as functions of the state, and what the steps of the machine come to. -/

namespace Sys2Proof.Machine

/-! ### Reaching -/

theorem Reaches.refl (s : State) : Reaches s s := ⟨0, rfl⟩

theorem Reaches.head {s t u : State} (h : step s = .next t) (ht : Reaches t u) : Reaches s u := by
  obtain ⟨n, hn⟩ := ht
  exact ⟨n + 1, by simp only [stepN, h, hn]⟩

theorem Reaches.one {s t : State} (h : step s = .next t) : Reaches s t := .head h (.refl t)

theorem Reaches.trans {s t u : State} (hs : Reaches s t) (ht : Reaches t u) : Reaches s u := by
  obtain ⟨n, hn⟩ := hs
  induction n generalizing s with
  | zero => cases hn; exact ht
  | succ n ih =>
    simp only [stepN] at hn
    split at hn
    · next v hv => exact .head hv (ih hn)
    · cases hn
    · cases hn

/-- Steps one after another. -/
theorem stepN_add {j : Nat} {s t : State} (h : stepN j s = .next t) (d : Nat) : stepN (j + d) s = stepN d t := by
  induction j generalizing s with
  | zero => cases h; rw [Nat.zero_add]
  | succ j ih =>
    rw [Nat.succ_add]
    simp only [stepN] at h ⊢
    split at h
    · exact ih h
    · cases h
    · cases h

/-- The trace depends on the parameters, the operand bytes and REQ alone (R14, R15). -/
theorem State.trace_congr {s t : State} (hp : t.params = s.params) (ho : t.opbAcc = s.opbAcc) (hr : t.req = s.req) :
    t.trace = s.trace := by
  simp only [State.trace, hp, ho, hr]

/-! ### One step of a busy block the host leaves alone -/

theorem step_quiet {s : State} (hq : s.hostIn = []) : step s = blockStep { s with done := false } := by
  simp [step, machineStep, hq]

theorem blockStep_event {s : State} {e : Event} (hb : s.busy = true) (he : s.trace[s.upc]? = some e) :
    blockStep s = eventStep e s := by
  simp [blockStep, hb, he]

theorem blockStep_end {s : State} (hb : s.busy = true) (he : s.upc = s.trace.length) :
    blockStep s = .next s.complete := by
  simp [blockStep, hb, he]

/-! ### One whole event -/

/-- The link part of a state replaced. -/
def State.setLink (l : Link) (s : State) : State := { s with oe := l.oe, pins := l.pins, rx := l.rx, freeCtr := l.n }

/-- A whole event, its hold waited out. -/
def State.perform (e : Event) (s : State) : State :=
  ({ s with done := false }.advance e).setLink (s.link.event s.params e)

theorem State.perform_link (e : Event) (s : State) : (s.perform e).link = s.link.event s.params e := by cases e <;> rfl

theorem countdown {s : State} {d : Nat} (hb : s.busy = true) (hq : s.hostIn = []) (hh : s.holding = true)
    (he : s.trace[s.upc]? = some (.hold d)) : Reaches s ({ s with done := false }.advance (.hold d)) := by
  have key : ∀ k st : Nat, ∀ s : State, s.hcnt = k → s.stall = st → s.busy = true → s.hostIn = [] → s.holding = true →
      s.trace[s.upc]? = some (.hold d) → Reaches s ({ s with done := false }.advance (.hold d)) := by
    intro k
    induction k with
    | zero =>
      intro st
      induction st with
      | zero =>
        intro s hk hst hb hq hh he
        refine .one ?_
        rw [step_quiet hq, blockStep_event (s := { s with done := false }) hb he]
        simp [eventStep, holdStep, hh, hk, hst]
      | succ st ih =>
        intro s hk hst hb hq hh he
        refine .head (t := { s with done := false, stall := st }) ?_ (ih _ hk rfl hb hq hh he)
        rw [step_quiet hq, blockStep_event (s := { s with done := false }) hb he]
        simp [eventStep, holdStep, hh, hk, hst]
    | succ k ih =>
      intro st s hk hst hb hq hh he
      refine .head (t := { s with done := false, hcnt := k }) ?_ (ih st _ rfl hst hb hq hh he)
      rw [step_quiet hq, blockStep_event (s := { s with done := false }) hb he]
      simp [eventStep, holdStep, hh, hk]
  exact key _ _ s rfl rfl hb hq hh he

/-- The event UPC points to is performed: a pin write and `CFG` in one step, a hold when its count has run down. -/
theorem reaches_perform {s : State} {e : Event} (hb : s.busy = true) (hq : s.hostIn = []) (hh : s.holding = false)
    (he : s.trace[s.upc]? = some e) : Reaches s (s.perform e) := by
  cases e with
  | hold d =>
    refine .head (t := { s with done := false }.startHold d) ?_ ?_
    · rw [step_quiet hq, blockStep_event (s := { s with done := false }) hb he]
      simp [eventStep, holdStep, hh]
    · have ht : ({ s with done := false }.startHold d).trace = s.trace := State.trace_congr rfl rfl rfl
      have hc := countdown (s := { s with done := false }.startHold d) (d := d) hb hq rfl (by rw [ht]; exact he)
      exact hc
  | cfg =>
    refine .one ?_
    rw [step_quiet hq, blockStep_event (s := { s with done := false }) hb he]
    rfl
  | set p v =>
    refine .one ?_
    rw [step_quiet hq, blockStep_event (s := { s with done := false }) hb he, eventStep, deliver_eq]
    rfl

/-! ### A run of events -/

/-- Events performed one after another. -/
def State.runAll (L : List Event) (s : State) : State := L.foldl (fun s e => s.perform e) s

@[simp] theorem State.runAll_nil (s : State) : s.runAll [] = s := rfl
@[simp] theorem State.runAll_cons (e : Event) (L : List Event) (s : State) : s.runAll (e :: L) = (s.perform e).runAll L := rfl
theorem State.runAll_append (A B : List Event) (s : State) : s.runAll (A ++ B) = (s.runAll A).runAll B := by
  simp [State.runAll, List.foldl_append]

section Fields
variable (L : List Event) (s : State)

theorem State.runAll_params : (s.runAll L).params = s.params := by
  induction L generalizing s with
  | nil => rfl
  | cons e L ih => exact ih _
theorem State.runAll_req : (s.runAll L).req = s.req := by
  induction L generalizing s with
  | nil => rfl
  | cons e L ih => exact ih _
theorem State.runAll_busy : (s.runAll L).busy = s.busy := by
  induction L generalizing s with
  | nil => rfl
  | cons e L ih => exact ih _
theorem State.runAll_ill : (s.runAll L).ill = s.ill := by
  induction L generalizing s with
  | nil => rfl
  | cons e L ih => exact ih _
theorem State.runAll_opb : (s.runAll L).opb = s.opb := by
  induction L generalizing s with
  | nil => rfl
  | cons e L ih => exact ih _
theorem State.runAll_opbAcc : (s.runAll L).opbAcc = s.opbAcc := by
  induction L generalizing s with
  | nil => rfl
  | cons e L ih => exact ih _
theorem State.runAll_requests : (s.runAll L).requests = s.requests := by
  induction L generalizing s with
  | nil => rfl
  | cons e L ih => exact ih _
theorem State.runAll_hostIn : (s.runAll L).hostIn = s.hostIn := by
  induction L generalizing s with
  | nil => rfl
  | cons e L ih => exact ih _
theorem State.runAll_holding (h : s.holding = false) : (s.runAll L).holding = false := by
  induction L generalizing s with
  | nil => exact h
  | cons e L ih => exact ih _ rfl
theorem State.runAll_upc : (s.runAll L).upc = s.upc + L.length := by
  induction L generalizing s with
  | nil => rfl
  | cons e L ih => rw [State.runAll_cons, ih, List.length_cons]; simp [State.perform, State.setLink]; omega
theorem State.runAll_log : (s.runAll L).log = s.log ++ L := by
  induction L generalizing s with
  | nil => simp
  | cons e L ih => rw [State.runAll_cons, ih]; simp [State.perform, State.setLink]
theorem State.runAll_link : (s.runAll L).link = s.link.run s.params L := by
  induction L generalizing s with
  | nil => rfl
  | cons e L ih => rw [State.runAll_cons, ih, State.perform_link]; rfl
theorem State.runAll_trace : (s.runAll L).trace = s.trace := by
  simp [State.trace, State.runAll_params, State.runAll_req, State.runAll_opbAcc]

end Fields

/-- The events from UPC on are performed. -/
theorem reaches_runAll {s : State} {L R : List Event} (hb : s.busy = true) (hq : s.hostIn = []) (hh : s.holding = false)
    (hL : s.trace.drop s.upc = L ++ R) : Reaches s (s.runAll L) := by
  induction L generalizing s with
  | nil => exact .refl s
  | cons e L ih =>
    have he : s.trace[s.upc]? = some e := by
      have := congrArg (fun l => l[0]?) hL
      simpa [List.getElem?_drop] using this
    refine (reaches_perform hb hq hh he).trans (ih (s := s.perform e) hb hq rfl ?_)
    have := congrArg (List.drop 1) hL
    rw [List.drop_drop] at this
    exact this

/-- An operation that has just been accepted runs to its end. -/
theorem reaches_end {s : State} (hb : s.busy = true) (hq : s.hostIn = []) (hh : s.holding = false) :
    Reaches s (s.runAll (s.trace.drop s.upc)).complete ∨ s.trace.length < s.upc := by
  by_cases hu : s.trace.length < s.upc
  · exact .inr hu
  · refine .inl ((reaches_runAll (R := []) hb hq hh (List.append_nil _).symm).trans (.one ?_))
    rw [step_quiet (by rw [State.runAll_hostIn, hq]), blockStep_end]
    · rfl
    · exact (State.runAll_busy _ _).trans hb
    · have h1 := State.runAll_upc (s.trace.drop s.upc) s
      have h2 := State.runAll_trace (s.trace.drop s.upc) s
      show (s.runAll _).upc = (s.runAll _).trace.length
      rw [h1, h2, List.length_drop]
      omega

/-! ### CTRL_STATE during a run (R104) -/

/-- An operation other than INIT leaves CTRL_STATE alone. -/
theorem State.runAll_ctrl {s : State} (L : List Event) (h : decodeRequest s.req ≠ .ok .init) :
    (s.runAll L).ctrl = s.ctrl := by
  induction L generalizing s with
  | nil => rfl
  | cons e L ih =>
    have hm : s.mark (s.upc + 1) = none := by
      unfold State.mark
      split
      · next hd => exact absurd hd h
      · rfl
    rw [State.runAll_cons, ih (s := s.perform e) h]
    show (s.mark (s.upc + 1)).getD s.ctrl = s.ctrl
    rw [hm]; rfl

/-- The CTRL_STATE of INIT: the update of the last marked position passed. -/
theorem State.runAll_ctrl_init {s : State} (L : List Event) (h : decodeRequest s.req = .ok .init) :
    (s.runAll L).ctrl =
      if s.upc < (initToExtended s.params ++ initToNormal s.params).length ∧
          (initToExtended s.params ++ initToNormal s.params).length ≤ s.upc + L.length then .normalMode
      else if s.upc < (initToExtended s.params).length ∧ (initToExtended s.params).length ≤ s.upc + L.length then .extendedMode
      else s.ctrl := by
  have hlen : (initToExtended s.params).length < (initToExtended s.params ++ initToNormal s.params).length := by
    simp [initToNormal]
  induction L generalizing s with
  | nil =>
    have h1 : ¬ (s.upc < (initToExtended s.params ++ initToNormal s.params).length ∧
      (initToExtended s.params ++ initToNormal s.params).length ≤ s.upc + 0) := by omega
    have h2 : ¬ (s.upc < (initToExtended s.params).length ∧ (initToExtended s.params).length ≤ s.upc + 0) := by omega
    rw [List.length_nil, if_neg h1, if_neg h2]; rfl
  | cons e L ih =>
    rw [State.runAll_cons, ih (s := s.perform e) h hlen]
    have hc : (s.perform e).ctrl = (initMark s.params (s.upc + 1)).getD s.ctrl := by
      show (s.mark (s.upc + 1)).getD s.ctrl = _
      simp [State.mark, h]
    have hu : (s.perform e).upc = s.upc + 1 := rfl
    have hp : (s.perform e).params = s.params := rfl
    rw [hc, hu, hp, List.length_cons, initMark]
    generalize (initToExtended s.params ++ initToNormal s.params).length = b at *
    generalize (initToExtended s.params).length = a at *
    split_ifs <;> first | rfl | omega

end Sys2Proof.Machine
end

