-- ==== Sys2Proof/Laws/Stream.lean ====
section
/-! SUPPORT. What frames, and runs of data frames, do at a receiver with a defined state. -/

namespace Sys2Proof.Machine

/-- A driven link in idle whose receiver has a defined state, under no GOTO to no cell: frames are delivered. -/
structure Link.Live (l : Link) : Prop where
  oe : l.oe = true
  rst : l.pins.rst = true
  clk : l.pins.clk = false
  undef : l.rx.undef = false
  bitcnt : l.rx.bitcnt = 0#3
  stray : l.stray = false

/-- What a frame leaves of the link besides the receiver: the pins as R92 says. -/
def pinsAfterFrame (p : Params) (m : Mode) (b : Byte) (q : Pins) : Pins :=
  { q with dc := lvl p m, cs := true, din := b.getLsbD 0, clk := false }

/-- A frame whose effect `r` at the receiver is defined. -/
theorem Link.run_frame {p : Params} {m : Mode} {b : Byte} {l : Link} (hl : l.Live) {r : Rx} {k : Nat}
    (hq : rxTake p m b { l.rx with sr := b, bitcnt := 0 } (l.n + 23) = (r, k)) (hu : r.undef = false) (hb : r.bitcnt = 0#3) :
    l.run p (wrbTrace p m b) = ⟨true, pinsAfterFrame p m b l.pins, r, k + 3, false⟩ ∧
      (l.run p (wrbTrace p m b)).Live := by
  have h := Link.run_wrb p m b l hl.oe hl.rst hl.clk hl.undef hl.bitcnt (r, k) (by rw [hl.stray]; exact hq) hu
  have hr : ({ r with bitcnt := 0 } : Rx) = r := by cases r; simp_all
  have h' : l.run p (wrbTrace p m b) = ⟨true, pinsAfterFrame p m b l.pins, r, k + 3, false⟩ := by
    rw [h]; simp [pinsAfterFrame, hl.oe, hl.stray]; exact hr
  refine ⟨h', ?_⟩
  rw [h']
  exact ⟨rfl, hl.rst, rfl, hu, hb, rfl⟩

/-! ### Command frames -/

section Command
variable {p : Params} {l : Link} (hl : l.Live)
include hl

theorem Link.run_fsetExt :
    l.run p (cmdTrace p 0x21) = ⟨true, pinsAfterFrame p .command 0x21 l.pins,
      { l.rx with sr := 0x21, bitcnt := 0, h := .extended }, l.n + 26, false⟩ ∧ (l.run p (cmdTrace p 0x21)).Live :=
  Link.run_frame hl (by simp [rxTake, decodeFrame, decodeCommand, rxExec]) hl.undef rfl

theorem Link.run_fsetBasic :
    l.run p (cmdTrace p 0x20) = ⟨true, pinsAfterFrame p .command 0x20 l.pins,
      { l.rx with sr := 0x20, bitcnt := 0, h := .basic, addrMode := .horizontal }, l.n + 26, false⟩ ∧
      (l.run p (cmdTrace p 0x20)).Live :=
  Link.run_frame hl (by simp [rxTake, decodeFrame, decodeCommand, rxExec]) hl.undef rfl

/-- A voltage byte in EXTENDED (R147). -/
theorem Link.run_setvop {b : Byte} (hh : l.rx.h = .extended) (hb : b.getLsbD 7 = true) :
    l.run p (cmdTrace p b) = ⟨true, pinsAfterFrame p .command b l.pins,
      { l.rx with sr := b, bitcnt := 0, vop := b.extractLsb' 0 7 }, l.n + 26, false⟩ ∧ (l.run p (cmdTrace p b)).Live := by
  have h1 : b ≠ 0x21 := by rintro rfl; simp at hb
  have h2 : b ≠ 0x20 := by rintro rfl; simp at hb
  have h3 : b ≠ 0x0C := by rintro rfl; simp at hb
  have h4 : b ≠ 0x0D := by rintro rfl; simp at hb
  exact Link.run_frame hl (by simp only [rxTake, decodeFrame, decodeCommand, hh, if_neg h1, if_neg h2, if_neg h3, if_neg h4, hb,
    if_true, rxExec]) hl.undef rfl

/-- A column byte in BASIC (R144). -/
theorem Link.run_setx {b : Byte} (hh : l.rx.h = .basic) (hb : b.getLsbD 7 = true) (hx : (b.extractLsb' 0 7).toNat < p.cols) :
    l.run p (cmdTrace p b) = ⟨true, pinsAfterFrame p .command b l.pins,
      { l.rx with sr := b, bitcnt := 0, x := b.extractLsb' 0 7 }, l.n + 26, false⟩ ∧ (l.run p (cmdTrace p b)).Live := by
  have h1 : b ≠ 0x21 := by rintro rfl; simp at hb
  have h2 : b ≠ 0x20 := by rintro rfl; simp at hb
  have h3 : b ≠ 0x0C := by rintro rfl; simp at hb
  have h4 : b ≠ 0x0D := by rintro rfl; simp at hb
  exact Link.run_frame hl (by simp only [rxTake, decodeFrame, decodeCommand, hh, if_neg h1, if_neg h2, if_neg h3, if_neg h4, hb,
    if_true, rxExec, rxColumn, if_pos hx]) hl.undef rfl

/-- A band byte in BASIC (R145). -/
theorem Link.run_sety {b : Byte} (hh : l.rx.h = .basic) (hb : b.extractLsb' 3 5 = 0b01000)
    (hy : (b.extractLsb' 0 3).toNat < p.bands) :
    l.run p (cmdTrace p b) = ⟨true, pinsAfterFrame p .command b l.pins,
      { l.rx with sr := b, bitcnt := 0, y := b.extractLsb' 0 3 }, l.n + 26, false⟩ ∧ (l.run p (cmdTrace p b)).Live := by
  have h1 : b ≠ 0x21 := by rintro rfl; simp at hb
  have h2 : b ≠ 0x20 := by rintro rfl; simp at hb
  have h3 : b ≠ 0x0C := by rintro rfl; simp at hb
  have h4 : b ≠ 0x0D := by rintro rfl; simp at hb
  have h7 : ¬ b.getLsbD 7 = true := by
    intro h
    have := congrArg (fun v : BitVec 5 => v.getLsbD 4) hb
    rw [BitVec.getLsbD_eq_getElem (by omega)] at h
    simp [h] at this
  exact Link.run_frame hl (by simp only [rxTake, decodeFrame, decodeCommand, hh, if_neg h1, if_neg h2, if_neg h3, if_neg h4,
    if_neg h7, if_pos hb, rxExec, rxBand, if_pos hy]) hl.undef rfl

/-- The display-control byte of INIT (R106), in BASIC (R146). -/
theorem Link.run_dispCtl_basic (hh : l.rx.h = .basic) :
    l.run p (cmdTrace p (dispCtl p)) = ⟨true, pinsAfterFrame p .command (dispCtl p) l.pins,
      { l.rx with sr := dispCtl p, bitcnt := 0, display := if p.inverse then .inverse else .normal }, l.n + 26, false⟩ ∧
      (l.run p (cmdTrace p (dispCtl p))).Live := by
  cases hi : p.inverse
  · exact Link.run_frame hl (by simp [rxTake, decodeFrame, decodeCommand, rxExec, dispCtl, hi, hh]) hl.undef rfl
  · exact Link.run_frame hl (by simp [rxTake, decodeFrame, decodeCommand, rxExec, dispCtl, hi, hh]) hl.undef rfl

/-- The same byte in EXTENDED has no effect (R146). -/
theorem Link.run_dispCtl_extended (hh : l.rx.h = .extended) :
    l.run p (cmdTrace p (dispCtl p)) = ⟨true, pinsAfterFrame p .command (dispCtl p) l.pins,
      { l.rx with sr := dispCtl p, bitcnt := 0 }, l.n + 26, false⟩ ∧ (l.run p (cmdTrace p (dispCtl p))).Live := by
  cases hi : p.inverse
  · exact Link.run_frame hl (by simp [rxTake, decodeFrame, decodeCommand, rxExec, dispCtl, hi, hh]) hl.undef rfl
  · exact Link.run_frame hl (by simp [rxTake, decodeFrame, decodeCommand, rxExec, dispCtl, hi, hh]) hl.undef rfl

/-- SETTC and SETBIAS in EXTENDED (R149). -/
theorem Link.run_settc (hh : l.rx.h = .extended) :
    l.run p (cmdTrace p 0x04) = ⟨true, pinsAfterFrame p .command 0x04 l.pins,
      { l.rx with sr := 0x04, bitcnt := 0, tc := 0x04 }, l.n + 26, false⟩ ∧ (l.run p (cmdTrace p 0x04)).Live :=
  Link.run_frame hl (by simp [rxTake, decodeFrame, decodeCommand, rxExec, hh]) hl.undef rfl

theorem Link.run_setbias (hh : l.rx.h = .extended) :
    l.run p (cmdTrace p 0x14) = ⟨true, pinsAfterFrame p .command 0x14 l.pins,
      { l.rx with sr := 0x14, bitcnt := 0, bias := 0x14 }, l.n + 26, false⟩ ∧ (l.run p (cmdTrace p 0x14)).Live :=
  Link.run_frame hl (by simp [rxTake, decodeFrame, decodeCommand, rxExec, hh]) hl.undef rfl

theorem Link.run_vopZero (hh : l.rx.h = .extended) :
    l.run p (cmdTrace p 0x00) = ⟨true, pinsAfterFrame p .command 0x00 l.pins,
      { l.rx with sr := 0x00, bitcnt := 0, vop := 0 }, l.n + 26, false⟩ ∧ (l.run p (cmdTrace p 0x00)).Live :=
  Link.run_frame hl (by simp [rxTake, decodeFrame, decodeCommand, rxExec, hh]) hl.undef rfl

end Command

/-! ### A data frame -/

theorem rxTake_data (p : Params) (b : Byte) (r : Rx) (n : Nat) : rxTake p .data b r n = rxData p b r n := rfl

theorem addressed_iff {p : Params} {r : Rx} :
    r.addressed p = true ↔ r.addrMode = .horizontal ∧ r.x.toNat < p.cols ∧ r.y.toNat < p.bands := by
  simp [Rx.addressed, and_assoc]

theorem cell_lt {p : Params} {r : Rx} (h : r.addressed p = true) : r.cell p < p.ncell := by
  obtain ⟨-, hx, hy⟩ := addressed_iff.mp h
  unfold Rx.cell Params.ncell
  have : (r.y.toNat + 1) * p.cols ≤ p.bands * p.cols := Nat.mul_le_mul_right _ hy
  rw [Nat.mul_comm p.cols]
  rw [Nat.succ_mul] at this
  omega

/-- The receiver after a data byte at an address: what does not change, and the cell written (R150). -/
theorem Link.run_data {p : Params} {b : Byte} {l : Link} (hl : l.Live) (ha : l.rx.addressed p = true) :
    l.run p (datTrace p b) = ⟨true, pinsAfterFrame p .data b l.pins,
      { l.rx with
        sr := b
        bitcnt := 0
        ddram := l.rx.ddram.write (l.rx.cell p) b
        x := (l.rx.nextAddress p (l.n + 23)).1
        y := (l.rx.nextAddress p (l.n + 23)).2 }, l.n + 27, false⟩ ∧ (l.run p (datTrace p b)).Live := by
  refine Link.run_frame hl ?_ hl.undef rfl
  rw [rxTake_data, rxData, if_pos (by simpa [Rx.addressed] using ha)]
  rfl

/-- Before the last cell the address moves to the next cell. -/
theorem next_inside {p : Params} {r : Rx} {n : Nat} (hp : p.wf = true) (ha : r.addressed p = true)
    (hc : r.cell p + 1 < p.ncell) (d : Memory) (sr : Byte) (bc : BitVec 3) :
    let r' : Rx := { r with sr := sr, bitcnt := bc, ddram := d, x := (r.nextAddress p n).1, y := (r.nextAddress p n).2 }
    r'.addressed p = true ∧ r'.cell p = r.cell p + 1 := by
  intro r'
  obtain ⟨hm, hx, hy⟩ := addressed_iff.mp ha
  simp only [Params.wf, Bool.and_eq_true, decide_eq_true_eq] at hp
  obtain ⟨⟨⟨⟨⟨h0, h128⟩, hb0⟩, h8⟩, -⟩, -⟩ := hp
  have hbx := r.x.isLt
  have hby := r.y.isLt
  by_cases hlast : r.x.toNat + 1 < p.cols
  · have hr : r'.x = r.x + 1 ∧ r'.y = r.y := by simp [r', Rx.nextAddress, hlast]
    have hxn : (r.x + 1).toNat = r.x.toNat + 1 := by
      rw [BitVec.toNat_add]; simp; omega
    refine ⟨addressed_iff.mpr ⟨hm, by rw [hr.1, hxn]; exact hlast, by rw [hr.2]; exact hy⟩, ?_⟩
    rw [Rx.cell, hr.1, hr.2, hxn, Rx.cell]; omega
  · have hxe : r.x.toNat + 1 = p.cols := by omega
    have hyl : r.y.toNat + 1 < p.bands := by
      by_contra hge
      have hye : r.y.toNat + 1 = p.bands := by omega
      unfold Rx.cell Params.ncell at hc
      rw [← hye, Nat.mul_succ, Nat.mul_comm p.cols] at hc
      omega
    have hr : r'.x = 0 ∧ r'.y = r.y + 1 := by simp [r', Rx.nextAddress, hlast, hyl]
    have hyn : (r.y + 1).toNat = r.y.toNat + 1 := by
      rw [BitVec.toNat_add]; simp; omega
    refine ⟨addressed_iff.mpr ⟨hm, by rw [hr.1]; simpa using h0, by rw [hr.2, hyn]; exact hyl⟩, ?_⟩
    rw [Rx.cell, hr.1, hr.2, hyn, Rx.cell, Nat.succ_mul]; simp; omega

/-- After the last cell the address is WRAP_LAST (R151). -/
theorem next_last {p : Params} {r : Rx} {n : Nat} (ha : r.addressed p = true) (hc : ¬ r.cell p + 1 < p.ncell) :
    r.nextAddress p n = (match p.wrapLast with
      | some a => a
      | none => (Config.rxX n, Config.rxY n)) := by
  obtain ⟨-, hx, hy⟩ := addressed_iff.mp ha
  have hye : r.y.toNat + 1 = p.bands := by
    by_contra hne
    have : (r.y.toNat + 2) * p.cols ≤ p.bands * p.cols := Nat.mul_le_mul_right _ (by omega)
    unfold Rx.cell Params.ncell at hc
    rw [Nat.mul_comm p.cols] at hc
    have e : (r.y.toNat + 2) * p.cols = r.y.toNat * p.cols + p.cols + p.cols := by ring
    omega
  have hxe : r.x.toNat + 1 = p.cols := by
    by_contra hne
    have e : p.bands * p.cols = r.y.toNat * p.cols + p.cols := by rw [← hye]; ring
    unfold Rx.cell Params.ncell at hc
    rw [Nat.mul_comm p.cols] at hc
    omega
  cases hw : p.wrapLast <;> simp [Rx.nextAddress, hxe, hye, hw]

/-- Where the address after a data byte is known to be that of a cell, it is the next one, cell 0 after the last. -/
theorem next_cell {p : Params} {r : Rx} {n : Nat} (hp : p.wf = true) (ha : r.addressed p = true)
    (hw : p.wrapLast = some (0, 0) ∨ r.cell p + 1 < p.ncell) (d : Memory) (sr : Byte) (bc : BitVec 3) :
    let r' : Rx := { r with sr := sr, bitcnt := bc, ddram := d, x := (r.nextAddress p n).1, y := (r.nextAddress p n).2 }
    r'.addressed p = true ∧ r'.cell p = (r.cell p + 1) % p.ncell := by
  intro r'
  by_cases hc : r.cell p + 1 < p.ncell
  · rw [Nat.mod_eq_of_lt hc]
    exact next_inside hp ha hc d sr bc
  · have hcl := cell_lt ha
    have hn := next_last (n := n) ha hc
    rw [hw.resolve_right hc] at hn
    obtain ⟨hm, hx, hy⟩ := addressed_iff.mp ha
    have hr : r'.x = 0 ∧ r'.y = 0 := by simp [r', hn]
    have he : r.cell p + 1 = p.ncell := by omega
    rw [he, Nat.mod_self]
    refine ⟨addressed_iff.mpr ⟨hm, ?_, ?_⟩, ?_⟩
    · rw [hr.1]; simp; omega
    · rw [hr.2]; simp; omega
    · rw [Rx.cell, hr.1, hr.2]; simp

theorem SameSettings.refl (r : Rx) : SameSettings r r := ⟨rfl, rfl, rfl, rfl, rfl, rfl⟩

theorem SameSettings.trans {r s t : Rx} (a : SameSettings r s) (b : SameSettings s t) : SameSettings r t :=
  ⟨b.h.trans a.h, b.addrMode.trans a.addrMode, b.display.trans a.display, b.vop.trans a.vop, b.tc.trans a.tc, b.bias.trans a.bias⟩

/-- A run of data frames from an address: the bytes stand in consecutive cells, and where the address is known to be that of a
cell it is the next one. -/
theorem Link.run_stream {p : Params} (hp : p.wf = true) (bs : List Byte) {l : Link} (hl : l.Live)
    (ha : l.rx.addressed p = true) (hw : p.wrapLast = some (0, 0) ∨ l.rx.cell p + bs.length ≤ p.ncell) :
    let l' := l.run p (bs.flatMap (datTrace p))
    l'.Live ∧ SameSettings l.rx l'.rx ∧
      (∀ a, l'.rx.ddram.read a = streamed p.ncell (l.rx.cell p) bs l.rx.ddram.read a) ∧
      (p.wrapLast = some (0, 0) ∨ l.rx.cell p + bs.length < p.ncell →
        l'.rx.addressed p = true ∧ l'.rx.cell p = (l.rx.cell p + bs.length) % p.ncell) := by
  induction bs generalizing l with
  | nil =>
    refine ⟨hl, .refl _, fun _ => rfl, fun _ => ⟨ha, ?_⟩⟩
    exact (Nat.mod_eq_of_lt (cell_lt ha)).symm
  | cons b bs ih =>
    have hd := Link.run_data (b := b) hl ha
    have hcl := cell_lt ha
    simp only [List.flatMap_cons, Link.run_append]
    obtain ⟨hrun, hlive⟩ := hd
    have hset : SameSettings l.rx (l.run p (datTrace p b)).rx := by rw [hrun]; exact ⟨rfl, rfl, rfl, rfl, rfl, rfl⟩
    have hread : (l.run p (datTrace p b)).rx.ddram.read = fun c => if c = l.rx.cell p then some b else l.rx.ddram.read c := by
      funext c; rw [hrun]; exact Memory.read_write _ _ _ _
    by_cases hc : p.wrapLast = some (0, 0) ∨ l.rx.cell p + 1 < p.ncell
    · obtain ⟨ha', hcell⟩ := next_cell (n := l.n + 23) hp ha hc (l.rx.ddram.write (l.rx.cell p) b) b 0
      have ha'' : (l.run p (datTrace p b)).rx.addressed p = true := by rw [hrun]; exact ha'
      have hcell' : (l.run p (datTrace p b)).rx.cell p = (l.rx.cell p + 1) % p.ncell := by rw [hrun]; exact hcell
      have hw' : p.wrapLast = some (0, 0) ∨ (l.run p (datTrace p b)).rx.cell p + bs.length ≤ p.ncell := by
        by_cases h0 : p.wrapLast = some (0, 0)
        · exact .inl h0
        · have h1 := hw.resolve_left h0
          rw [List.length_cons] at h1
          rw [hcell', Nat.mod_eq_of_lt (hc.resolve_left h0)]
          exact .inr (by omega)
      obtain ⟨i1, i2, i3, i4⟩ := ih hlive ha'' hw'
      refine ⟨i1, hset.trans i2, fun a => ?_, fun h => ?_⟩
      · rw [i3, hcell', hread, streamed]
      · have h' : p.wrapLast = some (0, 0) ∨ (l.run p (datTrace p b)).rx.cell p + bs.length < p.ncell := by
          by_cases h0 : p.wrapLast = some (0, 0)
          · exact .inl h0
          · have h1 := h.resolve_left h0
            rw [List.length_cons] at h1
            rw [hcell', Nat.mod_eq_of_lt (hc.resolve_left h0)]
            exact .inr (by omega)
        obtain ⟨j1, j2⟩ := i4 h'
        refine ⟨j1, j2.trans ?_⟩
        rw [hcell', Nat.mod_add_mod, List.length_cons]
        congr 1; omega
    · have h0 : ¬ p.wrapLast = some (0, 0) := fun h => hc (.inl h)
      have h1 : ¬ l.rx.cell p + 1 < p.ncell := fun h => hc (.inr h)
      have h2 := hw.resolve_left h0
      rw [List.length_cons] at h2
      obtain rfl : bs = [] := List.length_eq_zero_iff.mp (by omega)
      simp only [List.flatMap_nil, Link.run_nil]
      refine ⟨hlive, hset, fun a => ?_, fun h => ?_⟩
      · rw [hread]; rfl
      · have h3 := h.resolve_left h0
        rw [List.length_cons] at h3
        omega

end Sys2Proof.Machine
end

