-- ==== Sys2Proof/Laws/Request.lean ====
section
/-! SUPPORT. Requests: what accepting one gives, and the state its operation leaves. -/

namespace Sys2Proof.Machine

/-- A request's word decodes to it. -/
theorem decodeRequest_encode {i : Instr} {w : BitVec 20} (he : encode i = .request w) : decodeRequest w = .ok i := by
  cases i <;> simp only [encode, Code.request.injEq, reduceCtorEq] at he <;> subst he <;> simp [decodeRequest]

/-- The state an idle block is in after accepting the request `i`, of word `w`. -/
def State.taken (i : Instr) (w : BitVec 20) (s : State) : State :=
  { s with
    req := w
    upc := 0
    busy := true
    hcnt := 0
    holding := false
    stall := 0
    opbAcc := s.opb
    ctrl := if i = .init then .reset else s.ctrl }

theorem exec_request {i : Instr} {w : BitVec 20} {s : State} (he : encode i = .request w) (hb : s.busy = false) :
    exec i s = .next (s.taken i w) := by
  cases i <;> simp only [encode, Code.request.injEq, reduceCtorEq] at he <;> subst he <;>
    simp [exec, execTxb, execWrb, execInit, execContrast, execGoto, execClear, execImage, execChar, execText, execPad, execBorder,
      State.accept, hb, State.taken]

theorem State.taken_trace {i : Instr} {w : BitVec 20} (s : State) (he : encode i = .request w) :
    (s.taken i w).trace = opTrace s.params s.opb i := by
  simp [State.trace, wordTrace, State.taken, decodeRequest_encode he]

/-- The state in which the operation of `i` ends. -/
def State.finished (i : Instr) (w : BitVec 20) (s : State) : State :=
  ((s.taken i w).runAll (opTrace s.params s.opb i)).complete

/-- An operation accepted by an idle block the host leaves alone runs to its end. -/
theorem completes_request {i : Instr} {w : BitVec 20} {s : State} (he : encode i = .request w) (hb : s.busy = false)
    (hq : s.hostIn = []) : Completes i s (s.finished i w) := by
  refine ⟨s.taken i w, exec_request he hb, ?_, rfl, rfl⟩
  rcases reaches_end (s := s.taken i w) rfl hq rfl with h | h
  · rw [State.taken_trace s he] at h; exact h
  · exact absurd h (Nat.not_lt_zero _)

section Fields
variable (i : Instr) (w : BitVec 20) (s : State)

@[simp] theorem State.finished_params : (s.finished i w).params = s.params := State.runAll_params _ _
@[simp] theorem State.finished_req : (s.finished i w).req = w := State.runAll_req _ _
@[simp] theorem State.finished_busy : (s.finished i w).busy = false := rfl
@[simp] theorem State.finished_done : (s.finished i w).done = true := rfl
@[simp] theorem State.finished_ill : (s.finished i w).ill = s.ill := State.runAll_ill _ _
@[simp] theorem State.finished_opb : (s.finished i w).opb = s.opb := State.runAll_opb _ _
@[simp] theorem State.finished_requests : (s.finished i w).requests = s.requests := State.runAll_requests _ _
@[simp] theorem State.finished_hostIn : (s.finished i w).hostIn = s.hostIn := State.runAll_hostIn _ _
@[simp] theorem State.finished_log : (s.finished i w).log = s.log ++ opTrace s.params s.opb i := State.runAll_log _ _

/-- The output enable, the pins and the receiver after the operation: the trace, seen from the link. -/
theorem State.finished_link : (s.finished i w).link = (s.linkOf w).run s.params (opTrace s.params s.opb i) := by
  exact State.runAll_link (opTrace s.params s.opb i) (s.taken i w)

theorem State.finished_oe : (s.finished i w).oe = ((s.linkOf w).run s.params (opTrace s.params s.opb i)).oe :=
  congrArg Link.oe (s.finished_link i w)
theorem State.finished_pins : (s.finished i w).pins = ((s.linkOf w).run s.params (opTrace s.params s.opb i)).pins :=
  congrArg Link.pins (s.finished_link i w)
theorem State.finished_rx : (s.finished i w).rx = ((s.linkOf w).run s.params (opTrace s.params s.opb i)).rx :=
  congrArg Link.rx (s.finished_link i w)

end Fields

theorem State.finished_ctrl {i : Instr} {w : BitVec 20} (s : State) (he : encode i = .request w) (hi : i ≠ .init) :
    (s.finished i w).ctrl = s.ctrl := by
  have h := State.runAll_ctrl (s := s.taken i w) (opTrace s.params s.opb i)
    (by rw [show (s.taken i w).req = w from rfl, decodeRequest_encode he]; simpa using hi)
  exact h.trans (by simp [State.taken, hi])

/-! ### What a trace does to the pins, seen from the link -/

theorem Link.run_pins (p : Params) (L : List Event) (l : Link) (q : Pin) :
    (l.run p L).pins.get q = lastLevel q (l.pins.get q) L := by
  induction L generalizing l with
  | nil => rfl
  | cons e L ih =>
    rw [Link.run_cons, ih]
    cases e with
    | hold d => rfl
    | cfg => rfl
    | set q' v => simp [Link.event, lastLevel, Pins.get_put]

/-- OE stays as it is where the trace has no `CFG`. -/
theorem Link.run_oe (p : Params) (L : List Event) (l : Link) (hL : Event.cfg ∉ L) : (l.run p L).oe = l.oe := by
  induction L generalizing l with
  | nil => rfl
  | cons e L ih =>
    rw [Link.run_cons, ih _ fun hc => hL (by simp [hc])]
    cases e with
    | hold d => rfl
    | cfg => simp at hL
    | set q v => rfl

/-- Only INIT's trace has `CFG`, or writes the reset or the illumination pin (R12, R13). -/
theorem frameClosed_quiet (p : Params) :
    FrameClosed p (fun L => Event.cfg ∉ L ∧ ∀ v, Event.set .rst v ∉ L ∧ Event.set .aux v ∉ L) where
  nil := by simp
  append A B hA hB := by
    refine ⟨by simp [hA.1, hB.1], fun v => ?_⟩
    have h1 := hA.2 v
    have h2 := hB.2 v
    simp [h1, h2]
  frame m b := by simp [wrbTrace, txbTrace, bitOrder, bitTrace]

theorem opTrace_quiet (p : Params) (opb : Memory) {i : Instr} (hi : i ≠ .init) :
    Event.cfg ∉ opTrace p opb i ∧ ∀ v, Event.set .rst v ∉ opTrace p opb i ∧ Event.set .aux v ∉ opTrace p opb i := by
  by_cases ht : ∃ b m, i = .txb b m
  · obtain ⟨b, m, rfl⟩ := ht
    cases m <;> simp [opTrace, txbTrace, bitOrder, bitTrace]
  · exact (frameClosed_quiet p).op opb i hi fun b m h => ht ⟨b, m, h⟩

theorem lastLevel_none {q : Pin} {L : List Event} (h : ∀ v, Event.set q v ∉ L) (v : Level) : lastLevel q v L = v := by
  induction L generalizing v with
  | nil => rfl
  | cons e L ih =>
    have hL : ∀ v, Event.set q v ∉ L := fun v hc => h v (by simp [hc])
    cases e with
    | hold d => exact ih hL v
    | cfg => exact ih hL v
    | set q' w =>
      have hq : q' ≠ q := by rintro rfl; exact h w (by simp)
      simp [lastLevel, hq, ih hL]

/-- What every operation but INIT leaves alone. -/
theorem keeps_finished {i : Instr} {w : BitVec 20} (s : State) (he : encode i = .request w) (hi : i ≠ .init) :
    Keeps s (s.finished i w) := by
  obtain ⟨hc, hl⟩ := opTrace_quiet s.params s.opb hi
  refine ⟨by simp, ?_, by simp, s.finished_ctrl he hi, by simp, by simp, by simp, ?_, ?_⟩
  · rw [State.finished_oe, Link.run_oe _ _ _ hc]; rfl
  · rw [State.finished_pins]
    have := Link.run_pins s.params (opTrace s.params s.opb i) (s.linkOf w) .rst
    rw [lastLevel_none fun v => (hl v).1] at this
    exact this
  · rw [State.finished_pins]
    have := Link.run_pins s.params (opTrace s.params s.opb i) (s.linkOf w) .aux
    rw [lastLevel_none fun v => (hl v).2] at this
    exact this

/-- The word of a request that is no GOTO, or of a GOTO to a cell, strays nowhere. -/
theorem gotoStrays_encode {i : Instr} {w : BitVec 20} (p : Params) (he : encode i = .request w) :
    gotoStrays p w = true ↔ ∃ x y, i = .goto x y ∧ (p.cols ≤ x.toNat ∨ p.bands ≤ y.toNat) := by
  cases i <;> simp only [encode, Code.request.injEq, reduceCtorEq] at he <;> subst he <;> simp [gotoStrays]

theorem gotoStrays_other {i : Instr} {w : BitVec 20} (p : Params) (he : encode i = .request w) (hi : ∀ x y, i ≠ .goto x y) :
    gotoStrays p w = false := by
  rw [← Bool.not_eq_true, gotoStrays_encode p he]
  rintro ⟨x, y, h, -⟩
  exact hi x y h

theorem gotoStrays_goto (p : Params) (x y : Byte) :
    gotoStrays p (reqWord 0x5 x y) = (decide (p.cols ≤ x.toNat) || decide (p.bands ≤ y.toNat)) := by
  simp [gotoStrays]

/-- The link of a listening machine is live, and not selected. -/
theorem Listening.live {s : State} (h : Listening s) {w : BitVec 20} (hw : gotoStrays s.params w = false) :
    (s.linkOf w).Live ∧ s.pins.cs = true := by
  have hp : s.performed = [] := by simp [State.performed, h.idle]
  have hc := h.inv.cs
  have hr := h.inv.rst
  have hk := h.inv.clk
  rw [hp] at hc hr hk
  exact ⟨⟨h.driven, hr, hk, h.defined, h.inv.bracket h.defined hc, hw⟩, hc⟩

end Sys2Proof.Machine
end

