-- ==== Sys2Proof/Laws/Operations.lean ====
section
/-! SUPPORT. What the sequences of frames of GOTO, CONTRAST and INIT do at a receiver with a defined state. -/

namespace Sys2Proof.Machine

/-! ### Operand bytes (R65, R66) -/

theorem colCmd_bit7 (x : Byte) : (colCmd x).getLsbD 7 = true := by simp [colCmd]

theorem colCmd_column (x : Byte) (h : x.toNat < 128) : ((colCmd x).extractLsb' 0 7).toNat = x.toNat := by
  revert x; decide

theorem bandCmd_pattern (y : Byte) (h : y.toNat < 8) :
    (bandCmd y).extractLsb' 3 5 = 0b01000 ∧ ((bandCmd y).extractLsb' 0 3).toNat = y.toNat := by
  revert y; decide

theorem bandCmd_bit0 (y : Byte) : (bandCmd y).getLsbD 0 = y.getLsbD 0 := by simp [bandCmd]

theorem adj_bit7 {level : Byte} (h : level ≠ 0) : (adj level).getLsbD 7 = true := by
  revert level; decide

theorem adj_vop {level : Byte} (h : level ≠ 0) : (adj level).extractLsb' 0 7 = level.extractLsb' 0 7 := by
  revert level; decide

theorem params_bounds {p : Params} (hp : p.wf = true) :
    0 < p.cols ∧ p.cols ≤ 128 ∧ 0 < p.bands ∧ p.bands ≤ 8 ∧ p.ncell ≤ 512 := by
  simp only [Params.wf, Bool.and_eq_true, decide_eq_true_eq] at hp
  obtain ⟨⟨⟨⟨⟨h0, h128⟩, hb0⟩, h8⟩, hn⟩, -⟩ := hp
  exact ⟨h0, h128, hb0, h8, hn⟩

/-! ### GOTO -/

/-- GOTO in range, at a receiver in BASIC (R107). -/
theorem Link.run_goto {p : Params} (hp : p.wf = true) {l : Link} (hl : l.Live) (hh : l.rx.h = .basic) {x y : Byte}
    (hx : x.toNat < p.cols) (hy : y.toNat < p.bands) :
    (l.run p (gotoTrace p x y)).Live ∧
      (l.run p (gotoTrace p x y)).pins = pinsAfterFrame p .command (bandCmd y) l.pins ∧
      (l.run p (gotoTrace p x y)).rx = { l.rx with
        sr := bandCmd y
        bitcnt := 0
        x := (colCmd x).extractLsb' 0 7
        y := (bandCmd y).extractLsb' 0 3 } := by
  obtain ⟨-, h128, -, h8, -⟩ := params_bounds hp
  obtain ⟨hb, hb3⟩ := bandCmd_pattern y (by omega)
  obtain ⟨h1, hl1⟩ := Link.run_setx (p := p) hl hh (colCmd_bit7 x) (by rw [colCmd_column x (by omega)]; exact hx)
  obtain ⟨h2, hl2⟩ := Link.run_sety (p := p) hl1 (by rw [h1]; exact hh) hb (by rw [hb3]; exact hy)
  rw [gotoTrace, Link.run_append]
  refine ⟨hl2, ?_, ?_⟩
  · rw [h2, h1]; rfl
  · rw [h2, h1]

/-- After GOTO the receiver's address is the cell named. -/
theorem Link.run_goto_cell {p : Params} (hp : p.wf = true) {l : Link} (hl : l.Live) (hh : l.rx.h = .basic)
    (ha : l.rx.addrMode = .horizontal) {x y : Byte} (hx : x.toNat < p.cols) (hy : y.toNat < p.bands) :
    (l.run p (gotoTrace p x y)).rx.addressed p = true ∧
      (l.run p (gotoTrace p x y)).rx.cell p = y.toNat * p.cols + x.toNat := by
  obtain ⟨-, h128, -, h8, -⟩ := params_bounds hp
  obtain ⟨-, -, hr⟩ := Link.run_goto hp hl hh hx hy
  have hb3 := (bandCmd_pattern y (by omega)).2
  have hc := colCmd_column x (by omega)
  rw [hr]
  exact ⟨addressed_iff.mpr ⟨ha, by simp only [hc]; exact hx, by simp only [hb3]; exact hy⟩, by simp only [Rx.cell, hc, hb3]⟩

/-! ### CONTRAST -/

/-- CONTRAST at a receiver in either instruction set (R105). -/
theorem Link.run_contrast {p : Params} {l : Link} (hl : l.Live) (level : Byte) :
    (l.run p (contrastTrace p level)).Live ∧
      (l.run p (contrastTrace p level)).pins = pinsAfterFrame p .command 0x20 l.pins ∧
      ∃ v, (level ≠ 0 → v = level.extractLsb' 0 7) ∧ (l.run p (contrastTrace p level)).rx =
        { l.rx with sr := 0x20, bitcnt := 0, h := .basic, addrMode := .horizontal, vop := v } := by
  obtain ⟨h1, hl1⟩ := Link.run_fsetExt (p := p) hl
  simp only [contrastTrace, Link.run_append]
  by_cases h0 : level = 0
  · obtain ⟨h2, hl2⟩ := Link.run_vopZero (p := p) hl1 (by rw [h1])
    have e : adj level = 0x00 := by simp [adj, h0]
    rw [e]
    obtain ⟨h3, hl3⟩ := Link.run_fsetBasic (p := p) hl2
    exact ⟨hl3, by rw [h3, h2, h1]; rfl, 0, fun h => absurd h0 h, by rw [h3, h2, h1]⟩
  · obtain ⟨h2, hl2⟩ := Link.run_setvop (p := p) hl1 (by rw [h1]) (adj_bit7 h0)
    obtain ⟨h3, hl3⟩ := Link.run_fsetBasic (p := p) hl2
    exact ⟨hl3, by rw [h3, h2, h1]; rfl, _, fun _ => rfl, by rw [h3, h2, h1, ← adj_vop h0]⟩

/-! ### Streams of data frames -/

/-- The pins after a stream of data frames that is not empty. -/
theorem Link.run_stream_pins {p : Params} (bs : List Byte) (b : Byte) (l : Link) :
    (l.run p ((bs ++ [b]).flatMap (datTrace p))).pins = pinsAfterFrame p .data b l.pins := by
  have hd : ∀ q, (l.run p ((bs ++ [b]).flatMap (datTrace p))).pins.get q =
      (pinsAfterFrame p .data b l.pins).get q := by
    intro q
    rw [Link.run_pins, List.flatMap_append, lastLevel_append]
    have hf : lastLevel q (lastLevel q (l.pins.get q) (bs.flatMap (datTrace p))) ([b].flatMap (datTrace p)) =
        lastLevel q (lastLevel q (l.pins.get q) (bs.flatMap (datTrace p))) (wrbTrace p .data b) := by
      simp [datTrace]
    rw [hf]
    cases q
    · rw [wrbTrace_rst, lastLevel_flatMap]; · rfl
      intro x _; exact wrbTrace_rst _ _ _ _
    · exact wrbTrace_cs _ _ _ _
    · exact wrbTrace_dc _ _ _ _
    · exact wrbTrace_din _ _ _ _
    · exact wrbTrace_clk _ _ _ _
    · rw [wrbTrace_aux, lastLevel_flatMap]; · rfl
      intro x _; exact wrbTrace_aux _ _ _ _
  have ext : ∀ q q' : Pins, (∀ p, q.get p = q'.get p) → q = q' := by
    rintro ⟨a, b, c, d, e, f⟩ ⟨a', b', c', d', e', f'⟩ h
    have h1 := h .rst; have h2 := h .cs; have h3 := h .dc; have h4 := h .din; have h5 := h .clk; have h6 := h .aux
    simp only [Pins.get] at h1 h2 h3 h4 h5 h6
    subst h1 h2 h3 h4 h5 h6; rfl
  exact ext _ _ hd

/-- What a stream leaves in the cells, read off it: cells before the start and after the end keep their value. -/
theorem streamed_eq {size a : Nat} (bs : List Byte) (m : Nat → Option Byte) (h : a + bs.length ≤ size) (c : Nat) :
    streamed size a bs m c = if a ≤ c ∧ c < a + bs.length then bs[c - a]? else m c := by
  induction bs generalizing a m with
  | nil => simp [streamed]
  | cons b bs ih =>
    rw [List.length_cons] at h
    simp only [streamed]
    by_cases hlast : a + 1 = size
    · obtain rfl : bs = [] := List.length_eq_zero_iff.mp (by omega)
      simp only [streamed, List.length_cons, List.length_nil]
      by_cases hc : c = a
      · subst hc; simp
      · rw [if_neg hc, if_neg (by omega)]
    · rw [Nat.mod_eq_of_lt (by omega), ih _ (by omega), List.length_cons]
      by_cases hc : c = a
      · subst hc; rw [if_neg (by omega), if_pos (by omega)]; simp
      · by_cases h1 : a + 1 ≤ c ∧ c < a + 1 + bs.length
        · rw [if_pos h1, if_pos (by omega)]
          obtain ⟨k, rfl⟩ : ∃ k, c = a + 1 + k := ⟨c - (a + 1), by omega⟩
          rw [show a + 1 + k - (a + 1) = k by omega, show a + 1 + k - a = k + 1 by omega, List.getElem?_cons_succ]
        · rw [if_neg h1, if_neg hc, if_neg (by omega)]

/-- A whole screen of bytes streamed after a GOTO to (0, 0): byte `a` stands in cell `a` (R46, R120, R121). -/
theorem Link.run_screen {p : Params} (hp : p.wf = true) {l : Link} (hl : l.Live) (hh : l.rx.h = .basic)
    (ha : l.rx.addrMode = .horizontal) (bs : List Byte) (hbs : bs.length = p.ncell) :
    let l' := l.run p (gotoTrace p 0 0 ++ bs.flatMap (datTrace p))
    l'.Live ∧ SameSettings l.rx l'.rx ∧ (∀ a, a < p.ncell → l'.rx.ddram.read a = bs[a]?) ∧
      (p.wrapLast = some (0, 0) → l'.rx.x = 0 ∧ l'.rx.y = 0) := by
  intro l'
  obtain ⟨h0, -, hb0, -, -⟩ := params_bounds hp
  obtain ⟨g1, -, g3⟩ := Link.run_goto hp hl hh (x := 0) (y := 0) (by simpa using h0) (by simpa using hb0)
  obtain ⟨a1, a2⟩ := Link.run_goto_cell hp hl hh ha (x := 0) (y := 0) (by simpa using h0) (by simpa using hb0)
  have a2' : (l.run p (gotoTrace p 0 0)).rx.cell p = 0 := by rw [a2]; simp
  have hset : SameSettings l.rx (l.run p (gotoTrace p 0 0)).rx := by rw [g3]; exact ⟨rfl, rfl, rfl, rfl, rfl, rfl⟩
  have hl' : l' = (l.run p (gotoTrace p 0 0)).run p (bs.flatMap (datTrace p)) := Link.run_append _ _ _ _
  obtain ⟨i1, i2, i3, i4⟩ := Link.run_stream hp bs g1 a1 (.inr (by omega))
  rw [← hl'] at i1 i2 i3 i4
  refine ⟨i1, hset.trans i2, fun a haa => ?_, fun hw => ?_⟩
  · rw [i3, a2', streamed_eq _ _ (by omega), if_pos (by omega), Nat.sub_zero]
  · obtain ⟨j1, j2⟩ := i4 (.inl hw)
    rw [a2', hbs, Nat.zero_add, Nat.mod_self] at j2
    unfold Rx.cell at j2
    have hx0 : l'.rx.x.toNat = 0 := by omega
    have hy0 : l'.rx.y.toNat = 0 := by
      rcases Nat.eq_zero_or_pos l'.rx.y.toNat with h | h
      · exact h
      · have := Nat.mul_pos h h0; omega
    exact ⟨BitVec.eq_of_toNat_eq (by simpa using hx0), BitVec.eq_of_toNat_eq (by simpa using hy0)⟩

/-! ### Goto-and-write pairs (R126) -/

/-- One pair: one cell written, the address going on from it. -/
theorem Link.run_pair {p : Params} (hp : p.wf = true) {l : Link} (hl : l.Live) (hh : l.rx.h = .basic)
    (ha : l.rx.addrMode = .horizontal) {x y : Nat} (b : Byte) (hx : x < p.cols) (hy : y < p.bands) :
    let l' := l.run p (borderPair p x y b)
    l'.Live ∧ SameSettings l.rx l'.rx ∧
      (∀ a, l'.rx.ddram.read a = if a = y * p.cols + x then some b else l.rx.ddram.read a) ∧
      (p.wrapLast = some (0, 0) → y * p.cols + x + 1 = p.ncell → l'.rx.x = 0 ∧ l'.rx.y = 0) := by
  intro l'
  obtain ⟨-, h128, -, h8, -⟩ := params_bounds hp
  have ex : (BitVec.ofNat 8 x).toNat = x := by simp; omega
  have ey : (BitVec.ofNat 8 y).toNat = y := by simp; omega
  obtain ⟨g1, -, g3⟩ := Link.run_goto hp hl hh (x := BitVec.ofNat 8 x) (y := BitVec.ofNat 8 y) (by rw [ex]; exact hx)
    (by rw [ey]; exact hy)
  obtain ⟨a1, a2⟩ := Link.run_goto_cell hp hl hh ha (x := BitVec.ofNat 8 x) (y := BitVec.ofNat 8 y) (by rw [ex]; exact hx)
    (by rw [ey]; exact hy)
  rw [ex, ey] at a2
  obtain ⟨d1, d2⟩ := Link.run_data (b := b) g1 a1
  have hl' : l' = (l.run p (gotoTrace p (BitVec.ofNat 8 x) (BitVec.ofNat 8 y))).run p (datTrace p b) := Link.run_append _ _ _ _
  refine ⟨hl' ▸ d2, ?_, fun a => ?_, fun hw hlast => ?_⟩
  · rw [hl', d1]
    simp only [g3]
    exact ⟨rfl, rfl, rfl, rfl, rfl, rfl⟩
  · rw [hl', d1]
    simp only [Memory.read_write, a2]
    rw [g3]
  · rw [hl', d1]
    have hn := next_last (n := (l.run p (gotoTrace p (BitVec.ofNat 8 x) (BitVec.ofNat 8 y))).n + 23) a1 (by rw [a2]; omega)
    simp only [hn, hw, and_self]

/-- The cells after a list of pairs (column, band, byte), the later ones winning. -/
def paired (cols : Nat) : List (Nat × Nat × Byte) → (Nat → Option Byte) → Nat → Option Byte
  | [], m => m
  | (x, y, b) :: ps, m => paired cols ps (fun c => if c = y * cols + x then some b else m c)

theorem paired_append (c : Nat) (A B : List (Nat × Nat × Byte)) (m : Nat → Option Byte) :
    paired c (A ++ B) m = paired c B (paired c A m) := by
  induction A generalizing m with
  | nil => rfl
  | cons q A ih => exact ih _

/-- A run of pairs along a band, and one along a column. -/
theorem paired_row (c n y : Nat) (b : Byte) (m : Nat → Option Byte) (a : Nat) :
    paired c ((List.range n).map (fun x => (x, y, b))) m a = if y * c ≤ a ∧ a < y * c + n then some b else m a := by
  induction n with
  | zero => simp [paired]
  | succ n ih =>
    rw [List.range_succ, List.map_append, paired_append]
    simp only [List.map_cons, List.map_nil, paired, ih]
    split_ifs <;> first | rfl | omega

theorem paired_col (c n x : Nat) (b : Byte) (m : Nat → Option Byte) (a : Nat) :
    paired c ((List.range n).map (fun y => (x, y, b))) m a = if ∃ y < n, a = y * c + x then some b else m a := by
  induction n with
  | zero => simp [paired]
  | succ n ih =>
    rw [List.range_succ, List.map_append, paired_append]
    simp only [List.map_cons, List.map_nil, paired, ih]
    by_cases h1 : a = n * c + x
    · rw [if_pos h1, if_pos ⟨n, by omega, h1⟩]
    · rw [if_neg h1]
      by_cases h2 : ∃ y < n, a = y * c + x
      · obtain ⟨y, hy, e⟩ := h2
        rw [if_pos ⟨y, hy, e⟩, if_pos ⟨y, by omega, e⟩]
      · rw [if_neg h2, if_neg]
        rintro ⟨y, hy, e⟩
        by_cases hyn : y = n
        · subst hyn; exact h1 e
        · exact h2 ⟨y, by omega, e⟩

/-- The events of a list of pairs. -/
def pairsTrace (p : Params) (ps : List (Nat × Nat × Byte)) : List Event := ps.flatMap fun q => borderPair p q.1 q.2.1 q.2.2

theorem Link.run_pairs {p : Params} (hp : p.wf = true) (ps : List (Nat × Nat × Byte)) {l : Link} (hl : l.Live)
    (hh : l.rx.h = .basic) (ha : l.rx.addrMode = .horizontal) (hr : ∀ q ∈ ps, q.1 < p.cols ∧ q.2.1 < p.bands) :
    let l' := l.run p (pairsTrace p ps)
    l'.Live ∧ SameSettings l.rx l'.rx ∧ ∀ a, l'.rx.ddram.read a = paired p.cols ps l.rx.ddram.read a := by
  induction ps generalizing l with
  | nil => exact ⟨hl, .refl _, fun _ => rfl⟩
  | cons q ps ih =>
    obtain ⟨x, y, b⟩ := q
    obtain ⟨hx, hy⟩ := hr (x, y, b) List.mem_cons_self
    obtain ⟨i1, i2, i3, -⟩ := Link.run_pair hp hl hh ha b hx hy
    obtain ⟨j1, j2, j3⟩ := ih i1 (i2.h.trans hh) (i2.addrMode.trans ha) fun q hq => hr q (List.mem_cons_of_mem _ hq)
    have e : l.run p (pairsTrace p ((x, y, b) :: ps)) = (l.run p (borderPair p x y b)).run p (pairsTrace p ps) := by
      rw [pairsTrace, List.flatMap_cons, Link.run_append]; rfl
    rw [e]
    refine ⟨j1, i2.trans j2, fun a => ?_⟩
    rw [j3, paired]
    exact congrArg (fun m => paired p.cols ps m a) (funext i3)

/-- BORDER's pairs (R126). -/
def borderPairs (p : Params) : List (Nat × Nat × Byte) :=
  (List.range p.cols).map (fun x => (x, 0, 0x01)) ++ (List.range p.cols).map (fun x => (x, p.bands - 1, 0x80)) ++
    (List.range p.bands).map (fun y => (0, y, 0xFF)) ++ (List.range p.bands).map (fun y => (p.cols - 1, y, 0xFF))

theorem borderTrace_pairs (p : Params) : borderTrace p = pairsTrace p (borderPairs p) := by
  simp [borderTrace, pairsTrace, borderPairs, List.flatMap_map]

/-! ### INIT's head: outputs enabled, power-on levels, reset pulse (R101, R102, R152) -/

/-- Whatever the receiver's state, after the reset pulse it is one draw of free values with no partial byte. -/
theorem Link.run_initHead (p : Params) (l : Link) (hs : l.stray = false) :
    (l.run p (initStep1 p ++ initPulse p)).Live ∧
      ∃ n, (l.run p (initStep1 p ++ initPulse p)).rx = Rx.drawn n 0 false := by
  rw [Link.run_append]
  generalize hm : l.run p (initStep1 p) = m
  have hoe : m.oe = true := by
    rw [← hm]
    cases h : p.hasAux <;> simp [initStep1, h, Link.event]
  have hms : m.stray = false := by rw [← hm, Link.run_stray]; exact hs
  have hk : m.pins.get .clk = false := by
    rw [← hm, Link.run_pins]
    cases h : p.hasAux <;> simp [initStep1, h, lastLevel]
  have e : m.run p (initPulse p) = ⟨true, { m.pins with rst := true }, Rx.drawn (m.n + 1) 0 false, m.n + 1 + 1 + 1 + 1, false⟩ := by
    obtain ⟨oe, q, r, n, k⟩ := m
    simp only at hoe hms
    subst hoe hms
    simp [initPulse, Link.event, rxDeliver, Pins.put, Rx.drawn]
  rw [e]
  exact ⟨⟨rfl, rfl, hk, rfl, rfl, rfl⟩, _, rfl⟩

end Sys2Proof.Machine
end

