-- ==== Sys2Proof/Laws/Host.lean ====
section
/-! SUPPORT. A host write to OPB under the running operation: what it changes, and what of the operation's trace stays (R56). -/

namespace Sys2Proof.Machine

/-- The events before the first one formed from `OPB[j]` do not depend on that byte. -/
theorem opTrace_prefix (p : Params) (m : Memory) (i : Instr) (j : Nat) (b : Byte) (o : Nat) (ho : opbOffset p m i j = some o) :
    ∃ pre A B, opTrace p m i = pre ++ A ∧ opTrace p (m.write j b) i = pre ++ B ∧ pre.length = o := by
  have hread : ∀ k, k ≠ j → opbByte (m.write j b) k = opbByte m k := by
    intro k hk; simp [opbByte, Memory.read_write_other m b hk]
  have split : ∀ (f : Byte → List Event) (n : Nat), j < n →
      (List.range n).flatMap (fun i => f (opbByte m i)) = (List.range j).flatMap (fun i => f (opbByte m i)) ++
        ((List.range (n - j)).map (j + ·)).flatMap (fun i => f (opbByte m i)) ∧
      (List.range n).flatMap (fun i => f (opbByte (m.write j b) i)) = (List.range j).flatMap (fun i => f (opbByte m i)) ++
        ((List.range (n - j)).map (j + ·)).flatMap (fun i => f (opbByte (m.write j b) i)) := by
    intro f n hj
    have e : List.range n = List.range j ++ (List.range (n - j)).map (j + ·) := by
      rw [← List.range_add]; congr 1; omega
    refine ⟨by rw [e, List.flatMap_append], ?_⟩
    rw [e, List.flatMap_append]
    congr 1
    simp only [List.flatMap]
    congr 1
    apply List.map_congr_left
    intro a ha
    rw [hread a (by have := List.mem_range.mp ha; omega)]
  unfold opbOffset at ho
  split at ho
  · split at ho
    · next hj =>
      cases ho
      obtain ⟨h1, h2⟩ := split (datTrace p) p.ncell hj
      exact ⟨_, _, _, by simp only [opTrace, imageTrace]; rw [h1, ← List.append_assoc],
        by simp only [opTrace, imageTrace]; rw [h2, ← List.append_assoc], rfl⟩
    · cases ho
  · next n =>
    split at ho
    · next hj =>
      cases ho
      obtain ⟨h1, h2⟩ := split (charTrace p) n.toNat hj
      exact ⟨_, _, _, h1, h2, rfl⟩
    · cases ho
  all_goals cases ho

/-- What the running operation reads after a host write: the old byte, or the new one where it has still to read it. -/
theorem State.hostWrite_eq (i : BitVec 9) (b : Byte) (s : State) :
    (s.hostWrite i b).opbAcc = s.opbAcc ∨ (s.unread i.toNat = true ∧ (s.hostWrite i b).opbAcc = s.opbAcc.write i.toNat b) := by
  unfold State.hostWrite
  split
  · next h =>
    by_cases hc : Config.hostWriteSeen s.freeCtr = true
    · right; simp [h, hc]
    · left; simp [hc]
  · left; rfl

/-- A byte still to be read stands at or after UPC: the trace before UPC does not depend on it. -/
theorem State.unread_split {s : State} {j : Nat} (h : s.unread j = true) (b : Byte) :
    ∃ pre A B, s.trace = pre ++ A ∧ wordTrace s.params (s.opbAcc.write j b) s.req = pre ++ B ∧ s.upc ≤ pre.length := by
  unfold State.unread at h
  simp only [Bool.and_eq_true] at h
  obtain ⟨-, h⟩ := h
  split at h
  · next o ho =>
    unfold State.offset at ho
    split at ho
    · next i hd =>
      obtain ⟨pre, A, B, h1, h2, h3⟩ := opTrace_prefix s.params s.opbAcc i j b o ho
      exact ⟨pre, A, B, by simp [State.trace, wordTrace, hd, h1], by simp [wordTrace, hd, h2], by rw [h3]; simpa using h⟩
    · cases ho
  · cases h

/-- A host write changes OPB, and of the model's own fields the operand bytes and the count of free values. -/
theorem State.hostWrite_fields (i : BitVec 9) (b : Byte) (s : State) :
    ∃ m n, s.hostWrite i b = { s with opb := s.opb.write i.toNat b, opbAcc := m, freeCtr := n } := by
  unfold State.hostWrite; split <;> exact ⟨_, _, rfl⟩

end Sys2Proof.Machine
end

