-- ==== Sys2Proof/Laws/PerInstr.lean ====
section
/-! SUPPORT. Families of statements made per instruction. `RoundTrip`: the encoded word decodes to the instruction, in every
instruction set its row applies in. -/

namespace Sys2Proof.Laws

def RoundTrip.Statement (i : Instr) : Prop := ∀ h, i.appliesIn h = true → decode h (encode i) = .ok i

theorem RoundTrip.txb (byte : Byte) (msbFirst : Bool) : RoundTrip.Statement (.txb byte msbFirst) := by
  intro h _; simp [encode, decode, decodeRequest]

theorem RoundTrip.wrb (mode : Mode) (byte : Byte) : RoundTrip.Statement (.wrb mode byte) := by
  intro h _; simp [encode, decode, decodeRequest]

theorem RoundTrip.init : RoundTrip.Statement .init := by
  intro h _; simp [encode, decode, decodeRequest]

theorem RoundTrip.contrast (level : Byte) : RoundTrip.Statement (.contrast level) := by
  intro h _; simp [encode, decode, decodeRequest]

theorem RoundTrip.goto (x y : Byte) : RoundTrip.Statement (.goto x y) := by
  intro h _; simp [encode, decode, decodeRequest]

theorem RoundTrip.clear : RoundTrip.Statement .clear := by
  intro h _; simp [encode, decode, decodeRequest]

theorem RoundTrip.image : RoundTrip.Statement .image := by
  intro h _; simp [encode, decode, decodeRequest]

theorem RoundTrip.char (ch : Byte) : RoundTrip.Statement (.char ch) := by
  intro h _; simp [encode, decode, decodeRequest]

theorem RoundTrip.text (n : Byte) : RoundTrip.Statement (.text n) := by
  intro h _; simp [encode, decode, decodeRequest]

theorem RoundTrip.pad (n : Byte) : RoundTrip.Statement (.pad n) := by
  intro h _; simp [encode, decode, decodeRequest]

theorem RoundTrip.border : RoundTrip.Statement .border := by
  intro h _; simp [encode, decode, decodeRequest]

theorem RoundTrip.fsetExt : RoundTrip.Statement .fsetExt := by
  intro h hi; cases h <;> simp_all [encode, decodeFrame, decodeCommand, Instr.appliesIn]

theorem RoundTrip.fsetBasic : RoundTrip.Statement .fsetBasic := by
  intro h hi; cases h <;> simp_all [encode, decodeFrame, decodeCommand, Instr.appliesIn]

theorem RoundTrip.setx (x : BitVec 7) : RoundTrip.Statement (.setx x) := by
  intro h hi; cases h <;> simp_all [encode, decodeFrame, decodeCommand_setx, Instr.appliesIn]

theorem RoundTrip.sety (y : BitVec 3) : RoundTrip.Statement (.sety y) := by
  intro h hi; cases h <;> simp_all [encode, decodeFrame, decodeCommand_sety, Instr.appliesIn]

theorem RoundTrip.dispNormal : RoundTrip.Statement .dispNormal := by
  intro h hi; cases h <;> simp_all [encode, decodeFrame, decodeCommand, Instr.appliesIn]

theorem RoundTrip.dispInverse : RoundTrip.Statement .dispInverse := by
  intro h hi; cases h <;> simp_all [encode, decodeFrame, decodeCommand, Instr.appliesIn]

theorem RoundTrip.setvop (v : BitVec 7) : RoundTrip.Statement (.setvop v) := by
  intro h hi; cases h <;> simp_all [encode, decodeFrame, decodeCommand_setvop, Instr.appliesIn]

theorem RoundTrip.vopZero : RoundTrip.Statement .vopZero := by
  intro h hi; cases h <;> simp_all [encode, decodeFrame, decodeCommand, Instr.appliesIn]

theorem RoundTrip.settc : RoundTrip.Statement .settc := by
  intro h hi; cases h <;> simp_all [encode, decodeFrame, decodeCommand, Instr.appliesIn]

theorem RoundTrip.setbias : RoundTrip.Statement .setbias := by
  intro h hi; cases h <;> simp_all [encode, decodeFrame, decodeCommand, Instr.appliesIn]

theorem RoundTrip.data (d : Byte) : RoundTrip.Statement (.data d) := by
  intro h hi; cases h <;> simp_all [encode, decodeFrame, Instr.appliesIn]

end Sys2Proof.Laws
end

