-- ==== Sys2Proof/Laws/Receiver.lean ====
section
/-! SUPPORT. What an event at the link can do to the receiver: to its memory, its bit counter and its defined state. -/

namespace Sys2Proof.Machine

/-- What a frame can do to a receiver with a defined state: its defined state is lost, or the bit counter and the shift register
are kept and the memory is kept or, by DATA, one cell written. -/
theorem rxExec_cases (p : Params) (i : Instr) (r : Rx) (n : Nat) (hu : r.undef = false) :
    ((rxExec p i r n).1.undef = true ∧ (rxExec p i r n).1.ddram = []) ∨
    ((rxExec p i r n).1.undef = false ∧ (rxExec p i r n).1.bitcnt = r.bitcnt ∧ (rxExec p i r n).1.sr = r.sr ∧
      ((rxExec p i r n).1.ddram = r.ddram ∨
        ∃ d, i = .data d ∧ r.addressed p = true ∧ (rxExec p i r n).1.ddram = r.ddram.write (r.cell p) d)) := by
  have lost : ∀ n, (rxLose n).1.undef = true ∧ (rxLose n).1.ddram = [] := fun _ => ⟨rfl, rfl⟩
  cases i with
  | setx x => cases hh : r.h <;> simp only [rxExec, hh, rxColumn] <;> (try split) <;> simp [hu, lost]
  | setvop x => cases hh : r.h <;> simp only [rxExec, hh, rxColumn] <;> (try split) <;> simp [hu, lost]
  | sety y => cases hh : r.h <;> simp only [rxExec, hh, rxBand] <;> (try split) <;> simp [hu, lost]
  | data d =>
    simp only [rxExec, rxData]
    split
    · next ha => exact .inr ⟨hu, rfl, rfl, .inr ⟨d, rfl, ha, rfl⟩⟩
    · exact .inl (lost n)
  | dispNormal => cases hh : r.h <;> simp [rxExec, hh, hu]
  | dispInverse => cases hh : r.h <;> simp [rxExec, hh, hu]
  | vopZero => cases hh : r.h <;> simp [rxExec, hh, hu, lost]
  | settc => cases hh : r.h <;> simp [rxExec, hh, hu, lost]
  | setbias => cases hh : r.h <;> simp [rxExec, hh, hu, lost]
  | fsetExt => simp [rxExec, hu]
  | fsetBasic => simp [rxExec, hu]
  | txb b m => simp [rxExec, hu]
  | wrb m b => simp [rxExec, hu]
  | init => simp [rxExec, hu]
  | contrast l => simp [rxExec, hu]
  | goto x y => simp [rxExec, hu]
  | clear => simp [rxExec, hu]
  | image => simp [rxExec, hu]
  | char ch => simp [rxExec, hu]
  | text k => simp [rxExec, hu]
  | pad k => simp [rxExec, hu]
  | border => simp [rxExec, hu]

/-- The same of a completed frame, its word decoded. -/
theorem rxTake_cases (p : Params) (m : Mode) (b : Byte) (r : Rx) (n : Nat) (hu : r.undef = false) :
    ((rxTake p m b r n).1.undef = true ∧ (rxTake p m b r n).1.ddram = []) ∨
    ((rxTake p m b r n).1.undef = false ∧ (rxTake p m b r n).1.bitcnt = r.bitcnt ∧
      ((rxTake p m b r n).1.ddram = r.ddram ∨
        m = .data ∧ r.addressed p = true ∧ (rxTake p m b r n).1.ddram = r.ddram.write (r.cell p) b)) := by
  unfold rxTake
  split
  · next i hd =>
    rcases rxExec_cases p i r n hu with h | ⟨h1, h2, -, h3⟩
    · exact .inl h
    · refine .inr ⟨h1, h2, h3.imp_right ?_⟩
      rintro ⟨d, rfl, ha, hw⟩
      cases m with
      | data => simp only [decodeFrame, Except.ok.injEq, Instr.data.injEq] at hd; subst hd; exact ⟨rfl, ha, hw⟩
      | command =>
        simp only [decodeFrame, decodeCommand] at hd
        cases hh : r.h <;> simp only [hh] at hd <;> (repeat' split at hd) <;> simp at hd
  · exact .inl ⟨rfl, rfl⟩

/-- What a pin write does at the receiver: nothing; a reset pulse; the defined state lost (or never there); the end of a bracket; a sample that is
not the eighth; a frame taken. -/
theorem rxDeliver_cases (p : Params) (k oe : Bool) (q : Pins) (pin : Pin) (old v : Level) (r : Rx) (n : Nat) :
    (rxDeliver p k oe q pin old v r n = (r, n) ∧
      (oe = false ∨ (¬ (pin = .rst ∧ v = false) ∧ r.undef = false ∧ ¬ (pin = .cs ∧ v = true)))) ∨
    (oe = true ∧ pin = .rst ∧ v = false ∧ rxDeliver p k oe q pin old v r n = (Rx.drawn n 0 false, n + 1)) ∨
    (oe = true ∧ (r.undef = true ∨ k = true) ∧ rxDeliver p k oe q pin old v r n = rxLose n) ∨
    (oe = true ∧ r.undef = false ∧ pin = .cs ∧ v = true ∧ rxDeliver p k oe q pin old v r n = ({ r with bitcnt := 0 }, n)) ∨
    (oe = true ∧ r.undef = false ∧ pin = .clk ∧ v = true ∧ old = false ∧ q.cs = false ∧ r.bitcnt ≠ 7 ∧
      rxDeliver p k oe q pin old v r n = ({ r with sr := shiftIn r.sr q.din, bitcnt := r.bitcnt + 1 }, n)) ∨
    (oe = true ∧ r.undef = false ∧ pin = .clk ∧ v = true ∧ old = false ∧ q.cs = false ∧ r.bitcnt = 7 ∧ k = false ∧
      rxDeliver p k oe q pin old v r n = rxTake p (pinMode p q) (shiftIn r.sr q.din)
        { r with sr := shiftIn r.sr q.din, bitcnt := 0 } n) := by
  unfold rxDeliver
  split
  · next h => exact .inl ⟨rfl, .inl h⟩
  · next ho =>
    simp only [Bool.not_eq_false] at ho
    split
    · next h => exact .inr (.inl ⟨ho, h.1, h.2, rfl⟩)
    · next hp =>
      split
      · next hu => exact .inr (.inr (.inl ⟨ho, .inl hu, rfl⟩))
      · next hu =>
        simp only [Bool.not_eq_true] at hu
        split
        · next h => exact .inr (.inr (.inr (.inl ⟨ho, hu, h.1, h.2, rfl⟩)))
        · next hc =>
          split
          · next h =>
            obtain ⟨h1, h2, h3, -, h5⟩ := h
            unfold rxSample
            split
            · next hb =>
              split
              · next hk => exact .inr (.inr (.inl ⟨ho, .inr hk, rfl⟩))
              · next hk => exact .inr (.inr (.inr (.inr (.inr ⟨ho, hu, h1, h2, h3, h5, hb, by simpa using hk, rfl⟩))))
            · next hb => exact .inr (.inr (.inr (.inr (.inl ⟨ho, hu, h1, h2, h3, h5, hb, rfl⟩))))
          · exact .inl ⟨rfl, .inr ⟨hp, hu, hc⟩⟩

/-- The receiver's memory keeps its canonical form. -/
theorem rxDeliver_wf {p : Params} {r : Rx} (h : r.ddram.wf p.ncell = true) (k oe : Bool) (q : Pins) (pin : Pin) (old v : Level)
    (n : Nat) : (rxDeliver p k oe q pin old v r n).1.ddram.wf p.ncell = true := by
  rcases rxDeliver_cases p k oe q pin old v r n with ⟨e, -⟩ | ⟨-, -, -, e⟩ | ⟨-, -, e⟩ | ⟨-, -, -, -, e⟩ | ⟨-, -, -, -, -, -, -, e⟩ |
    ⟨-, hu, -, -, -, -, -, -, e⟩ <;> rw [e]
  · exact h
  · exact Memory.wf_nil _
  · exact Memory.wf_nil _
  · exact h
  · exact h
  · rcases rxTake_cases p (pinMode p q) (shiftIn r.sr q.din) { r with sr := shiftIn r.sr q.din, bitcnt := 0 } n hu with
      ⟨-, h1⟩ | ⟨-, -, h1 | ⟨-, ha, h1⟩⟩ <;> rw [h1]
    · exact Memory.wf_nil _
    · exact h
    · exact Memory.wf_write _ (cell_lt ha) h

/-- A receiver without a defined state keeps having none, but for a pulse of the reset line. -/
theorem Link.run_lost {p : Params} {L : List Event} {l : Link} (hu : l.rx.undef = true) (hL : Event.set .rst false ∉ L) :
    (l.run p L).rx.undef = true := by
  induction L generalizing l with
  | nil => exact hu
  | cons e L ih =>
    rw [Link.run_cons]
    refine ih ?_ fun hc => hL (by simp [hc])
    cases e with
    | hold d => exact hu
    | cfg => exact hu
    | set pin v =>
      have hp : ¬ (pin = .rst ∧ v = false) := by rintro ⟨rfl, rfl⟩; simp at hL
      simp only [Link.event, rxDeliver, if_neg hp, hu, if_true]
      split
      · exact hu
      · rfl

theorem wrbTrace_quiet (p : Params) (m : Mode) (b : Byte) (v : Level) : Event.set .rst v ∉ wrbTrace p m b := by
  simp [wrbTrace, txbTrace, bitOrder, bitTrace]

/-- A frame that costs the receiver its defined state: one of a GOTO to no cell, or one without a defined effect (R108, R154). -/
theorem Link.run_wrb_lost {p : Params} {m : Mode} {b : Byte} {l : Link} (hoe : l.oe = true) (hr : l.pins.rst = true)
    (hk : l.pins.clk = false) (hu : l.rx.undef = false) (hb : l.rx.bitcnt = 0#3)
    (hx : l.stray = true ∨ (rxTake p m b { l.rx with sr := b, bitcnt := 0 } (l.n + 23)).1.undef = true) :
    (l.run p (wrbTrace p m b)).rx.undef = true := by
  rw [wrbTrace_split, Link.run_append]
  refine Link.run_lost ?_ (by simp [wrbTail])
  rw [Link.run_wrbHead p m b l hoe hr hk hu hb _ rfl]
  cases hs : l.stray
  · simpa [rxTaken, hs] using hx
  · simp [rxTaken, rxLose, Rx.drawn]

/-- Every GOTO to no cell costs the receiver its defined state. -/
theorem Link.run_goto_lost {p : Params} {l : Link} (hoe : l.oe = true) (hr : l.pins.rst = true) (hk : l.pins.clk = false)
    (hu : l.rx.undef = false) (hb : l.rx.bitcnt = 0#3) (hs : l.stray = true) (x y : Byte) :
    (l.run p (gotoTrace p x y)).rx.undef = true := by
  rw [gotoTrace, Link.run_append]
  exact Link.run_lost (Link.run_wrb_lost hoe hr hk hu hb (.inl hs)) (wrbTrace_quiet _ _ _ _)

end Sys2Proof.Machine
end

