-- ==== Sys2Proof/Laws/Steps.lean ====
section
/-! SUPPORT. Everything a step can do, said once: proofs over all steps cite `step_cases` and `blockStep_cases`. -/

namespace Sys2Proof.Machine

/-- What decoding a request word gives is a request. -/
theorem decodeRequest_isRequest {w : BitVec 20} {i : Instr} (h : decodeRequest w = .ok i) : ∃ w', encode i = .request w' := by
  simp only [decodeRequest] at h
  repeat' split at h
  all_goals first | (cases h; exact ⟨_, rfl⟩) | cases h

/-- The trace does not see `done`, the hold counters, the pins, the host's queues. -/
theorem State.startHold_trace (d : Nat) (s : State) : (s.startHold d).trace = s.trace := State.trace_congr rfl rfl rfl
theorem State.advance_trace (e : Event) (s : State) : (s.advance e).trace = s.trace := State.trace_congr rfl rfl rfl
theorem State.setPin_trace (p : Pin) (v : Level) (s : State) : (s.setPin p v).trace = s.trace := State.trace_congr rfl rfl rfl
theorem State.enable_trace (s : State) : s.enable.trace = s.trace := State.trace_congr rfl rfl rfl

/-- Everything the block can do in a step (R15). -/
theorem blockStep_cases {s t : State} (h : blockStep s = .next t) :
    (s.busy = false ∧ s.requests = [] ∧ t = s) ∨
    (s.busy = false ∧ ∃ w ws i, s.requests = w :: ws ∧ decodeRequest w = .ok i ∧ t = State.taken i w { s with requests := ws }) ∨
    (s.busy = false ∧ ∃ w ws r, s.requests = w :: ws ∧ decodeRequest w = .error r ∧
      t = (State.accept w { s with requests := ws }).setIll) ∨
    (s.busy = true ∧ s.upc = s.trace.length ∧ t = s.complete) ∨
    (s.busy = true ∧ ∃ d, s.trace[s.upc]? = some (.hold d) ∧ t = holdStep d s) ∨
    (s.busy = true ∧ s.trace[s.upc]? = some .cfg ∧ t = s.enable) ∨
    (s.busy = true ∧ ∃ p v, s.trace[s.upc]? = some (.set p v) ∧
      t = (s.setPin p v).withRx (rxDeliver s.params (gotoStrays s.params s.req) s.oe (s.pins.put p v) p (s.pins.get p) v s.rx s.freeCtr)) := by
  unfold blockStep at h
  by_cases hb : s.busy = true
  case neg =>
    have hb' : s.busy = false := by simpa using hb
    rw [if_neg hb] at h
    split at h
    · next hr => cases h; exact .inl ⟨hb', hr, rfl⟩
    · next w ws hr =>
      unfold acceptRequest at h
      split at h
      · next i hd =>
        obtain ⟨w', he⟩ := decodeRequest_isRequest hd
        rw [exec_request (s := { s with requests := ws }) he hb'] at h
        cases h
        exact .inr (.inl ⟨hb', w, ws, i, hr, hd, rfl⟩)
      · next r hd => cases h; exact .inr (.inr (.inl ⟨hb', w, ws, r, hr, hd, rfl⟩))
  case pos =>
    rw [if_pos hb] at h
    split at h
    · next e he =>
      cases e with
      | hold d => cases h; exact .inr (.inr (.inr (.inr (.inl ⟨hb, d, he, rfl⟩))))
      | cfg => cases h; exact .inr (.inr (.inr (.inr (.inr (.inl ⟨hb, he, rfl⟩)))))
      | set p v =>
        rw [eventStep, deliver_eq] at h
        cases h
        exact .inr (.inr (.inr (.inr (.inr (.inr ⟨hb, p, v, he, rfl⟩)))))
    · split at h
      · next hu => cases h; exact .inr (.inr (.inr (.inl ⟨hb, hu, rfl⟩)))
      · cases h

/-- The state the block steps from: what the host does in the step has been done, and `done` is over. -/
inductive HostStep (s : State) : State → Prop where
  | quiet : s.hostIn = [] → HostStep s { s with done := false }
  | wait (rest : List HostAct) : s.hostIn = .wait :: rest → HostStep s { s with done := false, hostIn := rest }
  | write (i : BitVec 9) (b : Byte) (rest : List HostAct) : s.hostIn = .writeOpb i b :: rest →
      HostStep s (State.hostWrite i b { s with done := false, hostIn := rest })
  | request (w : BitVec 20) (rest : List HostAct) : s.hostIn = .request w :: rest →
      HostStep s { s with done := false, hostIn := rest, requests := s.requests ++ [w] }

/-- Everything a step can be: hardware reset, or a step of the block after the host's action. -/
theorem step_cases {s t : State} (h : step s = .next t) :
    (∃ rest, s.hostIn = .reset :: rest ∧ t = State.hardReset { s with hostIn := rest }) ∨
    ∃ s₁, HostStep s s₁ ∧ blockStep s₁ = .next t := by
  unfold step machineStep at h
  split at h
  · next hq => exact .inr ⟨_, .quiet hq, h⟩
  · next rest hq => exact .inr ⟨_, .wait rest hq, h⟩
  · next rest hq => cases h; exact .inl ⟨rest, hq, rfl⟩
  · next i b rest hq => exact .inr ⟨_, .write i b rest hq, h⟩
  · next w rest hq => exact .inr ⟨_, .request w rest hq, h⟩

/-- What the host's action leaves alone. -/
theorem HostStep.frame {s s₁ : State} (h : HostStep s s₁) :
    s₁.params = s.params ∧ s₁.req = s.req ∧ s₁.pins = s.pins ∧ s₁.oe = s.oe ∧ s₁.upc = s.upc ∧ s₁.busy = s.busy ∧ s₁.hcnt = s.hcnt ∧
      s₁.holding = s.holding ∧ s₁.stall = s.stall ∧ s₁.ill = s.ill ∧ s₁.ctrl = s.ctrl ∧ s₁.rx = s.rx ∧ s₁.log = s.log ∧
      s₁.done = false := by
  cases h with
  | quiet _ => simp
  | wait _ _ => simp
  | request _ _ _ => simp
  | write i b rest _ =>
    obtain ⟨m, n, hf⟩ := State.hostWrite_fields i b { s with done := false, hostIn := rest }
    rw [hf]; simp

/-- A machine that no host drives is driven by none later, and once idle it stays idle (R191). -/
theorem step_undriven {s t : State} (hr : s.requests = []) (hq : s.hostIn = []) (h : step s = .next t) :
    t.requests = [] ∧ t.hostIn = [] ∧ (s.busy = false → t.busy = false) := by
  rw [step_quiet hq] at h
  rcases blockStep_cases h with ⟨-, -, rfl⟩ | ⟨-, w, ws, i, hw, -⟩ | ⟨-, w, ws, r, hw, -⟩ | ⟨-, -, rfl⟩ | ⟨hb, d, -, rfl⟩ |
    ⟨hb, -, rfl⟩ | ⟨hb, p, v, -, rfl⟩
  · exact ⟨hr, hq, id⟩
  · rw [show s.requests = _ from hw] at hr; cases hr
  · rw [show s.requests = _ from hw] at hr; cases hr
  · exact ⟨hr, hq, fun _ => rfl⟩
  · have hb' : s.busy = true := hb
    unfold holdStep
    split_ifs <;> exact ⟨hr, hq, fun h => absurd (hb'.symm.trans h) (by simp)⟩
  · exact ⟨hr, hq, fun h => absurd ((show s.busy = true from hb).symm.trans h) (by simp)⟩
  · exact ⟨hr, hq, fun h => absurd ((show s.busy = true from hb).symm.trans h) (by simp)⟩

theorem stepN_undriven {n : Nat} {s t : State} (hr : s.requests = []) (hq : s.hostIn = []) (h : stepN n s = .next t) :
    t.requests = [] ∧ t.hostIn = [] ∧ (s.busy = false → t.busy = false) := by
  induction n generalizing s with
  | zero => cases h; exact ⟨hr, hq, id⟩
  | succ n ih =>
    simp only [stepN] at h
    split at h
    · next u hu =>
      obtain ⟨h1, h2, h3⟩ := step_undriven hr hq hu
      obtain ⟨g1, g2, g3⟩ := ih h1 h2 h
      exact ⟨g1, g2, fun hb => g3 (h3 hb)⟩
    · cases h
    · cases h

end Sys2Proof.Machine
end

