-- ==== Sys2Proof/Tests/Slice0.lean ====
section
/-! SUPPORT. Small tests, their expected results written out from the spec (mostly spec/95_test_vectors.md), and for every statement
with hypotheses a named witness: a concrete state and operands that meet all of them together. -/

namespace Sys2Proof.Tests

open Sys2Proof Sys2Proof.Machine

/-! ### Helpers -/

/-- A field of the next state, if there is one. -/
def after {α : Type} (f : State → α) : Host.Outcome State Fault Refusal → Option α
  | .next t => some (f t)
  | .fault _ => none
  | .refused _ => none

/-- The receiver of spec/95_test_vectors.md section 2.8: BASIC, address (5, 1), voltage 0x31. -/
def rx0 : Rx where
  h := .basic
  addrMode := .horizontal
  display := .normal
  vop := 0x31
  tc := 0x04
  bias := 0x14
  x := 5
  y := 1
  sr := 0
  bitcnt := 0
  ddram := []
  undef := false

/-- An idle block whose lines are driven, with that receiver. -/
def settled : State := { State.reset with oe := true, ctrl := .normalMode, rx := rx0 }

/-- The same with the receiver in EXTENDED. -/
def extended : State := settled.setRx { rx0 with h := .extended }

/-- The same at an address. -/
def settledAt (x : BitVec 7) (y : BitVec 3) : State := settled.setRx { rx0 with x := x, y := y }

/-- A block that has never had an INIT, and holds an operand byte. -/
def unpowered : State := { State.reset with opb := [(0, 0x41)] }

/-- The block of `settled` with an operation in progress: the request word, and how far it is. -/
def running (w : BitVec 20) (upc : Nat) : State := { settled with busy := true, req := w, upc := upc }

/-! ### WellFormed: an ill-formed term for each check (R206, R144, R145) -/

theorem test_wf_wrb_band_six : (Instr.wrb .command 0x46).wf = false := by decide
theorem test_wf_wrb_outside_table : (Instr.wrb .command 0x01).wf = false := by decide
theorem test_wf_wrb_in_table : (Instr.wrb .command 0x45).wf = true := by decide
theorem test_wf_contrast_eight_bits : (Instr.contrast 0x80).wf = false := by decide
theorem test_wf_goto_column : (Instr.goto 84 0).wf = false := by decide
theorem test_wf_goto_band : (Instr.goto 0 6).wf = false := by decide
theorem test_wf_goto_last : (Instr.goto 83 5).wf = true := by decide
theorem test_wf_setx : (Instr.setx 84).wf = false := by decide
theorem test_wf_sety : (Instr.sety 6).wf = false := by decide

/-! ### Decoding: words written out from the spec's encodings (R61, R62, R68, R74) -/

/-- V2: `TXB 0x21, MSB`; only bit 0 of `b` is read. -/
theorem test_decode_txb : decodeRequest 0b0001_00100001_00000001 = .ok (.txb 0x21 true) ∧
    decodeRequest 0b0001_00100001_11111110 = .ok (.txb 0x21 false) := by decide
/-- V3, V16d, V4. -/
theorem test_decode_wrb : decodeRequest 0b0010_00100001_00000000 = .ok (.wrb .command 0x21) ∧
    decodeRequest 0x221FE = .ok (.wrb .command 0x21) ∧ decodeRequest 0x27E01 = .ok (.wrb .data 0x7E) := by decide
/-- P1, V16c. -/
theorem test_decode_init : decodeRequest 0b0011_00000000_00000000 = .ok .init ∧ decodeRequest 0x3ABCD = .ok .init := by decide
/-- V9d. -/
theorem test_decode_contrast : decodeRequest 0b0100_01111111_00000000 = .ok (.contrast 0x7F) := by decide
/-- V7. -/
theorem test_decode_goto : decodeRequest 0b0101_01010011_00000101 = .ok (.goto 83 5) := by decide
theorem test_decode_clear : decodeRequest 0b0110_00000000_00000000 = .ok .clear := by decide
theorem test_decode_image : decodeRequest 0b0111_00000000_00000000 = .ok .image := by decide
/-- V10. -/
theorem test_decode_char : decodeRequest 0b1000_01000001_00000000 = .ok (.char 0x41) := by decide
/-- V11. -/
theorem test_decode_text : decodeRequest 0b1001_00000011_00000000 = .ok (.text 3) := by decide
/-- V11d. -/
theorem test_decode_pad : decodeRequest 0b1010_00001100_00000000 = .ok (.pad 12) := by decide
theorem test_decode_border : decodeRequest 0b1011_00000000_00000000 = .ok .border := by decide
/-- V16, V16b. -/
theorem test_decode_reserved : decodeRequest 0x00000 = .error (.reservedOpcode 0) ∧
    decodeRequest 0xC1234 = .error (.reservedOpcode 0xC) := by decide

theorem test_decode_fsetExt : decode .basic (.frame 0b0_00100001) = .ok .fsetExt ∧
    decode .extended (.frame 0b0_00100001) = .ok .fsetExt := by decide
theorem test_decode_fsetBasic : decode .extended (.frame 0b0_00100000) = .ok .fsetBasic := by decide
/-- R144's example: 0x8A is column 10. -/
theorem test_decode_setx : decode .basic (.frame 0b0_10001010) = .ok (.setx 10) := by decide
/-- R145's example: 0x42 is band 2. -/
theorem test_decode_sety : decode .basic (.frame 0b0_01000010) = .ok (.sety 2) ∧
    decode .extended (.frame 0b0_01000010) = .error (.outsideTable .extended 0x42) := by decide
theorem test_decode_dispNormal : decode .basic (.frame 0b0_00001100) = .ok .dispNormal := by decide
theorem test_decode_dispInverse : decode .extended (.frame 0b0_00001101) = .ok .dispInverse := by decide
/-- Section 2.8 step 4: 0xC8 in EXTENDED is voltage 0x48. -/
theorem test_decode_setvop : decode .extended (.frame 0b0_11001000) = .ok (.setvop 0x48) := by decide
theorem test_decode_vopZero : decode .extended (.frame 0b0_00000000) = .ok .vopZero ∧
    decode .basic (.frame 0b0_00000000) = .error (.outsideTable .basic 0) := by decide
theorem test_decode_settc : decode .extended (.frame 0b0_00000100) = .ok .settc := by decide
theorem test_decode_setbias : decode .extended (.frame 0b0_00010100) = .ok .setbias := by decide
theorem test_decode_data : decode .basic (.frame 0b1_10101010) = .ok (.data 0xAA) := by decide

/-- The host's numbering: a request of 20 bits, a frame of 9, each in whole bytes too. -/
theorem test_tableWord : decodeTableWord 20 0x50A02 = some (.goto 10 2) ∧ decodeTableWord 24 0x30000 = some .init ∧
    decodeTableWord 9 0x1AA = some (.data 0xAA) ∧ decodeTableWord 16 0x004 = some .settc ∧
    decodeTableWord 20 0xC0000 = none := by decide

/-! ### Placing an instruction before the next step -/

theorem test_fetch_request : after (fun t => (t.busy, t.req, t.upc)) (step (State.reset.withFetchWord 20 0x50A02)) =
    some (true, 0x50A02, 0) := by decide
theorem test_fetch_frame : after (fun t => t.rx.h) (step (State.reset.withFetchWord 9 0x021)) = some .extended := by decide
theorem test_fetch_data : after (fun t => t.rx.ddram) (step (State.reset.withFetchWord 9 0x1AA)) = some [(0, 0xAA)] := by decide

/-! ### Traces -/

/-- V1: the first two bits and the tail of `TXB 0x21, LSB`. -/
theorem test_txb_trace : (txbTrace Params.default 0x21 false).take 14 =
    [.hold 14, .set .clk false, .set .din true, .hold 14, .set .clk true, .hold 14, .set .clk false,
     .hold 14, .set .clk false, .set .din false, .hold 14, .set .clk true, .hold 14, .set .clk false] ∧
    (txbTrace Params.default 0x21 false).drop 56 = [.hold 28] := by decide
/-- V3: both ends of `WRB C, 0x21`. -/
theorem test_wrb_trace : (wrbTrace Params.default .command 0x21).take 5 =
    [.set .dc false, .set .cs false, .hold 14, .set .clk false, .set .din false] ∧
    (wrbTrace Params.default .command 0x21).drop 51 =
    [.hold 14, .set .clk false, .set .din true, .hold 14, .set .clk true, .hold 14, .set .clk false,
     .hold 28, .set .cs true, .hold 14] := by decide
/-- P1: events 0 to 11 of INIT. -/
theorem test_init_trace : initStep1 Params.default ++ initPulse Params.default =
    [.cfg, .set .rst true, .set .cs true, .set .dc true, .set .din false, .set .clk false, .set .aux true,
     .hold 10000, .set .rst false, .hold 42, .set .rst true, .hold 10000] := by decide
/-- S6, V9b, V9e: the bytes of CONTRAST. -/
theorem test_contrast_bytes : adj 0x20 = 0xA0 ∧ adj 0 = 0x00 ∧ adj 0x80 = 0x80 ∧ adj 0xFF = 0xFF := by decide
/-- V7, V8d: the bytes of GOTO. -/
theorem test_goto_bytes : colCmd 83 = 0xD3 ∧ bandCmd 5 = 0x45 ∧ bandCmd 0x80 = 0xC0 ∧ colCmd 0x90 = 0x90 := by decide
/-- V10, S7: the bytes of `CHAR 'A'`. -/
theorem test_char_bytes : charBytes 0x41 = [0x00, 0x7E, 0x11, 0x11, 0x11, 0x7E, 0x00] := by decide
/-- V10b: nothing for a newline. -/
theorem test_char_newline : charTrace Params.default 0x0A = [] := by decide
/-- V11: `TEXT 3` over 'A', newline, 'A'. -/
theorem test_text_bytes : textBytes [(0, 0x41), (1, 0x0A), (2, 0x41)] 3 =
    [0x00, 0x7E, 0x11, 0x11, 0x11, 0x7E, 0x00, 0x00, 0x7E, 0x11, 0x11, 0x11, 0x7E, 0x00] := by decide
/-- V11c. -/
theorem test_pad_zero : padTrace Params.default 0 = [] := by decide
/-- A display of two columns and two bands. -/
def small : Params := { Params.default with cols := 2, bands := 2 }

/-- R120 on the small display: C 0x80, C 0x40, then four times D 0x00. -/
theorem test_clear : clearTrace small = wrbTrace small .command 0x80 ++ wrbTrace small .command 0x40 ++
    ([0, 0, 0, 0] : List Byte).flatMap (wrbTrace small .data) := by
  simp [clearTrace, gotoTrace, Params.ncell, small, List.range_succ, colCmd, bandCmd, cmdTrace, datTrace]
/-- R121 on the small display: C 0x80, C 0x40, then the bytes of OPB in order. -/
theorem test_image_order : imageTrace small [(0, 0x54), (1, 0xF7), (2, 0x00), (3, 0x01)] =
    wrbTrace small .command 0x80 ++ wrbTrace small .command 0x40 ++
      ([0x54, 0xF7, 0x00, 0x01] : List Byte).flatMap (wrbTrace small .data) := by
  simp [imageTrace, gotoTrace, Params.ncell, small, List.range_succ, opbByte, Memory.read, colCmd, bandCmd, cmdTrace, datTrace]
/-- R126 on the small display: top, bottom, left, right, each in ascending coordinate. -/
theorem test_border_order : borderTrace small =
    borderPair small 0 0 0x01 ++ (borderPair small 1 0 0x01 ++ (borderPair small 0 1 0x80 ++ (borderPair small 1 1 0x80 ++
    (borderPair small 0 0 0xFF ++ (borderPair small 0 1 0xFF ++ (borderPair small 1 0 0xFF ++ borderPair small 1 1 0xFF)))))) := by
  simp [borderTrace, small, List.range_succ]
/-- V15: the last three frames of BORDER are C 0xD3, C 0x45, D 0xFF. -/
theorem test_border_pair : borderPair Params.default 83 5 0xFF =
    wrbTrace Params.default .command 0xD3 ++ wrbTrace Params.default .command 0x45 ++ wrbTrace Params.default .data 0xFF := by
  simp [borderPair, gotoTrace, colCmd, bandCmd, cmdTrace, datTrace]

/-! ### Steps -/

/-- R104: INIT's acceptance brings CTRL_STATE to RESET. -/
theorem test_init_accepted : after (fun t => (t.ctrl, t.busy)) (exec .init State.reset) = some (.reset, true) := by decide
/-- R101: the first event of INIT enables the outputs. -/
theorem test_init_cfg : after (fun t => (t.oe, t.log)) (step { State.reset with busy := true, req := 0x30000, ctrl := .reset }) =
    some (true, [.cfg]) := by decide
/-- R152: the reset pulse of INIT. -/
theorem test_init_pulse : after (fun t => (t.rx.undef, t.rx.bitcnt, t.pins.rst))
    (step { State.reset with busy := true, req := 0x30000, upc := 8, oe := true, ctrl := .reset }) = some (false, 0, false) := by
  decide
/-- V4: `WRB D, 0xFF` opens its bracket. -/
theorem test_wrb_step : after (fun t => (t.pins.dc, t.pins.cs)) (step (running 0x2FF01 1)) = some (true, false) := by decide
/-- R15 (c): the end of an operation, here of `CHAR 0x0A`. -/
theorem test_char_skipped : after (fun t => (t.busy, t.done, t.log)) (step (running 0x80A00 0)) = some (false, true, []) := by
  decide
/-- V16: a reserved opcode sets ILL. -/
theorem test_reserved : after (fun t => (t.ill, t.req)) (step { settled with requests := [0xC1234] }) = some (true, 0xC1234) := by
  decide
/-- R190: hardware reset in the middle of a frame. -/
theorem test_hardware_reset : after (fun t => (t.busy, t.oe, t.ctrl)) (step { running 0x2FF01 20 with hostIn := [.reset] }) =
    some (false, false, .unpowered) := by decide
/-- U9: after hardware reset BITCNT is 0. -/
theorem test_hardware_reset_bitcnt : after (fun t => (t.rx.undef, t.rx.bitcnt))
    (step { settled with hostIn := [.reset], rx := { rx0 with bitcnt := 5 } }) = some (true, 0) := by decide
/-- V8c: `GOTO 0x90, 0` at its column frame's last bit. On the wire 0x90 is column 16, but R108 gives the receiver no address. -/
theorem test_goto_strays : after (fun t => t.rx.undef)
    (step { running 0x59000 55 with rx := { rx0 with sr := 0x48, bitcnt := 7 }, pins := { Pins.reset with cs := false, dc := false } }) =
    some true := by decide
/-- V8d, V8b, V7: which words stray. -/
theorem test_strays : gotoStrays Params.default 0x50080 = true ∧ gotoStrays Params.default 0x50006 = true ∧
    gotoStrays Params.default 0x55400 = true ∧ gotoStrays Params.default 0x55305 = false ∧
    gotoStrays Params.default 0x29000 = false := by decide
/-- `TEXT 2` over newline, 'A': the newline's byte is read with the byte after it, both at UPC 0. -/
theorem test_opb_addr : ({ running 0x90200 0 with opbAcc := [(0, 0x0A), (1, 0x41)] } : State).offset 0 = some 0 ∧
    ({ running 0x90200 0 with opbAcc := [(0, 0x0A), (1, 0x41)] } : State).offset 1 = some 0 ∧
    ({ running 0x90200 0 with opbAcc := [(0, 0x0A), (1, 0x41)] } : State).offset 2 = none := by decide
/-- R47: the topmost pixel of a band's byte 0x01, in both display modes. -/
theorem test_lit : (settled.setRx { rx0 with ddram := [(89, 0x01)] }).lit 5 8 = some true ∧
    (settled.setRx { rx0 with ddram := [(89, 0x01)], display := .inverse }).lit 5 8 = some false ∧
    (settled.setRx { rx0 with ddram := [(89, 0x01)] }).lit 5 15 = some false := by decide
/-- R20: `done` lasts one cycle. -/
theorem test_done_pulse : after (fun t => t.done) (step { settled with done := true }) = some false := by decide

/-! ### Frames at the receiver: spec/95_test_vectors.md section 2.8 -/

/-- Step 1: D 0xAA at (5, 1). -/
theorem test_data : after (fun t => (t.rx.ddram, t.rx.x, t.rx.y)) (exec (.data 0xAA) settled) = some ([(89, 0xAA)], 6, 1) := by decide
/-- Step 10: D 0x80 at (83, 5). -/
theorem test_data_last : after (fun t => (t.rx.ddram, t.rx.x, t.rx.y)) (exec (.data 0x80) (settledAt 83 5)) =
    some ([(503, 0x80)], 0, 0) := by decide
/-- Step 2. -/
theorem test_fsetExt : after (fun t => t.rx.h) (exec .fsetExt settled) = some .extended := by decide
/-- Step 3: display control in EXTENDED. -/
theorem test_disp_extended : after (fun t => t.rx.display) (exec .dispInverse extended) = some .normal := by decide
/-- Step 4. -/
theorem test_setvop : after (fun t => (t.rx.vop, t.rx.x)) (exec (.setvop 0x48) extended) = some (0x48, 5) := by decide
/-- Step 6. -/
theorem test_fsetBasic : after (fun t => (t.rx.h, t.rx.addrMode)) (exec .fsetBasic extended) = some (.basic, .horizontal) := by decide
/-- Step 7. -/
theorem test_dispInverse : after (fun t => t.rx.display) (exec .dispInverse settled) = some .inverse := by decide
theorem test_dispNormal : after (fun t => t.rx.display) (exec .dispNormal (settled.setRx { rx0 with display := .inverse })) =
    some .normal := by decide
/-- Step 8. -/
theorem test_setx : after (fun t => (t.rx.x, t.rx.y)) (exec (.setx 83) settled) = some (83, 1) := by decide
theorem test_sety : after (fun t => (t.rx.x, t.rx.y)) (exec (.sety 5) settled) = some (5, 5) := by decide
/-- Step 11: C 0x47 is band 7. -/
theorem test_sety_undefined : after (fun t => t.rx.undef) (exec (.sety 7) settled) = some true := by decide
/-- V8: column 84. -/
theorem test_setx_undefined : after (fun t => t.rx.undef) (exec (.setx 84) settled) = some true := by decide
/-- R149. -/
theorem test_settc : after (fun t => (t.rx.tc, t.rx.bias)) (exec .settc extended) = some (0x04, 0x14) := by decide
theorem test_setbias : after (fun t => t.rx.bias) (exec .setbias (extended.setRx { rx0 with h := .extended, bias := 0 })) =
    some 0x14 := by decide
/-- R154: the byte 0x00 in BASIC. -/
theorem test_vopZero_basic : after (fun t => t.rx.undef) (exec .vopZero settled) = some true := by decide
theorem test_vopZero_extended : after (fun t => (t.rx.undef, t.rx.x)) (exec .vopZero extended) = some (false, 5) := by decide

/-! ### Witnesses: a state and operands that meet a statement's hypotheses, clause by clause -/

theorem settled_inv : Inv settled := by constructor <;> decide
theorem settled_ready : Ready settled := ⟨settled_inv, rfl, rfl⟩
theorem settled_listening : Listening settled := ⟨settled_ready, rfl, rfl⟩
theorem unpowered_inv : Inv unpowered := by constructor <;> decide
theorem unpowered_ready : Ready unpowered := ⟨unpowered_inv, rfl, rfl⟩
/-- `TXB 0xA5, MSB` just accepted. -/
theorem running_inv : Inv (running 0x1A501 0) := by constructor <;> decide

theorem witness_DecodeOfEncode : (Instr.txb 0xA5 true).appliesIn .basic = true ∧ (Instr.setx 127).appliesIn .basic = true ∧
    (Instr.setvop 127).appliesIn .extended = true := by decide
theorem witness_EncodeOfDecodedFrame : decode .basic (.frame 0x08A) = .ok (.setx 10) ∧
    decode .extended (.frame 0x08A) = .ok (.setvop 10) := by decide
theorem witness_UnusedBitsIgnored : (reqOp 0x30000 = reqOp 0x3ABCD ∧ reqOp 0x30000 = 0x3) ∧
    (reqOp 0x400FF = reqOp 0x40000 ∧ reqOp 0x400FF = 0x4 ∧ reqA 0x400FF = reqA 0x40000) ∧
    (reqOp 0x221FE = reqOp 0x22100 ∧ reqOp 0x221FE = 0x2 ∧ reqA 0x221FE = reqA 0x22100 ∧
      (reqB 0x221FE).getLsbD 0 = (reqB 0x22100).getLsbD 0) := by decide
theorem witness_StepExecutesRequest :
    let s : State := { settled with requests := [0x50A02, 0x84100] }
    s.busy = false ∧ s.hostIn = [] ∧ s.requests = 0x50A02 :: [0x84100] ∧ decodeRequest 0x50A02 = .ok (.goto 10 2) ∧
      settled.requests = [] := by decide
/-- The last bit of a frame under the request word `w`, seven bits in the shift register. -/
def lastBit (w : BitVec 20) (sr : Byte) : State :=
  { running w 55 with rx := { rx0 with sr := sr, bitcnt := 7 }, pins := { Pins.reset with cs := false, dc := false } }
/-- A frame of the table; one outside it (0x08); a frame of `GOTO 0x90, 0`, and of `GOTO 0, 6`. -/
theorem witness_StepExecutesFrame :
    let s := settled.withFrame 0x021
    (s.busy = true ∧ s.hostIn = [] ∧ s.trace[s.upc]? = some (.set .clk true) ∧ s.oe = true ∧ s.pins.rst = true ∧
      s.pins.cs = false ∧ s.pins.clk = false ∧ s.rx.undef = false ∧ s.rx.bitcnt = 7 ∧
      decodeFrame s.rx.h s.frameMode s.shifted = .ok .fsetExt ∧ decodeRequest s.req = .ok (.wrb .command 0x21)) ∧
    (decodeRequest (lastBit 0x55305 0x69).req = .ok (.goto 83 5) ∧ (83 : Byte).toNat < Params.default.cols ∧
      (5 : Byte).toNat < Params.default.bands) ∧
    (∀ t ∈ [lastBit 0x20800 0x04, lastBit 0x59000 0x48, lastBit 0x50006 0x40],
      t.busy = true ∧ t.hostIn = [] ∧ t.trace[t.upc]? = some (.set .clk true) ∧ t.oe = true ∧ t.pins.rst = true ∧
        t.pins.cs = false ∧ t.pins.clk = false ∧ t.rx.undef = false ∧ t.rx.bitcnt = 7) ∧
    decodeFrame (lastBit 0x20800 0x04).rx.h (lastBit 0x20800 0x04).frameMode (lastBit 0x20800 0x04).shifted =
      .error (.outsideTable .basic 0x08) ∧
    (decodeRequest 0x59000 = .ok (.goto 0x90 0) ∧ Params.default.cols ≤ (0x90 : Byte).toNat) ∧
    (decodeRequest 0x50006 = .ok (.goto 0 6) ∧ Params.default.bands ≤ (6 : Byte).toNat) := by
  decide
theorem witness_ReservedOpcodeSetsIll :
    let s : State := { settled with requests := [0x00000] }
    s.busy = false ∧ s.hostIn = [] ∧ s.requests = 0x00000 :: [] ∧ reqOp 0x00000 = 0x0 ∧ 0xC ≤ reqOp 0xC0000 ∧
      0xC ≤ reqOp 0xFFFFF := by decide
theorem witness_PinWriteStep : (running 0x1A501 1).busy = true ∧ (running 0x1A501 1).hostIn = [] ∧
    (running 0x1A501 1).trace[(running 0x1A501 1).upc]? = some (.set .clk false) := by decide
theorem witness_HoldCountsDown :
    let s := running 0x1A501 0
    s.busy = true ∧ s.hostIn = [] ∧ s.trace[s.upc]? = some (.hold 14) ∧ s.holding = false ∧
      ({ s with holding := true, hcnt := 1 } : State).hcnt ≠ 0 ∧ ({ s with holding := true } : State).hcnt = 0 ∧
      ({ s with holding := true } : State).stall = 0 ∧ ({ s with holding := true, hcnt := 1 } : State).trace = s.trace :=
  ⟨by decide, by decide, by decide, by decide, by decide, by decide, by decide, rfl⟩
/-- With a clock of 1 MHz a hold of 14 microseconds lasts at least 14 cycles. -/
theorem witness_HoldIsNeverShorter :
    let s : State := { running 0x1A501 0 with params := { Params.default with clkHz := 1000000 } }
    s.busy = true ∧ s.hostIn = [] ∧ s.holding = false ∧ s.trace[s.upc]? = some (.hold 14) ∧
      14 * 1000000 < 14 * s.params.clkHz + 1000000 := by decide
theorem witness_StatusPort : settled.oe = true ∧ unpowered.oe = false := by decide
theorem witness_HardwareReset : ({ running 0x2FF01 20 with hostIn := [.reset] } : State).hostIn = .reset :: [] := by decide
/-- `TEXT 3` has still to read the byte the host changes. -/
theorem witness_OperandChangedWhileRead : (running 0x90300 0).busy = true ∧ (running 0x90300 0).unread 2 = true := by decide
theorem witness_OperandsReadInOrder : (running 0x90300 0).busy = true ∧ (running 0x90300 0).params.wf = true ∧
    decodeRequest (running 0x90300 0).req = .ok (.text 3) ∧ decodeRequest (running 0x70000 0).req = .ok .image ∧
    decodeRequest (running 0x60000 0).req = .ok .clear := by decide
theorem witness_DataLineStableAroundEdge : ∃ pre post,
    opTrace Params.default [] (.txb 0xA5 true) = pre ++ .set .clk true :: post :=
  ⟨[.hold 14, .set .clk false, .set .din true, .hold 14], _, rfl⟩
theorem witness_OneByteBrackets : Instr.clear ≠ .init ∧ Instr.init = .init := by decide
theorem witness_TracesEndIdle : Inv settled ∧ settled.busy = false := ⟨settled_inv, rfl⟩
theorem witness_DurationTable : Params.default.tUs = 14 ∧ Params.default.tailT = 2 ∧ Params.default.cols = 84 ∧
    Params.default.bands = 6 ∧ isControl 0x41 = false ∧ isControl 0x0A = true ∧ Params.default = Params.default :=
  ⟨rfl, rfl, rfl, rfl, rfl, rfl, rfl⟩
theorem witness_PseudoOperations : isControl 0x7F = false ∧
    ∀ a < small.ncell, opbByte [(0, 0), (1, 0), (2, 0), (3, 0)] a = 0 := by
  refine ⟨by decide, fun a ha => ?_⟩
  have h : a < 4 := ha
  interval_cases a <;> rfl
theorem witness_GlyphSelection : ((0x20 : Byte) ≤ 0x20 ∧ (0x20 : Byte) ≤ 0x7F) ∧ ((0x20 : Byte) ≤ 0x7F ∧ (0x7F : Byte) ≤ 0x7F) ∧
    ¬ ((0x20 : Byte) ≤ 0x1F ∧ (0x1F : Byte) ≤ 0x7F) ∧ ¬ ((0x20 : Byte) ≤ 0x80 ∧ (0x80 : Byte) ≤ 0x7F) := by decide
theorem witness_FunctionSet : settled.rx.undef = false ∧ extended.rx.undef = false ∧ settled.rx.addrMode = .horizontal := by decide
theorem witness_AddressSet : settled.rx.undef = false ∧ settled.rx.h = .basic ∧
    (83 : BitVec 7).toNat < settled.params.cols ∧ settled.params.cols ≤ (84 : BitVec 7).toNat ∧
    (5 : BitVec 3).toNat < settled.params.bands ∧ settled.params.bands ≤ (6 : BitVec 3).toNat := by decide
theorem witness_DisplayControl : settled.rx.undef = false ∧ settled.rx.h = .basic ∧ extended.rx.undef = false ∧
    extended.rx.h = .extended := by decide
theorem witness_VoltageSet : extended.rx.undef = false ∧ extended.rx.h = .extended ∧ settled.rx.undef = false ∧
    settled.rx.h = .basic := by decide
theorem witness_TemperatureAndBias : extended.rx.undef = false ∧ extended.rx.h = .extended := by decide
theorem witness_DataWritesOneCell :
    (settled.rx.undef = false ∧ Addressed settled ∧ settled.rx.x.toNat + 1 < settled.params.cols) ∧
    (Addressed (settledAt 83 2) ∧ (settledAt 83 2).rx.x.toNat + 1 = (settledAt 83 2).params.cols ∧
      (settledAt 83 2).rx.y.toNat + 1 < (settledAt 83 2).params.bands) ∧
    (Addressed (settledAt 83 5) ∧ (settledAt 83 5).rx.x.toNat + 1 = (settledAt 83 5).params.cols ∧
      (settledAt 83 5).rx.y.toNat + 1 = (settledAt 83 5).params.bands ∧ (settledAt 83 5).params.wrapLast = some (0, 0)) := by
  unfold Addressed; decide
theorem witness_UndefinedFrames :
    (encode .fsetExt = .frame 0x021 ∧ unpowered.rx.undef = true) ∧
    (encode .vopZero = .frame 0x000 ∧ encode .settc = .frame 0x004 ∧ encode .setbias = .frame 0x014 ∧ settled.rx.h = .basic) ∧
    (encode (.setx 84) = .frame 0x0D4 ∧ encode (.setvop 84) = .frame 0x0D4 ∧ settled.params.cols ≤ (84 : BitVec 7).toNat) ∧
    (encode (.sety 6) = .frame 0x046 ∧ settled.params.bands ≤ (6 : BitVec 3).toNat) ∧
    (encode (.sety 0) = .frame 0x040 ∧ extended.rx.h = .extended) ∧
    (encode (.data 1) = .frame 0x101 ∧ ¬ Addressed (settledAt 84 0) ∧ (settledAt 84 0).rx.undef = false) := by
  unfold Addressed; decide
/-- DISP_INVERSE meets every clause's condition but its own; DATA, FSET_EXT and SETVOP keep their receiver's defined state too. -/
theorem witness_FrameOfFrames : encode .dispInverse = .frame 0x00D ∧ (∃ t, exec .dispInverse settled = .next t ∧
      t.rx.undef = false) ∧ settled.rx.undef = false ∧ (∀ d, Instr.dispInverse ≠ .data d) ∧
    (∀ x, Instr.dispInverse ≠ .setx x ∧ Instr.dispInverse ≠ .setvop x) ∧ (∀ y, Instr.dispInverse ≠ .sety y) ∧
    (Instr.dispInverse ≠ .fsetExt ∧ Instr.dispInverse ≠ .fsetBasic) ∧ Instr.dispInverse ≠ .vopZero ∧
    (∀ v, Instr.dispInverse ≠ .setvop v ∧ Instr.dispInverse ≠ .setx v) ∧ Instr.dispInverse ≠ .settc ∧
    Instr.dispInverse ≠ .setbias ∧ (Instr.data 0xAA ≠ .dispNormal ∧ Instr.data 0xAA ≠ .dispInverse) ∧
    (∃ t, exec (.data 0xAA) settled = .next t ∧ t.rx.undef = false) ∧
    (∃ t, exec .fsetExt settled = .next t ∧ t.rx.undef = false) ∧ ∃ t, exec (.setvop 0x48) extended = .next t ∧ t.rx.undef = false :=
  ⟨by decide, ⟨_, rfl, rfl⟩, by decide, by simp, by simp, by simp, by simp, by simp, by simp, by simp, by simp, by simp,
    ⟨_, rfl, rfl⟩, ⟨_, rfl, rfl⟩, ⟨_, rfl, rfl⟩⟩
theorem witness_RequestAccepted : encode (.text 3) = .request 0x90300 ∧ settled.busy = false ∧ (running 0x1A501 0).busy = true := by
  decide
theorem witness_EveryRequestCompletes : Ready settled ∧ encode .border = .request 0xB0000 ∧ Ready unpowered ∧
    encode .init = .request 0x30000 := ⟨settled_ready, by decide, unpowered_ready, by decide⟩
theorem witness_TxbCompletes : (Ready settled ∧ settled.rx.undef = false) ∧ Ready unpowered ∧ unpowered.oe = false :=
  ⟨⟨settled_ready, rfl⟩, unpowered_ready, rfl⟩
theorem witness_WrbDeliversItsFrame : Listening settled ∧ decodeFrame settled.rx.h .command 0x21 = .ok .fsetExt ∧
    ∀ n, ∃ v, exec .fsetExt { settled with rx := { settled.rx with sr := 0x21 }, freeCtr := n } = .next v ∧ v.rx.undef = false :=
  ⟨settled_listening, by decide, fun _ => ⟨_, rfl, rfl⟩⟩
/-- A byte outside the table; column 84, bands 6 and 7 by WRB; V8, V8b, V8c, V8d and the last operands by GOTO; the set EXTENDED. -/
theorem witness_OutsideTheTable : (Listening settled ∧
      decodeFrame settled.rx.h .command 0x08 = .error (.outsideTable .basic 0x08)) ∧
    (decodeFrame settled.rx.h .command 0xD4 = .ok (.setx 84) ∧ settled.params.cols ≤ (84 : BitVec 7).toNat) ∧
    (decodeFrame settled.rx.h .command 0x46 = .ok (.sety 6) ∧ decodeFrame settled.rx.h .command 0x47 = .ok (.sety 7) ∧
      settled.params.bands ≤ (6 : BitVec 3).toNat) ∧
    (settled.params.cols ≤ (84 : Byte).toNat ∧ settled.params.cols ≤ (0x90 : Byte).toNat ∧ settled.params.cols ≤ (0xFF : Byte).toNat) ∧
    (settled.params.bands ≤ (6 : Byte).toNat ∧ settled.params.bands ≤ (0x80 : Byte).toNat ∧
      settled.params.bands ≤ (0xFF : Byte).toNat) ∧ Listening extended :=
  ⟨⟨settled_listening, by decide⟩, by decide, by decide, by decide, by decide, ⟨⟨by constructor <;> decide, rfl, rfl⟩, rfl, rfl⟩⟩
theorem witness_GotoCompletes : Listening settled ∧ settled.rx.h = .basic ∧ (83 : Byte).toNat < settled.params.cols ∧
    (5 : Byte).toNat < settled.params.bands := ⟨settled_listening, rfl, by decide, by decide⟩
theorem witness_ContrastCompletes : Listening settled ∧ (0x20 : Byte) ≠ 0 := ⟨settled_listening, by decide⟩
theorem witness_ClearCompletes : Listening settled ∧ settled.rx.h = .basic ∧ settled.rx.addrMode = .horizontal ∧
    503 < settled.params.ncell ∧ settled.params.wrapLast = some (0, 0) := ⟨settled_listening, rfl, rfl, by decide, rfl⟩
theorem witness_ImageCompletes : Listening settled ∧ settled.rx.h = .basic ∧ settled.rx.addrMode = .horizontal ∧
    503 < settled.params.ncell ∧ settled.params.wrapLast = some (0, 0) := ⟨settled_listening, rfl, rfl, by decide, rfl⟩
/-- WRAP_LAST left arbitrary: the address must stay inside. -/
def unwrapped : State := { settled with params := { Params.default with wrapLast := none } }
theorem unwrapped_listening : Listening unwrapped := ⟨⟨by constructor <;> decide, rfl, rfl⟩, rfl, rfl⟩
theorem witness_CharCompletes : (Listening settled ∧ Addressed settled ∧ isControl 0x41 = false ∧
      settled.params.wrapLast = some (0, 0)) ∧
    Listening unwrapped ∧ Addressed unwrapped ∧ unwrapped.rx.cell unwrapped.params + 7 < unwrapped.params.ncell :=
  ⟨⟨settled_listening, by unfold Addressed; decide, by decide, rfl⟩, unwrapped_listening, by unfold Addressed; decide, by decide⟩
theorem witness_CharSkipsControl : Ready settled ∧ isControl 0x0A = true ∧ isControl 0x0D = true ∧ isControl 0x09 = true :=
  ⟨settled_ready, by decide, by decide, by decide⟩
theorem witness_TextCompletes : (Listening settled ∧ Addressed settled ∧ settled.params.wrapLast = some (0, 0)) ∧
    Listening unwrapped ∧ Addressed unwrapped ∧
    unwrapped.rx.cell unwrapped.params + (textBytes unwrapped.opb (0 : Byte).toNat).length < unwrapped.params.ncell :=
  ⟨⟨settled_listening, by unfold Addressed; decide, rfl⟩, unwrapped_listening, by unfold Addressed; decide, by decide⟩
theorem witness_PadCompletes : (Listening settled ∧ Addressed settled ∧ settled.params.wrapLast = some (0, 0)) ∧
    Listening unwrapped ∧ Addressed unwrapped ∧
    unwrapped.rx.cell unwrapped.params + 7 * (12 : Byte).toNat < unwrapped.params.ncell :=
  ⟨⟨settled_listening, by unfold Addressed; decide, rfl⟩, unwrapped_listening, by unfold Addressed; decide, by decide⟩
theorem witness_BorderCompletes : (Listening settled ∧ settled.rx.h = .basic ∧ settled.rx.addrMode = .horizontal ∧
      settled.params.cols = 84 ∧ settled.params.bands = 6 ∧ settled.params.wrapLast = some (0, 0) ∧ settled.rx.display = .normal) ∧
    Listening (settled.setRx { rx0 with display := .inverse }) ∧
    (settled.setRx { rx0 with display := .inverse }).rx.display = .inverse :=
  ⟨⟨settled_listening, rfl, rfl, rfl, rfl, rfl, rfl⟩, ⟨⟨by constructor <;> decide, rfl, rfl⟩, rfl, rfl⟩, rfl⟩
theorem witness_InitCompletes : Ready unpowered ∧ unpowered.params.vopDefaultCmd = 0xB1 ∧ unpowered.params.tcCmd = 0x04 ∧
    unpowered.params.biasCmd = 0x14 ∧ unpowered.params.wrapLast = some (0, 0) := ⟨unpowered_ready, rfl, rfl, rfl, rfl⟩
/-- INIT, accepted by a block no host drives, comes to every position of its trace, BUSY all the way. -/
theorem init_comes_to {s : State} (hr : Ready s) (hn : s.requests = []) (k : Nat) (hk : k ≤ (initTrace s.params).length) :
    ∃ (t v : State) (n : Nat), exec .init s = .next t ∧ stepN n t = .next v ∧
      (∀ j ≤ n, ∀ m, stepN j t = .next m → m.busy = true) ∧ v.upc = k := by
  have he : encode .init = .request (reqWord 0x3 0 0) := rfl
  have ht := State.taken_trace s he
  obtain ⟨n, hs⟩ := reaches_runAll (s := s.taken .init (reqWord 0x3 0 0)) (L := (initTrace s.params).take k)
    (R := (initTrace s.params).drop k) rfl hr.quiet rfl
    (by rw [ht, List.take_append_drop]; rfl)
  refine ⟨_, _, n, exec_request he hr.idle, hs, fun j hj m hm => ?_, ?_⟩
  · obtain ⟨d, rfl⟩ : ∃ d, n = j + d := ⟨n - j, by omega⟩
    rw [stepN_add hm] at hs
    obtain ⟨h1, h2, -⟩ := stepN_undriven (s := s.taken .init (reqWord 0x3 0 0)) hn hr.quiet hm
    obtain ⟨-, -, h3⟩ := stepN_undriven h1 h2 hs
    by_contra hb
    have := h3 (by simpa using hb)
    rw [State.runAll_busy] at this
    cases this
  · rw [State.runAll_upc, List.length_take, Nat.min_eq_left hk]; simp [State.taken]
/-- A block without an illumination line. -/
def noAux : State := { unpowered with params := { Params.default with hasAux := false } }
theorem noAux_ready : Ready noAux := ⟨by constructor <;> decide, rfl, rfl⟩
theorem init_long (p : Params) : 378 ≤ (initTrace p).length := by
  simp [initTrace, initToExtended, initToNormal, initPulse]; omega
/-- At UPC 72 and 73, 377 and 378, with the illumination line; at 71 and 72, 376 and 377, without. -/
theorem witness_ControllerStateDuringInit :
    (∀ k ∈ [0, 72, 73, 377, 378], ∃ (t v : State) (n : Nat), Ready unpowered ∧ exec .init unpowered = .next t ∧
      stepN n t = .next v ∧ (∀ j ≤ n, ∀ m, stepN j t = .next m → m.busy = true) ∧ v.upc = k) ∧
    (∀ k ∈ [71, 72, 376, 377], ∃ (t v : State) (n : Nat), Ready noAux ∧ exec .init noAux = .next t ∧
      stepN n t = .next v ∧ (∀ j ≤ n, ∀ m, stepN j t = .next m → m.busy = true) ∧ v.upc = k) ∧
    unpowered.params.hasAux = true ∧ noAux.params.hasAux = false := by
  refine ⟨fun k hk => ?_, fun k hk => ?_, rfl, rfl⟩
  · have hl := init_long unpowered.params
    obtain ⟨t, v, n, h⟩ := init_comes_to unpowered_ready rfl k (by simp at hk; omega)
    exact ⟨t, v, n, unpowered_ready, h⟩
  · have hl := init_long noAux.params
    obtain ⟨t, v, n, h⟩ := init_comes_to noAux_ready rfl k (by simp at hk; omega)
    exact ⟨t, v, n, noAux_ready, h⟩
theorem witness_OperationBeforeInit : Ready unpowered ∧ unpowered.oe = false ∧ encode (.goto 10 2) = .request 0x50A02 ∧
    Instr.goto 10 2 ≠ .init := ⟨unpowered_ready, rfl, by decide, by decide⟩
theorem witness_InvariantKept : Inv settled ∧ ∃ t, step settled = .next t := ⟨settled_inv, _, rfl⟩
theorem witness_NoStuckState : Inv (running 0x1A501 0) := running_inv
theorem witness_EveryOperationEnds : Inv (running 0x1A501 0) ∧ (running 0x1A501 0).busy = true ∧ (running 0x1A501 0).hostIn = [] :=
  ⟨running_inv, rfl, rfl⟩
theorem witness_StepsFollowTheTrace : (∃ t, step (running 0x1A501 1) = .next t) ∧
    ∀ i b rest, (running 0x1A501 1).hostIn ≠ .writeOpb i b :: rest := ⟨⟨_, rfl⟩, by simp [running, settled, State.reset]⟩
theorem witness_IllIsSticky : (∃ t, step { settled with ill := true } = .next t) ∧
    ∃ t, step { settled with requests := [0x00000] } = .next t ∧ t.ill = true := ⟨⟨_, rfl⟩, _, rfl, rfl⟩
theorem witness_OnlyInitWrites : ∃ t, step (running 0x1A501 1) = .next t := ⟨_, rfl⟩
theorem witness_BlockNeverWritesOpb : ∃ t, step (running 0x1A501 1) = .next t := ⟨_, rfl⟩
theorem witness_UndrivenReceiverUntouched : (∃ t, step unpowered = .next t) ∧ unpowered.oe = false := ⟨⟨_, rfl⟩, rfl⟩
/-- The reset pulse of a second INIT, at a receiver with a defined state; and of a first one. -/
theorem witness_UndefinedUntilResetPulse : ({ settled with hostIn := [.reset] } : State).hostIn = .reset :: [] ∧
    ((∃ t, step unpowered = .next t) ∧ unpowered.rx.undef = true) ∧
    ((running 0x30000 8).busy = true ∧ (running 0x30000 8).hostIn = [] ∧
      (running 0x30000 8).trace[(running 0x30000 8).upc]? = some (.set .rst false) ∧ (running 0x30000 8).oe = true ∧
      (running 0x30000 8).rx.undef = false) := ⟨rfl, ⟨⟨_, rfl⟩, rfl⟩, rfl, rfl, rfl, rfl, rfl⟩
theorem witness_OnlyDataFramesWriteCells : ∃ t, step (settled.withFrame 0x1AA) = .next t ∧
    (settled.withFrame 0x1AA).rx.undef = false ∧ t.rx.undef = false ∧ t.log = [.set .clk true] ∧
    t.log ≠ (settled.withFrame 0x1AA).log ++ [.set .rst false] := ⟨_, rfl, rfl, rfl, rfl, by decide⟩

end Sys2Proof.Tests
end

section
/-! PROOFS. The scope of a step (spec/00_scope.md): what a pin write does, and that the block leaves OPB and the parameters alone. -/

namespace Sys2Proof.Machine

/-! ### The receiver's reaction, as a change of the state -/

section WithRx
variable (s : State) (q : RxN)

@[simp] theorem State.withRx_params : (s.withRx q).params = s.params := rfl
@[simp] theorem State.withRx_req : (s.withRx q).req = s.req := rfl
@[simp] theorem State.withRx_pins : (s.withRx q).pins = s.pins := rfl
@[simp] theorem State.withRx_oe : (s.withRx q).oe = s.oe := rfl
@[simp] theorem State.withRx_upc : (s.withRx q).upc = s.upc := rfl
@[simp] theorem State.withRx_busy : (s.withRx q).busy = s.busy := rfl
@[simp] theorem State.withRx_hcnt : (s.withRx q).hcnt = s.hcnt := rfl
@[simp] theorem State.withRx_holding : (s.withRx q).holding = s.holding := rfl
@[simp] theorem State.withRx_stall : (s.withRx q).stall = s.stall := rfl
@[simp] theorem State.withRx_ill : (s.withRx q).ill = s.ill := rfl
@[simp] theorem State.withRx_ctrl : (s.withRx q).ctrl = s.ctrl := rfl
@[simp] theorem State.withRx_done : (s.withRx q).done = s.done := rfl
@[simp] theorem State.withRx_opb : (s.withRx q).opb = s.opb := rfl
@[simp] theorem State.withRx_opbAcc : (s.withRx q).opbAcc = s.opbAcc := rfl
@[simp] theorem State.withRx_rx : (s.withRx q).rx = q.1 := rfl
@[simp] theorem State.withRx_requests : (s.withRx q).requests = s.requests := rfl
@[simp] theorem State.withRx_hostIn : (s.withRx q).hostIn = s.hostIn := rfl
@[simp] theorem State.withRx_log : (s.withRx q).log = s.log := rfl
@[simp] theorem State.withRx_freeCtr : (s.withRx q).freeCtr = q.2 := rfl
theorem State.withRx_trace : (s.withRx q).trace = s.trace := State.trace_congr rfl rfl rfl

end WithRx

/-! ### Pin writes -/

/-- A write to one pin register leaves the others alone. -/
theorem Pins.get_put_other (q : Pins) {p p' : Pin} (v : Level) (h : p' ≠ p) : (q.put p v).get p' = q.get p' := by
  rw [Pins.get_put, if_neg h.symm]

/-- A pin write changes the block as `setPin` says; beyond that it reaches the receiver only. -/
theorem step_set {s : State} {p : Pin} {v : Level} (hb : s.busy = true) (hq : s.hostIn = [])
    (he : s.trace[s.upc]? = some (.set p v)) :
    ∃ r, step s = .next ((State.setPin p v { s with done := false }).withRx r) := by
  rw [step_quiet hq, blockStep_event (s := { s with done := false }) hb he, eventStep, deliver_eq]
  exact ⟨_, rfl⟩

/-- Settles O10: the step is `setPin` on every register of the block, and the receiver's reaction changes none of them. -/
theorem pinWriteStep : Obligations.PinWriteStep := by
  intro s p v hb hq he
  obtain ⟨r, hs⟩ := step_set hb hq he
  have htrace : ((State.setPin p v { s with done := false }).withRx r).trace = s.trace :=
    (State.withRx_trace _ r).trans (State.setPin_trace p v _)
  refine ⟨_, hs, by simp, fun q hne => by simp [Pins.get_put_other _ v hne], ?_⟩
  exact ⟨rfl, rfl, hb, rfl, rfl, rfl, rfl, htrace, rfl⟩

/-! ### OPB and the parameters -/

@[simp] theorem State.accept_params (w : BitVec 20) (s : State) : (s.accept w).params = s.params := by
  unfold State.accept; split <;> rfl
@[simp] theorem State.accept_opb (w : BitVec 20) (s : State) : (s.accept w).opb = s.opb := by
  unfold State.accept; split <;> rfl
@[simp] theorem State.taken_params (i : Instr) (w : BitVec 20) (s : State) : (s.taken i w).params = s.params := rfl
@[simp] theorem State.taken_opb (i : Instr) (w : BitVec 20) (s : State) : (s.taken i w).opb = s.opb := rfl
@[simp] theorem holdStep_params (d : Nat) (s : State) : (holdStep d s).params = s.params := by
  unfold holdStep; split_ifs <;> rfl
@[simp] theorem holdStep_opb (d : Nat) (s : State) : (holdStep d s).opb = s.opb := by
  unfold holdStep; split_ifs <;> rfl

/-- No step of the block writes OPB or the parameters (R42, R50, R5). -/
theorem blockStep_keeps_params_opb {s t : State} (h : blockStep s = .next t) : t.params = s.params ∧ t.opb = s.opb := by
  rcases blockStep_cases h with ⟨-, -, rfl⟩ | ⟨-, w, ws, i, -, -, rfl⟩ | ⟨-, w, ws, r, -, -, rfl⟩ | ⟨-, -, rfl⟩ |
    ⟨-, d, -, rfl⟩ | ⟨-, -, rfl⟩ | ⟨-, p, v, -, rfl⟩ <;> simp

/-- The host's action changes OPB by its own write only. -/
theorem HostStep.opb {s s₁ : State} (h : HostStep s s₁) :
    s₁.opb = s.opb ∨ ∃ i b rest, s.hostIn = .writeOpb i b :: rest ∧ s₁.opb = s.opb.write i.toNat b := by
  cases h with
  | quiet _ => exact .inl rfl
  | wait _ _ => exact .inl rfl
  | request _ _ _ => exact .inl rfl
  | write i b rest hq =>
    obtain ⟨m, n, hf⟩ := State.hostWrite_fields i b { s with done := false, hostIn := rest }
    exact .inr ⟨i, b, rest, hq, by rw [hf]⟩

/-- Settles O57: neither hardware reset nor a step of the block writes OPB, so a change of it is the host's. -/
theorem blockNeverWritesOpb : Obligations.BlockNeverWritesOpb := by
  intro s t h
  rcases step_cases h with ⟨rest, -, rfl⟩ | ⟨s₁, hhost, hblock⟩
  · exact ⟨rfl, .inl rfl⟩
  · obtain ⟨hparams, hopb⟩ := blockStep_keeps_params_opb hblock
    obtain ⟨hhostParams, -⟩ := hhost.frame
    rw [hparams, hopb]
    exact ⟨hhostParams, hhost.opb⟩

end Sys2Proof.Machine
end

section
/-! PROOFS. The invariant of the block and its receiver: every step keeps it (spec/10_state.md R14, R33). -/

namespace Sys2Proof.Machine

/-! ### Levels after an operation (R33, R201) -/

/-- Every operation's trace leaves the four lines with an idle level at it. -/
theorem opTrace_idle (p : Params) (opb : Memory) (i : Instr) :
    lastLevel .clk false (opTrace p opb i) = false ∧ lastLevel .cs true (opTrace p opb i) = true ∧
      lastLevel .rst true (opTrace p opb i) = true ∧ lastLevel .aux true (opTrace p opb i) = true := by
  by_cases hinit : i = .init
  · subst hinit
    have frames := frameClosed_idle p
    have hhold : ∀ d, lastLevel .clk false [.hold d] = false ∧ lastLevel .cs true [.hold d] = true ∧
        lastLevel .rst true [.hold d] = true ∧ lastLevel .aux true [.hold d] = true := fun _ => ⟨rfl, rfl, rfl, rfl⟩
    rw [opTrace, initTrace_split]
    exact frames.append _ _ (initHead_idle p) (frames.append _ _ (frames.append _ _ (frames.append _ _
      (frames.append _ _ (frames.frame _ _) frames.toNormal) (frames.frame _ _)) (hhold _)) frames.clear)
  · by_cases htxb : ∃ b m, i = .txb b m
    · obtain ⟨b, m, rfl⟩ := htxb
      exact ⟨txbTrace_clk .., txbTrace_cs .., txbTrace_rst .., txbTrace_aux ..⟩
    · exact (frameClosed_idle p).op opb i hinit fun b m h => htxb ⟨b, m, h⟩

/-- The operation in progress is the one REQ names; under a reserved opcode it is empty. -/
theorem State.trace_cases (s : State) :
    (∃ i, decodeRequest s.req = .ok i ∧ s.trace = opTrace s.params s.opbAcc i) ∨
      (∃ r, decodeRequest s.req = .error r) ∧ s.trace = [] := by
  unfold State.trace wordTrace
  cases decodeRequest s.req with
  | ok i => exact .inl ⟨i, rfl, rfl⟩
  | error r => exact .inr ⟨⟨r, rfl⟩, rfl⟩

/-- A whole operation leaves the lines at their idle levels. -/
theorem State.trace_idle (s : State) :
    lastLevel .clk false s.trace = false ∧ lastLevel .cs true s.trace = true ∧
      lastLevel .rst true s.trace = true ∧ lastLevel .aux true s.trace = true := by
  rcases s.trace_cases with ⟨i, -, htrace⟩ | ⟨-, htrace⟩ <;> rw [htrace]
  · exact opTrace_idle _ _ _
  · exact ⟨rfl, rfl, rfl, rfl⟩

/-! ### The events performed so far -/

theorem State.performed_idle {s : State} (h : s.busy = false) : s.performed = [] := by simp [State.performed, h]

theorem State.performed_busy {s : State} (h : s.busy = true) : s.performed = s.trace.take s.upc := by
  simp [State.performed, h]

/-- At the end of the trace the whole operation has been performed. -/
theorem State.performed_end {s : State} (hb : s.busy = true) (hu : s.upc = s.trace.length) : s.performed = s.trace := by
  rw [State.performed_busy hb, hu, List.take_length]

/-- The event UPC points to is the next one performed. -/
theorem State.performed_advance {s : State} {e : Event} (hb : s.busy = true) (he : s.trace[s.upc]? = some e) :
    (s.advance e).performed = s.performed ++ [e] := by
  rw [State.performed_busy hb, State.performed_busy (s := s.advance e) hb, State.advance_trace, State.advance_upc,
    List.take_add_one, he]
  rfl

/-! ### The receiver's part of the invariant, seen from the link -/

/-- The clauses of `Inv` about the receiver and the lines it hangs on. -/
structure Link.Sound (p : Params) (l : Link) : Prop where
  ddram : l.rx.ddram.wf p.ncell = true
  driven : l.oe = false → l.rx.undef = true
  bracket : l.rx.undef = false → l.pins.cs = true → l.rx.bitcnt = 0

theorem Inv.sound {s : State} (h : Inv s) : s.link.Sound s.params := ⟨h.ddram, h.driven, h.bracket⟩

/-- No partial byte outlives its bracket (R153): outside a bracket a pin write leaves none. -/
theorem Link.Sound.set_bracket {p : Params} {l : Link} (h : l.Sound p) (pin : Pin) (v : Level)
    (hu : (l.event p (.set pin v)).rx.undef = false) (hcs : (l.pins.put pin v).cs = true) :
    (l.event p (.set pin v)).rx.bitcnt = 0 := by
  simp only [Link.event] at hu ⊢
  rcases rxDeliver_cases p l.stray l.oe (l.pins.put pin v) pin (l.pins.get pin) v l.rx l.n with
    ⟨e, hwhy⟩ | ⟨-, -, -, e⟩ | ⟨-, -, e⟩ | ⟨-, -, -, -, e⟩ | ⟨-, -, -, -, -, hlow, -⟩ | ⟨-, -, -, -, -, hlow, -⟩
  · rw [e] at hu ⊢
    rcases hwhy with hoe | ⟨-, -, hnot⟩
    · exact absurd ((h.driven hoe).symm.trans hu) (by simp)
    · refine h.bracket hu ?_
      have hget := Pins.get_put l.pins pin .cs v
      rw [Pins.get_cs, hcs] at hget
      split at hget
      · next hpin => exact absurd ⟨hpin, hget.symm⟩ hnot
      · exact hget.symm
  · rw [e]; rfl
  · rw [e] at hu; cases hu
  · rw [e]
  · rw [hlow] at hcs; cases hcs
  · rw [hlow] at hcs; cases hcs

/-- Every event keeps the receiver's part of the invariant. -/
theorem Link.Sound.event {p : Params} {l : Link} (h : l.Sound p) (e : Event) : (l.event p e).Sound p := by
  cases e with
  | hold d => exact ⟨h.ddram, h.driven, h.bracket⟩
  | cfg => exact ⟨h.ddram, fun hoe => absurd hoe (by simp [Link.event]), h.bracket⟩
  | set pin v =>
    refine ⟨rxDeliver_wf h.ddram .., fun hoe => ?_, h.set_bracket pin v⟩
    have hoe' : l.oe = false := hoe
    simpa [Link.event, rxDeliver, hoe'] using h.driven hoe'

/-! ### The invariant along a step -/

/-- CTRL_STATE never goes back to UNPOWERED at a mark (R104). -/
theorem State.mark_powered {s : State} (k : Nat) (h : s.ctrl ≠ .unpowered) : (s.mark k).getD s.ctrl ≠ .unpowered := by
  unfold State.mark
  split
  · unfold initMark; split_ifs <;> simp [h]
  · exact h

/-- Only INIT's trace has `CFG` (R13). -/
theorem State.decode_of_cfg {s : State} (h : .cfg ∈ s.trace) : decodeRequest s.req = .ok .init := by
  rcases s.trace_cases with ⟨i, hd, htrace⟩ | ⟨-, htrace⟩ <;> rw [htrace] at h
  · by_contra hne
    exact (opTrace_quiet s.params s.opbAcc (fun hi => hne (hi ▸ hd))).1 h
  · simp at h

/-- The invariant after the event UPC points to, whatever the count `n` of free values drawn. -/
theorem Inv.event {s : State} (h : Inv s) {e : Event} (hb : s.busy = true) (he : s.trace[s.upc]? = some e) (n : Nat) :
    Inv ((s.advance e).setLink { s.link.event s.params e with n := n }) := by
  have hsound := h.sound.event e
  have hperf : ((s.advance e).setLink { s.link.event s.params e with n := n }).performed = s.performed ++ [e] :=
    State.performed_advance hb he
  have hpin : ∀ q v, s.pins.get q = lastLevel q v s.performed →
      (s.link.event s.params e).pins.get q = lastLevel q v (s.performed ++ [e]) := by
    intro q v hq
    rw [lastLevel_append, ← hq]
    exact Link.run_pins s.params [e] s.link q
  refine ⟨h.params, h.opb, h.opbAcc, hsound.ddram, fun _ => ?_, ?_, ?_, ?_, ?_, ?_, hsound.driven, fun hoe => ?_, fun _ hd => ?_,
    hsound.bracket⟩
  · exact (List.getElem?_eq_some_iff.mp he).1
  · rw [hperf]; exact hpin .clk false h.clk
  · rw [hperf]; exact hpin .cs true h.cs
  · rw [hperf]; exact hpin .rst true h.rst
  · rw [hperf]; exact hpin .aux true h.aux
  · exact fun hidle => absurd (hb.symm.trans hidle) (by simp)
  · refine State.mark_powered _ ?_
    cases e with
    | hold d => exact h.enabled hoe
    | cfg => exact h.initial hb (State.decode_of_cfg (List.mem_of_getElem? he))
    | set p v => exact h.enabled hoe
  · exact State.mark_powered _ (h.initial hb hd)

/-- The invariant does not look at the host's queues and `done`. -/
theorem Inv.setHost {s : State} (h : Inv s) (d : Bool) (rs : List (BitVec 20)) (acts : List HostAct) :
    Inv { s with done := d, requests := rs, hostIn := acts } :=
  ⟨h.params, h.opb, h.opbAcc, h.ddram, h.upc, h.clk, h.cs, h.rst, h.aux, h.hold, h.driven, h.enabled, h.initial, h.bracket⟩

/-- The invariant does not look at the hold counters of a busy block. -/
theorem Inv.setHold {s : State} (h : Inv s) (hb : s.busy = true) (k j n : Nat) (c : Bool) :
    Inv { s with hcnt := k, holding := c, stall := j, freeCtr := n } :=
  ⟨h.params, h.opb, h.opbAcc, h.ddram, h.upc, h.clk, h.cs, h.rst, h.aux,
    fun hidle => absurd ((show s.busy = true from hb).symm.trans hidle) (by simp), h.driven, h.enabled, h.initial, h.bracket⟩

/-- After a host write to OPB the trace is the same, or the same as far as it has been performed (R56). -/
theorem State.hostWrite_trace (s : State) (i : BitVec 9) (b : Byte) :
    (s.hostWrite i b).trace = s.trace ∨
      ∃ pre A B, s.trace = pre ++ A ∧ (s.hostWrite i b).trace = pre ++ B ∧ s.upc ≤ pre.length := by
  have hacc := s.hostWrite_eq i b
  obtain ⟨m, n, hf⟩ := State.hostWrite_fields i b s
  rw [hf] at hacc ⊢
  rcases hacc with hm | ⟨hunread, hm⟩
  · exact .inl (State.trace_congr rfl hm rfl)
  · obtain ⟨pre, A, B, hold, hnew, hlen⟩ := State.unread_split hunread b
    exact .inr ⟨pre, A, B, hold, (congrArg (fun o => wordTrace s.params o s.req) hm).trans hnew, hlen⟩

/-- What has been performed of the operation stays as it is. -/
theorem State.hostWrite_performed (s : State) (i : BitVec 9) (b : Byte) : (s.hostWrite i b).performed = s.performed := by
  have htake : (s.hostWrite i b).trace.take s.upc = s.trace.take s.upc := by
    rcases s.hostWrite_trace i b with hsame | ⟨pre, A, B, hold, hnew, hlen⟩
    · rw [hsame]
    · rw [hold, hnew, List.take_append_of_le_length hlen, List.take_append_of_le_length hlen]
  obtain ⟨m, n, hf⟩ := State.hostWrite_fields i b s
  rw [hf] at htake ⊢
  simp only [State.performed, htake]

/-- UPC stays inside the trace. -/
theorem State.hostWrite_upc_le {s : State} (h : s.upc ≤ s.trace.length) (i : BitVec 9) (b : Byte) :
    s.upc ≤ (s.hostWrite i b).trace.length := by
  rcases s.hostWrite_trace i b with hsame | ⟨pre, A, B, -, hnew, hlen⟩
  · rwa [hsame]
  · rw [hnew, List.length_append]; exact Nat.le_add_right_of_le hlen

/-- A host write to OPB keeps the memories canonical and what has been performed of the trace. -/
theorem Inv.hostWrite {s : State} (h : Inv s) (i : BitVec 9) (b : Byte) : Inv (s.hostWrite i b) := by
  have hacc : (s.hostWrite i b).opbAcc.wf 512 = true := by
    rcases s.hostWrite_eq i b with hm | ⟨-, hm⟩ <;> rw [hm]
    · exact h.opbAcc
    · exact Memory.wf_write b i.isLt h.opbAcc
  have hperf := s.hostWrite_performed i b
  have hupc := fun hb : s.busy = true => State.hostWrite_upc_le (h.upc hb) i b
  obtain ⟨m, n, hf⟩ := State.hostWrite_fields i b s
  rw [hf] at hacc hperf hupc ⊢
  refine ⟨h.params, Memory.wf_write b i.isLt h.opb, hacc, h.ddram, hupc, ?_, ?_, ?_, ?_, h.hold, h.driven, h.enabled, h.initial,
    h.bracket⟩
  · rw [hperf]; exact h.clk
  · rw [hperf]; exact h.cs
  · rw [hperf]; exact h.rst
  · rw [hperf]; exact h.aux

/-- Whatever the host does in a step keeps the invariant. -/
theorem Inv.hostStep {s s₁ : State} (h : Inv s) (hs : HostStep s s₁) : Inv s₁ := by
  cases hs with
  | quiet _ => exact h.setHost ..
  | wait rest _ => exact h.setHost ..
  | request w rest _ => exact h.setHost ..
  | write i b rest _ => exact (h.setHost false s.requests rest).hostWrite i b

/-- Hardware reset establishes what of the invariant is the block's and the receiver's (R31, R192). -/
theorem Inv.hardReset {s : State} (h : Inv s) : Inv s.hardReset :=
  ⟨h.params, h.opb, rfl, rfl, fun hb => absurd hb (by simp), rfl, rfl, rfl, rfl, fun _ => ⟨rfl, rfl⟩, fun _ => rfl,
    fun hoe => absurd hoe (by simp), fun hb => absurd hb (by simp), fun hu => absurd hu (by simp [Rx.drawn])⟩

/-- At the end of its trace an operation has brought the lines back to their idle levels. -/
theorem Inv.complete {s : State} (h : Inv s) (hb : s.busy = true) (hu : s.upc = s.trace.length) : Inv s.complete := by
  obtain ⟨hclk, hcs, hrst, haux⟩ := s.trace_idle
  have hperf := State.performed_end hb hu
  refine ⟨h.params, h.opb, rfl, h.ddram, fun hb => absurd hb (by simp), ?_, ?_, ?_, ?_, fun _ => ⟨rfl, rfl⟩, h.driven, h.enabled,
    fun hb => absurd hb (by simp), h.bracket⟩
  · exact h.clk.trans (hperf ▸ hclk)
  · exact h.cs.trans (hperf ▸ hcs)
  · exact h.rst.trans (hperf ▸ hrst)
  · exact h.aux.trans (hperf ▸ haux)

/-- A word latched by an idle block: nothing has been performed of its trace. -/
theorem Inv.start {s : State} (h : Inv s) (hb : s.busy = false) (w : BitVec 20) (c : CtrlState) (ill : Bool)
    (hen : s.oe = true → c ≠ .unpowered) (hinit : decodeRequest w = .ok .init → c ≠ .unpowered) :
    Inv { s with req := w, upc := 0, busy := true, hcnt := 0, holding := false, stall := 0, opbAcc := s.opb, ctrl := c, ill := ill } := by
  have hclk := h.clk
  have hcs := h.cs
  have hrst := h.rst
  have haux := h.aux
  rw [State.performed_idle hb] at hclk hcs hrst haux
  exact ⟨h.params, h.opb, h.opb, h.ddram, fun _ => Nat.zero_le _, hclk, hcs, hrst, haux, fun hidle => absurd hidle (by simp),
    h.driven, hen, fun _ => hinit, h.bracket⟩

/-- A cycle of a hold keeps the invariant. -/
theorem Inv.holdStep {s : State} (h : Inv s) {d : Nat} (hb : s.busy = true) (he : s.trace[s.upc]? = some (.hold d)) :
    Inv (holdStep d s) := by
  unfold Machine.holdStep
  split_ifs
  · exact h.setHold hb ..
  · exact h.setHold hb ..
  · exact h.setHold hb ..
  · exact h.event hb he s.freeCtr

/-- Every step of the block keeps the invariant. -/
theorem Inv.blockStep {s t : State} (h : Inv s) (hs : blockStep s = .next t) : Inv t := by
  rcases blockStep_cases hs with ⟨-, -, rfl⟩ | ⟨hb, w, ws, i, -, hd, rfl⟩ | ⟨hb, w, ws, r, -, hd, rfl⟩ | ⟨hb, hu, rfl⟩ |
    ⟨hb, d, he, rfl⟩ | ⟨hb, he, rfl⟩ | ⟨hb, p, v, he, rfl⟩
  · exact h
  · refine (h.setHost s.done ws s.hostIn).start hb w (if i = .init then .reset else s.ctrl) s.ill (fun hoe => ?_) fun hinit => ?_
    · split
      · simp
      · exact h.enabled hoe
    · rw [hd] at hinit
      cases hinit
      simp
  · rw [State.accept_idle w (s := { s with requests := ws }) hb]
    exact (h.setHost s.done ws s.hostIn).start hb w s.ctrl true h.enabled fun hinit => by rw [hd] at hinit; cases hinit
  · exact h.complete hb hu
  · exact h.holdStep hb he
  · exact h.event hb he s.freeCtr
  · exact h.event hb he _

/-- Settles O51: hardware reset establishes the invariant, the host's action and the block's step keep it. -/
theorem invariantKept : Obligations.InvariantKept := by
  intro s t h hs
  rcases step_cases hs with ⟨rest, -, rfl⟩ | ⟨s₁, hhost, hblock⟩
  · exact (h.setHost s.done s.requests rest).hardReset
  · exact (h.hostStep hhost).blockStep hblock

end Sys2Proof.Machine
end

section
/-! PROOFS. Single steps (spec/10_state.md R15): reset, the ports, acceptance, frames, holds, and what every step keeps. -/

namespace Sys2Proof.Machine

/-! ### Right after reset -/

/-- Settles O50: at reset the lines have their idle levels, no memory is listed and the receiver has no defined state. -/
theorem invariantAtReset : Obligations.InvariantAtReset :=
  ⟨rfl, rfl, rfl, rfl, fun hb => absurd hb (by decide), rfl, rfl, rfl, rfl, fun _ => ⟨rfl, rfl⟩, fun _ => rfl,
    fun hoe => absurd hoe (by decide), fun hb => absurd hb (by decide), fun hu => absurd hu (by decide)⟩

/-- Settles O14: the step with `rst_n` low is `State.hardReset`, whatever the state. -/
theorem hardwareReset : Obligations.HardwareReset := by
  intro s rest hq
  refine ⟨State.hardReset { s with hostIn := rest }, by simp only [step, machineStep, hq], ?_⟩
  exact ⟨rfl, rfl, rfl, rfl, rfl, rfl, rfl, rfl, rfl, rfl, rfl, rfl, rfl⟩

/-! ### The status port -/

/-- The bits of the status port (R21). -/
theorem status_fields (oe ill : Bool) (c : BitVec 2) :
    ((BitVec.ofBool oe ++ BitVec.ofBool ill : BitVec 2) ++ c).extractLsb' 0 2 = c ∧
      ((BitVec.ofBool oe ++ BitVec.ofBool ill : BitVec 2) ++ c).getLsbD 2 = ill ∧
      ((BitVec.ofBool oe ++ BitVec.ofBool ill : BitVec 2) ++ c).getLsbD 3 = oe := by
  revert oe ill c; decide

/-- Settles O13: the fields of `status`, and a pad by the case of OE. -/
theorem statusPort : Obligations.StatusPort := by
  intro s
  obtain ⟨hctrl, hill, hoe⟩ := status_fields s.oe s.ill (ctrlCode s.ctrl)
  refine ⟨hctrl.trans ?_, hill, hoe, rfl, fun p h => by simp [State.pad, h], fun p h => by simp [State.pad, h]⟩
  cases s.ctrl <;> rfl

/-! ### A step executes a request, or a frame -/

/-- An idle block with a request on the port accepts it. -/
theorem blockStep_request {s : State} {w : BitVec 20} {ws : List (BitVec 20)} (hb : s.busy = false) (hr : s.requests = w :: ws) :
    blockStep s = acceptRequest w { s with requests := ws } := by
  simp [blockStep, hb, hr]

/-- An idle block without one does nothing. -/
theorem blockStep_idle {s : State} (hb : s.busy = false) (hr : s.requests = []) : blockStep s = .next s := by
  simp [blockStep, hb, hr]

/-- Settles O7: the two cases of the step of an idle block. -/
theorem stepExecutesRequest : Obligations.StepExecutesRequest := by
  intro s hb hq
  rw [step_quiet hq]
  refine ⟨fun hr => blockStep_idle hb hr, fun w ws i hr hd => ?_⟩
  rw [blockStep_request (s := { s with done := false }) hb hr]
  simp only [acceptRequest, hd]

/-- A rising clock edge at a selected, driven receiver with a defined state samples a bit (R140, R141). -/
theorem deliver_edge {s : State} (hoe : s.oe = true) (hu : s.rx.undef = false) (hr : s.pins.rst = true) (hc : s.pins.cs = false) :
    deliver .clk false true s = sampleBit s := by
  simp [deliver, hoe, hu, hr, hc]

/-- A request word strays exactly when it is a GOTO to no cell of the display. -/
theorem gotoStrays_iff (p : Params) (w : BitVec 20) :
    gotoStrays p w = true ↔ ∃ x y, decodeRequest w = .ok (.goto x y) ∧ (p.cols ≤ x.toNat ∨ p.bands ≤ y.toNat) := by
  constructor
  · intro h
    simp only [gotoStrays, Bool.and_eq_true, Bool.or_eq_true, beq_iff_eq, decide_eq_true_eq] at h
    have he : encode (.goto (reqA w) (reqB w)) = .request w := by rw [encode, ← h.1, reqWord_fields]
    exact ⟨reqA w, reqB w, decodeRequest_encode he, h.2⟩
  · rintro ⟨x, y, hd, hxy⟩
    simp only [decodeRequest, ite_eq_iff, Except.ok.injEq, Instr.goto.injEq, reduceCtorEq, and_false, false_or, or_false] at hd
    obtain ⟨-, -, -, -, hop, rfl, rfl⟩ := hd
    simpa [gotoStrays, hop] using hxy

/-- The eighth bit of a frame of a GOTO to no cell costs the receiver its defined state (R108). -/
theorem sampleBit_stray {s : State} (hb : s.rx.bitcnt = 7) (hk : gotoStrays s.params s.req = true) :
    sampleBit s = .next s.loseRx := by
  simp only [sampleBit, if_pos hb, if_pos hk]

/-- So does the eighth bit of a frame outside the table (R154). -/
theorem sampleBit_outside {s : State} {r : Reject} (hb : s.rx.bitcnt = 7)
    (hd : decodeFrame s.rx.h s.frameMode s.shifted = .error r) : sampleBit s = .next s.loseRx := by
  simp only [sampleBit, if_pos hb, hd, ite_self]

/-- The eighth bit of any other frame executes it (R142). -/
theorem sampleBit_frame {s : State} {i : Instr} (hb : s.rx.bitcnt = 7) (hk : gotoStrays s.params s.req = false)
    (hd : decodeFrame s.rx.h s.frameMode s.shifted = .ok i) :
    sampleBit s = exec i (s.setRx { s.rx with sr := s.shifted, bitcnt := 0 }) := by
  simp only [sampleBit, if_pos hb, hk, Bool.false_eq_true, if_false, hd]

/-- Settles O8: the step at the edge writes the pin and samples the eighth bit, whose three outcomes are the cases. -/
theorem stepExecutesFrame : Obligations.StepExecutesFrame := by
  intro s hb hq he hoe hrst hcs hclk hu hbit
  have hstep : step s = sampleBit (State.setPin .clk true { s with done := false }) := by
    rw [step_quiet hq, blockStep_event (s := { s with done := false }) hb he, eventStep]
    simp only [Pins.get_clk, hclk]
    exact deliver_edge hoe hu hrst hcs
  rw [hstep]
  refine ⟨fun i hd hin => sampleBit_frame hbit ?_ hd, fun hlost => ?_⟩
  · rw [← Bool.not_eq_true, State.setPin_params, State.setPin_req, gotoStrays_iff]
    rintro ⟨x, y, hdec, hout⟩
    obtain ⟨hx, hy⟩ := hin x y hdec
    exact hout.elim (Nat.not_le_of_lt hx) (Nat.not_le_of_lt hy)
  · have hlose : sampleBit (State.setPin .clk true { s with done := false }) =
        .next (State.setPin .clk true { s with done := false }).loseRx := by
      rcases hlost with ⟨r, hd⟩ | hout
      · exact sampleBit_outside hbit hd
      · exact sampleBit_stray hbit ((gotoStrays_iff s.params s.req).mpr hout)
    exact ⟨_, hlose, rfl, fun _ => rfl, rfl, rfl, rfl⟩

/-! ### Holds (R17) -/

theorem mul_ceilDiv_bounds (a : Nat) {b : Nat} (hb : 0 < b) : a ≤ ceilDiv a b * b ∧ ceilDiv a b * b < a + b := by
  have hdiv := Nat.div_add_mod a b
  have hlt := Nat.mod_lt a hb
  unfold ceilDiv
  split
  · rw [Nat.add_zero, Nat.mul_comm]; omega
  · rw [Nat.add_mul, Nat.mul_comm]; omega

/-- The step at a hold is one cycle of it. -/
theorem step_hold {s : State} {d : Nat} (hb : s.busy = true) (hq : s.hostIn = []) (he : s.trace[s.upc]? = some (.hold d)) :
    step s = .next (holdStep d { s with done := false }) := by
  rw [step_quiet hq, blockStep_event (s := { s with done := false }) hb he, eventStep]

section HoldCases
variable {s : State} {d : Nat}

theorem holdStep_load (h : s.holding = false) : holdStep d s = s.startHold d := by simp [holdStep, h]

theorem holdStep_count (h : s.holding = true) (hk : s.hcnt ≠ 0) : holdStep d s = { s with hcnt := s.hcnt - 1 } := by
  simp [holdStep, h, hk]

theorem holdStep_end (h : s.holding = true) (hk : s.hcnt = 0) (hj : s.stall = 0) : holdStep d s = s.advance (.hold d) := by
  simp [holdStep, h, hk, hj]

@[simp] theorem holdStep_pins : (holdStep d s).pins = s.pins := by unfold holdStep; split_ifs <;> rfl
@[simp] theorem holdStep_rx : (holdStep d s).rx = s.rx := by unfold holdStep; split_ifs <;> rfl

end HoldCases

/-- Settles O11: the three cycles of a hold, the load bounded by `mul_ceilDiv_bounds`. -/
theorem holdCountsDown : Obligations.HoldCountsDown := by
  intro s d hb hq he
  refine ⟨_, step_hold hb hq he, holdStep_pins, holdStep_rx, fun hload => ?_, fun hh hk => ?_, fun hh hk hj => ?_⟩
  · rw [holdStep_load (s := { s with done := false }) hload]
    exact ⟨rfl, rfl, rfl, mul_ceilDiv_bounds _ (by omega)⟩
  · rw [holdStep_count (s := { s with done := false }) hh hk]
    exact ⟨rfl, hh, rfl, rfl⟩
  · rw [holdStep_end (s := { s with done := false }) hh hk hj]
    exact ⟨rfl, rfl, rfl⟩

theorem stepN_succ {s t : State} (h : step s = .next t) (n : Nat) : stepN (n + 1) s = stepN n t := by
  simp only [stepN, h]

/-- While HCNT lasts, each cycle takes one from it and does nothing else. -/
theorem stepN_count {s : State} {d : Nat} (n : Nat) (hb : s.busy = true) (hq : s.hostIn = []) (hdone : s.done = false)
    (he : s.trace[s.upc]? = some (.hold d)) (hh : s.holding = true) (hn : n ≤ s.hcnt) :
    stepN n s = .next { s with hcnt := s.hcnt - n } := by
  induction n generalizing s with
  | zero => rfl
  | succ n ih =>
    have hone : step s = .next { s with hcnt := s.hcnt - 1 } := by
      rw [step_hold hb hq he, holdStep_count (s := { s with done := false }) hh (show s.hcnt ≠ 0 by omega), ← hdone]
    rw [stepN_succ hone, ih (s := { s with hcnt := s.hcnt - 1 }) hb hq hdone he hh (show n ≤ s.hcnt - 1 by omega)]
    simp only [Nat.sub_sub, Nat.add_comm 1 n]

/-- Settles O12: one cycle loads HCNT, and the others of the minimum count it down. -/
theorem holdIsNeverShorter : Obligations.HoldIsNeverShorter := by
  intro s d n hb hq hload he hn
  cases n with
  | zero => exact ⟨s, rfl, rfl, rfl, rfl, rfl⟩
  | succ n =>
    have hfirst : step s = .next (State.startHold d { s with done := false }) := by
      rw [step_hold hb hq he, holdStep_load (s := { s with done := false }) hload]
    have hroom : n ≤ holdCycles s.params d := by
      have hle := (mul_ceilDiv_bounds (d * s.params.clkHz) (b := 1000000) (by omega)).1
      rw [← holdCycles] at hle
      omega
    rw [stepN_succ hfirst, stepN_count (s := State.startHold d { s with done := false }) n hb hq rfl he rfl hroom]
    exact ⟨_, rfl, rfl, rfl, rfl, rfl⟩

/-! ### What every step keeps -/

/-- A host action other than a write to OPB leaves the trace alone. -/
theorem HostStep.trace {s s₁ : State} (h : HostStep s s₁) (hw : ∀ i b rest, s.hostIn ≠ .writeOpb i b :: rest) :
    s₁.trace = s.trace := by
  cases h with
  | quiet _ => rfl
  | wait _ _ => rfl
  | request _ _ _ => rfl
  | write i b rest hq => exact absurd hq (hw i b rest)

/-- A cycle of a hold emits nothing, or ends it. -/
theorem holdStep_emits (d : Nat) (s : State) :
    (holdStep d s).log = s.log ∨ (holdStep d s).log = s.log ++ [.hold d] ∧ (holdStep d s).upc = s.upc + 1 := by
  unfold holdStep
  split_ifs
  · exact .inl rfl
  · exact .inl rfl
  · exact .inl rfl
  · exact .inr ⟨rfl, rfl⟩

@[simp] theorem State.accept_log (w : BitVec 20) (s : State) : (s.accept w).log = s.log := by
  unfold State.accept; split <;> rfl

/-- A step of the block emits nothing, or the event UPC points to. -/
theorem blockStep_emits {s t : State} (h : blockStep s = .next t) :
    t.log = s.log ∨ ∃ e, s.busy = true ∧ s.trace[s.upc]? = some e ∧ t.log = s.log ++ [e] ∧ t.upc = s.upc + 1 := by
  rcases blockStep_cases h with ⟨-, -, rfl⟩ | ⟨-, w, ws, i, -, -, rfl⟩ | ⟨-, w, ws, r, -, -, rfl⟩ | ⟨-, -, rfl⟩ |
    ⟨hb, d, he, rfl⟩ | ⟨hb, he, rfl⟩ | ⟨hb, p, v, he, rfl⟩
  · exact .inl rfl
  · exact .inl rfl
  · exact .inl (by simp)
  · exact .inl rfl
  · exact (holdStep_emits d s).imp_right fun ⟨hlog, hupc⟩ => ⟨_, hb, he, hlog, hupc⟩
  · exact .inr ⟨_, hb, he, rfl, rfl⟩
  · exact .inr ⟨_, hb, he, rfl, rfl⟩

/-- Settles O54: hardware reset emits nothing, and a step of the block at most the event UPC points to. -/
theorem stepsFollowTheTrace : Obligations.StepsFollowTheTrace := by
  intro s t h hw
  rcases step_cases h with ⟨rest, -, rfl⟩ | ⟨s₁, hhost, hblock⟩
  · exact .inl rfl
  · obtain ⟨-, -, -, -, hupc, hbusy, -, -, -, -, -, -, hlog, -⟩ := hhost.frame
    have hemit := blockStep_emits hblock
    rwa [hlog, hbusy, hupc, hhost.trace hw] at hemit

@[simp] theorem holdStep_ill (d : Nat) (s : State) : (holdStep d s).ill = s.ill := by unfold holdStep; split_ifs <;> rfl

/-- The opcodes without a row in R61's table (R70). -/
theorem reserved_of_decodeRequest {w : BitVec 20} {r : Reject} (h : decodeRequest w = .error r) :
    reqOp w = 0x0 ∨ 0xC ≤ reqOp w := by
  simp only [decodeRequest, ite_eq_iff, reduceCtorEq, and_false, false_or] at h
  obtain ⟨h1, h2, h3, h4, h5, h6, h7, h8, h9, hA, hB, -⟩ := h
  bv_omega

/-- A step of the block changes ILL only by accepting a reserved opcode, and only to 1. -/
theorem blockStep_ill {s t : State} (h : blockStep s = .next t) :
    t.ill = s.ill ∨ t.ill = true ∧ (reqOp t.req = 0x0 ∨ 0xC ≤ reqOp t.req) := by
  rcases blockStep_cases h with ⟨-, -, rfl⟩ | ⟨-, w, ws, i, -, -, rfl⟩ | ⟨hb, w, ws, r, -, hd, rfl⟩ | ⟨-, -, rfl⟩ |
    ⟨-, d, -, rfl⟩ | ⟨-, -, rfl⟩ | ⟨-, p, v, -, rfl⟩
  · exact .inl rfl
  · exact .inl rfl
  · rw [State.accept_idle w (s := { s with requests := ws }) hb]
    exact .inr ⟨rfl, reserved_of_decodeRequest hd⟩
  · exact .inl rfl
  · exact .inl (by simp)
  · exact .inl rfl
  · exact .inl rfl

/-- Settles O55: a step of the block keeps ILL or sets it by a reserved opcode, and only hardware reset clears it. -/
theorem illIsSticky : Obligations.IllIsSticky := by
  intro s t h
  rcases step_cases h with ⟨rest, hq, rfl⟩ | ⟨s₁, hhost, hblock⟩
  · exact ⟨fun _ => .inr ⟨rest, hq⟩, fun _ ht => absurd ht (by simp)⟩
  · obtain ⟨-, -, -, -, -, -, -, -, -, hill, -⟩ := hhost.frame
    rw [← hill]
    rcases blockStep_ill hblock with hsame | ⟨hset, hop⟩
    · exact ⟨fun hs => .inl (hsame.trans hs), fun hs ht => absurd ((hsame.trans hs).symm.trans ht) (by simp)⟩
    · exact ⟨fun _ => .inl hset, fun _ _ => hop⟩

/-- What only hardware reset and INIT write: CTRL_STATE, the reset and illumination pins, OE (R12, R13, R19). -/
structure SameInitRegs (s t : State) : Prop where
  ctrl : t.ctrl = s.ctrl
  rst : t.pins.rst = s.pins.rst
  aux : t.pins.aux = s.pins.aux
  oe : t.oe = s.oe

/-- Under a request word other than INIT there is no mark. -/
theorem State.mark_none {s : State} (k : Nat) (h : decodeRequest s.req ≠ .ok .init) : s.mark k = none := by
  unfold State.mark
  split
  · next hd => exact absurd hd h
  · rfl

/-- The trace of an operation other than INIT enables no outputs and writes neither reset nor illumination pin. -/
theorem State.trace_quiet {s : State} (h : decodeRequest s.req ≠ .ok .init) :
    Event.cfg ∉ s.trace ∧ ∀ v, Event.set .rst v ∉ s.trace ∧ Event.set .aux v ∉ s.trace := by
  rcases s.trace_cases with ⟨i, hd, htrace⟩ | ⟨-, htrace⟩ <;> rw [htrace]
  · exact opTrace_quiet _ _ fun hi => h (hi ▸ hd)
  · simp

/-- An event of an operation other than INIT leaves INIT's registers alone, whatever the link draws. -/
theorem sameInitRegs_event {s : State} {e : Event} (h : decodeRequest s.req ≠ .ok .init) (he : s.trace[s.upc]? = some e)
    (n : Nat) :
    SameInitRegs s ((s.advance e).setLink { s.link.event s.params e with n := n }) := by
  obtain ⟨hcfg, hpins⟩ := State.trace_quiet h
  have hmem := List.mem_of_getElem? he
  have hctrl : ((s.mark (s.upc + 1)).getD s.ctrl) = s.ctrl := by rw [State.mark_none _ h]; rfl
  cases e with
  | hold d => exact ⟨hctrl, rfl, rfl, rfl⟩
  | cfg => exact absurd hmem hcfg
  | set p v =>
    have hrst : p ≠ .rst := by rintro rfl; exact (hpins v).1 hmem
    have haux : p ≠ .aux := by rintro rfl; exact (hpins v).2 hmem
    exact ⟨hctrl, Pins.get_put_other s.pins v hrst.symm, Pins.get_put_other s.pins v haux.symm, rfl⟩

@[simp] theorem holdStep_busy (d : Nat) (s : State) : (holdStep d s).busy = s.busy := by unfold holdStep; split_ifs <;> rfl
@[simp] theorem holdStep_req (d : Nat) (s : State) : (holdStep d s).req = s.req := by unfold holdStep; split_ifs <;> rfl

/-- So does a cycle of a hold. -/
theorem sameInitRegs_hold {s : State} {d : Nat} (h : decodeRequest s.req ≠ .ok .init) (he : s.trace[s.upc]? = some (.hold d)) :
    SameInitRegs s (holdStep d s) := by
  unfold holdStep
  split_ifs
  · exact ⟨rfl, rfl, rfl, rfl⟩
  · exact ⟨rfl, rfl, rfl, rfl⟩
  · exact ⟨rfl, rfl, rfl, rfl⟩
  · exact sameInitRegs_event h he s.freeCtr

/-- A step of the block leaves INIT's registers alone, or INIT is running. -/
theorem blockStep_initRegs {s t : State} (h : blockStep s = .next t) :
    SameInitRegs s t ∨ t.busy = true ∧ decodeRequest t.req = .ok .init := by
  rcases blockStep_cases h with ⟨-, -, rfl⟩ | ⟨-, w, ws, i, -, hd, rfl⟩ | ⟨hb, w, ws, r, -, -, rfl⟩ | ⟨-, -, rfl⟩ |
    ⟨hb, d, he, rfl⟩ | ⟨hb, he, rfl⟩ | ⟨hb, p, v, he, rfl⟩
  · exact .inl ⟨rfl, rfl, rfl, rfl⟩
  · by_cases hi : i = .init
    · subst hi; exact .inr ⟨rfl, hd⟩
    · exact .inl ⟨if_neg hi, rfl, rfl, rfl⟩
  · rw [State.accept_idle w (s := { s with requests := ws }) hb]
    exact .inl ⟨rfl, rfl, rfl, rfl⟩
  · exact .inl ⟨rfl, rfl, rfl, rfl⟩
  · by_cases hinit : decodeRequest s.req = .ok .init
    · exact .inr ⟨by simpa using hb, by simpa using hinit⟩
    · exact .inl (sameInitRegs_hold hinit he)
  · by_cases hinit : decodeRequest s.req = .ok .init
    · exact .inr ⟨hb, hinit⟩
    · exact .inl (sameInitRegs_event hinit he s.freeCtr)
  · by_cases hinit : decodeRequest s.req = .ok .init
    · exact .inr ⟨hb, hinit⟩
    · exact .inl (sameInitRegs_event hinit he _)

/-- Settles O56: the host's action leaves INIT's registers alone, and the block's step does so unless INIT is running. -/
theorem onlyInitWrites : Obligations.OnlyInitWrites := by
  intro s t h
  rcases step_cases h with ⟨rest, hq, rfl⟩ | ⟨s₁, hhost, hblock⟩
  · exact .inr (.inl ⟨rest, hq⟩)
  · obtain ⟨-, -, hpins, hoe, -, -, -, -, -, -, hctrl, -⟩ := hhost.frame
    rcases blockStep_initRegs hblock with ⟨hc, hr, ha, ho⟩ | hinit
    · exact .inl ⟨hc.trans hctrl, hr.trans (congrArg Pins.rst hpins), ha.trans (congrArg Pins.aux hpins), ho.trans hoe⟩
    · exact .inr (.inr hinit)

end Sys2Proof.Machine
end

section
/-! PROOFS. Operations from acceptance to end (spec/10_state.md R15, R104; spec/42_controller.md R100, R196). -/

namespace Sys2Proof.Machine

/-! ### Acceptance -/

/-- A busy block does not accept a request (R16). -/
theorem exec_request_busy {i : Instr} {w : BitVec 20} {s : State} (he : encode i = .request w) (hb : s.busy = true) :
    exec i s = .next s := by
  cases i <;> simp only [encode, Code.request.injEq, reduceCtorEq] at he <;>
    simp only [exec, execTxb, execWrb, execInit, execContrast, execGoto, execClear, execImage, execChar, execText, execPad,
      execBorder, State.accept_busy _ hb, if_pos hb]

/-- Settles O33: the state after acceptance is `State.taken`. -/
theorem requestAccepted : Obligations.RequestAccepted := by
  intro s i w he
  exact ⟨exec_request_busy he, fun hb => ⟨s.taken i w, exec_request he hb, s.taken_trace he, rfl⟩⟩

/-! ### Whole operations -/

/-- Settles O34: the operation ends in `State.finished`, whose fields `finished_*` give. -/
theorem everyRequestCompletes : Obligations.EveryRequestCompletes := by
  intro s i w h he
  exact ⟨s.finished i w, completes_request he h.idle h.quiet, State.finished_log i w s, State.finished_params i w s,
    State.finished_ill i w s, State.finished_opb i w s, State.finished_requests i w s,
    (State.finished_hostIn i w s).trans h.quiet, keeps_finished s he⟩

/-- The pins after an operation are those its trace leaves. -/
theorem State.finished_pin (i : Instr) (w : BitVec 20) (s : State) (q : Pin) :
    (s.finished i w).pins.get q = lastLevel q (s.pins.get q) (opTrace s.params s.opb i) := by
  rw [State.finished_pins]
  exact Link.run_pins _ _ _ q

/-- Settles O49: without `CFG` in the trace the lines stay undriven, and nothing reaches the receiver. -/
theorem operationBeforeInit : Obligations.OperationBeforeInit := by
  intro s i w h hoe he hi
  have hcfg := (opTrace_quiet s.params s.opb hi).1
  refine ⟨s.finished i w, completes_request he h.idle h.quiet, keeps_finished s he hi, ?_, State.finished_log i w s,
    State.finished_pin i w s⟩
  rw [State.finished_rx]
  exact (Link.run_undriven s.params _ (s.linkOf w) hoe hcfg).1

/-! ### An operation in progress ends (R212) -/

/-- `t` is past the event `e` of the operation that is in progress in `s`. -/
structure PastEvent (e : Event) (s t : State) : Prop where
  busy : t.busy = true
  quiet : t.hostIn = []
  holding : t.holding = false
  upc : t.upc = s.upc + 1
  trace : t.trace = s.trace
  log : t.log = s.log ++ [e]

/-- The event UPC points to is performed, even when it is a hold that has already begun. -/
theorem reaches_past_event {s : State} {e : Event} (hb : s.busy = true) (hq : s.hostIn = []) (he : s.trace[s.upc]? = some e) :
    ∃ t, Reaches s t ∧ PastEvent e s t := by
  by_cases hh : s.holding = true
  · cases e with
    | hold d => exact ⟨_, countdown hb hq hh he, ⟨hb, hq, rfl, rfl, State.advance_trace _ _, rfl⟩⟩
    | cfg =>
      refine ⟨State.enable { s with done := false }, .one ?_, ⟨hb, hq, rfl, rfl, State.enable_trace _, rfl⟩⟩
      rw [step_quiet hq, blockStep_event (s := { s with done := false }) hb he, eventStep]
    | set p v =>
      obtain ⟨r, hs⟩ := step_set hb hq he
      exact ⟨_, .one hs, ⟨hb, hq, rfl, rfl, (State.withRx_trace _ r).trans (State.setPin_trace p v _), rfl⟩⟩
  · have hh' : s.holding = false := by simpa using hh
    exact ⟨s.perform e, reaches_perform hb hq hh' he, ⟨hb, hq, rfl, rfl, State.trace_congr rfl rfl rfl, rfl⟩⟩

/-- Settles O53: once past the event in progress no hold is running, and the rest is `reaches_end`. -/
theorem everyOperationEnds : Obligations.EveryOperationEnds := by
  intro s h hb hq
  rcases Nat.eq_or_lt_of_le (h.upc hb) with hend | hlt
  · refine ⟨State.complete { s with done := false }, .one ?_, rfl, rfl, by simp [hend]⟩
    rw [step_quiet hq]
    exact blockStep_end (s := { s with done := false }) hb hend
  · obtain ⟨t, hreach, ht⟩ := reaches_past_event hb hq (List.getElem?_eq_getElem hlt)
    rcases reaches_end ht.busy ht.quiet ht.holding with hdone | hpast
    · refine ⟨_, hreach.trans hdone, rfl, rfl, ?_⟩
      rw [State.complete_log, State.runAll_log, ht.log, ht.trace, ht.upc, List.append_assoc, List.singleton_append,
        List.getElem_cons_drop]
    · rw [ht.trace, ht.upc] at hpast
      omega

/-! ### CTRL_STATE during INIT (R104) -/

/-- The CTRL_STATE that belongs to the position `k` of INIT's trace. -/
def initCtrl (p : Params) (k : Nat) : CtrlState :=
  if k < (initToExtended p).length then .reset
  else if k < (initToExtended p ++ initToNormal p).length then .extendedMode else .normalMode

theorem initToExtended_shorter (p : Params) : (initToExtended p).length < (initToExtended p ++ initToNormal p).length := by
  simp [initToNormal]

/-- The marks of INIT's trace carry CTRL_STATE from one position to the next. -/
theorem initCtrl_succ (p : Params) (k : Nat) : (initMark p (k + 1)).getD (initCtrl p k) = initCtrl p (k + 1) := by
  have hlt := initToExtended_shorter p
  unfold initMark initCtrl
  generalize (initToExtended p).length = a at *
  generalize (initToExtended p ++ initToNormal p).length = b at *
  split_ifs <;> simp <;> omega

/-- INIT is running, its CTRL_STATE as the position says. -/
structure InitRunning (p : Params) (s : State) : Prop where
  busy : s.busy = true
  quiet : s.hostIn = []
  req : decodeRequest s.req = .ok .init
  params : s.params = p
  ctrl : s.ctrl = initCtrl p s.upc

theorem InitRunning.event {p : Params} {s : State} (h : InitRunning p s) (e : Event) (l : Link) :
    InitRunning p ((s.advance e).setLink l) := by
  refine ⟨h.busy, h.quiet, h.req, h.params, ?_⟩
  have hmark : s.mark (s.upc + 1) = initMark p (s.upc + 1) := by simp only [State.mark, h.req, h.params]
  have hctrl : ((s.advance e).setLink l).ctrl = (s.mark (s.upc + 1)).getD s.ctrl := rfl
  rw [hctrl, hmark, h.ctrl, initCtrl_succ]
  rfl

theorem InitRunning.holdStep {p : Params} {s : State} (h : InitRunning p s) (d : Nat) : InitRunning p (holdStep d s) := by
  unfold Machine.holdStep
  split_ifs
  · exact ⟨h.busy, h.quiet, h.req, h.params, h.ctrl⟩
  · exact ⟨h.busy, h.quiet, h.req, h.params, h.ctrl⟩
  · exact ⟨h.busy, h.quiet, h.req, h.params, h.ctrl⟩
  · exact h.event (.hold d) s.link

/-- A step of a running INIT that does not end it. -/
theorem InitRunning.step {p : Params} {s t : State} (h : InitRunning p s) (hs : step s = .next t) (ht : t.busy = true) :
    InitRunning p t := by
  rw [step_quiet h.quiet] at hs
  have h' : InitRunning p { s with done := false } := ⟨h.busy, h.quiet, h.req, h.params, h.ctrl⟩
  have hidle : ∀ P : Prop, ({ s with done := false } : State).busy = false → P := fun P hb =>
    absurd (h'.busy.symm.trans hb) (by simp)
  rcases blockStep_cases hs with ⟨hb, -⟩ | ⟨hb, -⟩ | ⟨hb, -⟩ | ⟨-, -, rfl⟩ | ⟨-, d, -, rfl⟩ | ⟨-, -, rfl⟩ | ⟨-, q, v, -, rfl⟩
  · exact hidle _ hb
  · exact hidle _ hb
  · exact hidle _ hb
  · cases ht
  · exact h'.holdStep d
  · exact h'.event .cfg { State.link s with oe := true }
  · exact h'.event (.set q v) (((State.setPin q v { s with done := false }).withRx _).link)

/-- The steps of a running INIT as long as BUSY has not fallen. -/
theorem InitRunning.stepN {p : Params} {n : Nat} {s t : State} (h : InitRunning p s) (hs : stepN n s = .next t)
    (hbusy : ∀ k ≤ n, ∀ m, Machine.stepN k s = .next m → m.busy = true) : InitRunning p t := by
  induction n generalizing s with
  | zero => cases hs; exact h
  | succ n ih =>
    cases hu : Machine.step s with
    | next u =>
      rw [stepN_succ hu] at hs
      have hub : u.busy = true := hbusy 1 (by omega) u (stepN_succ hu 0)
      exact ih (h.step hu hub) hs fun k hk m hm => hbusy (k + 1) (by omega) m (by rw [stepN_succ hu]; exact hm)
    | fault f => simp [Machine.stepN, hu] at hs
    | refused r => simp [Machine.stepN, hu] at hs

theorem initToExtended_length (p : Params) : (initToExtended p).length = if p.hasAux then 73 else 72 := by
  cases h : p.hasAux <;> simp [initToExtended, initStep1, initPulse, h]

theorem initToNormal_length (p : Params) : (initToNormal p).length = 305 := by simp [initToNormal]

/-- Settles O48: `InitRunning` holds at acceptance and is kept by every step during INIT. -/
theorem controllerStateDuringInit : Obligations.ControllerStateDuringInit := by
  intro s t v n h hexec hrun hbusy
  have he : encode .init = .request (reqWord 0x3 0 0) := rfl
  rw [exec_request he h.idle] at hexec
  cases hexec
  have hstart : InitRunning s.params (s.taken .init (reqWord 0x3 0 0)) := by
    refine ⟨rfl, h.quiet, decodeRequest_encode he, rfl, ?_⟩
    have hpos : 0 < (initToExtended s.params).length := by rw [initToExtended_length]; split <;> omega
    simp [State.taken, initCtrl, hpos]
  refine ⟨(hstart.stepN hrun hbusy).ctrl, fun haux => ?_, fun haux => ?_⟩ <;>
    simp [initToExtended_length, initToNormal_length, haux]

/-! ### INIT to its end (R100) -/

/-- A run of equal data frames. -/
theorem clearTrace_stream (p : Params) :
    clearTrace p = gotoTrace p 0 0 ++ (List.replicate p.ncell (0 : Byte)).flatMap (datTrace p) := by
  have hconst : List.replicate p.ncell (0 : Byte) = (List.range p.ncell).map fun _ => 0 := by simp
  rw [hconst, List.flatMap_map]
  rfl

/-- The settings INIT gives a live receiver before it clears the display (R103, R106). -/
structure InitSettings (p : Params) (r : Rx) : Prop where
  h : r.h = .basic
  addrMode : r.addrMode = .horizontal
  display : r.display = if p.inverse then .inverse else .normal
  vop : r.vop = 0x31
  tc : r.tc = 0x04
  bias : r.bias = 0x14

theorem InitSettings.of_same {p : Params} {r r' : Rx} (h : InitSettings p r) (hs : SameSettings r r') : InitSettings p r' :=
  ⟨hs.h.trans h.h, hs.addrMode.trans h.addrMode, hs.display.trans h.display, hs.vop.trans h.vop, hs.tc.trans h.tc,
    hs.bias.trans h.bias⟩

/-- Steps 4 to 10 of INIT (R100), at a live receiver. -/
theorem Link.run_initSettings {p : Params} {l : Link} (hl : l.Live) (hvop : p.vopDefaultCmd = 0xB1) (htc : p.tcCmd = 0x04)
    (hbias : p.biasCmd = 0x14) :
    let l' := l.run p (cmdTrace p 0x21 ++ initToNormal p ++ cmdTrace p (dispCtl p))
    l'.Live ∧ InitSettings p l'.rx := by
  simp only [initToNormal, hvop, htc, hbias, Link.run_append]
  obtain ⟨e1, l1⟩ := Link.run_fsetExt (p := p) hl
  obtain ⟨e2, l2⟩ := Link.run_setvop (p := p) l1 (b := 0xB1) (by rw [e1]) rfl
  obtain ⟨e3, l3⟩ := Link.run_settc (p := p) l2 (by rw [e2, e1])
  obtain ⟨e4, l4⟩ := Link.run_setbias (p := p) l3 (by rw [e3, e2, e1])
  obtain ⟨e5, l5⟩ := Link.run_dispCtl_extended (p := p) l4 (by rw [e4, e3, e2, e1])
  obtain ⟨e6, l6⟩ := Link.run_fsetBasic (p := p) l5
  obtain ⟨e7, l7⟩ := Link.run_dispCtl_basic (p := p) l6 (by rw [e6])
  refine ⟨l7, ?_⟩
  rw [e7, e6, e5, e4, e3, e2, e1]
  exact ⟨rfl, rfl, rfl, rfl, rfl, rfl⟩

/-- A hold does nothing to the link but draw a free value. -/
theorem Link.Live.hold {p : Params} {l : Link} (hl : l.Live) (d : Nat) : (l.run p [.hold d]).Live :=
  ⟨hl.oe, hl.rst, hl.clk, hl.undef, hl.bitcnt, hl.stray⟩

/-- What INIT leaves at the receiver and on the lines, whatever was there (R100, R155). -/
theorem Link.run_init {p : Params} (hp : p.wf = true) {l : Link} (hs : l.stray = false) (hvop : p.vopDefaultCmd = 0xB1)
    (htc : p.tcCmd = 0x04) (hbias : p.biasCmd = 0x14) :
    let l' := l.run p (initTrace p)
    l'.Live ∧ InitSettings p l'.rx ∧ (∃ q, l'.pins = pinsAfterFrame p .data 0 q) ∧
      (∀ a, a < p.ncell → l'.rx.ddram.read a = some 0) ∧ (p.wrapLast = some (0, 0) → l'.rx.x = 0 ∧ l'.rx.y = 0) := by
  intro l'
  obtain ⟨hhead, -⟩ := Link.run_initHead p l hs
  have htrace : initTrace p = (initStep1 p ++ initPulse p) ++ ((cmdTrace p 0x21 ++ initToNormal p ++ cmdTrace p (dispCtl p)) ++
      ([.hold p.tSettleUs] ++ clearTrace p)) := by rw [initTrace_split]; simp only [List.append_assoc]
  have hsplit : l' = (((l.run p (initStep1 p ++ initPulse p)).run p
      (cmdTrace p 0x21 ++ initToNormal p ++ cmdTrace p (dispCtl p))).run p [.hold p.tSettleUs]).run p (clearTrace p) := by
    rw [← Link.run_append, ← Link.run_append, ← Link.run_append, ← htrace]
  rw [hsplit]
  generalize l.run p (initStep1 p ++ initPulse p) = l₁ at hhead ⊢
  obtain ⟨hset, hsettings⟩ := Link.run_initSettings (p := p) hhead hvop htc hbias
  generalize l₁.run p (cmdTrace p 0x21 ++ initToNormal p ++ cmdTrace p (dispCtl p)) = l₂ at hset hsettings ⊢
  have hsettled := hset.hold (p := p) p.tSettleUs
  obtain ⟨hlive, hsame, hcells, haddr⟩ := Link.run_screen hp hsettled hsettings.h hsettings.addrMode
    (List.replicate p.ncell 0) List.length_replicate
  rw [← clearTrace_stream] at hlive hsame hcells haddr
  refine ⟨hlive, hsettings.of_same hsame, ?_, fun a ha => ?_, haddr⟩
  · obtain ⟨n, hn⟩ : ∃ n, p.ncell = n + 1 := by
      obtain ⟨hcols, -, hbands, -⟩ := params_bounds hp
      exact Nat.exists_eq_succ_of_ne_zero (Nat.mul_pos hcols hbands).ne'
    rw [clearTrace_stream, hn, List.replicate_succ', Link.run_append]
    exact ⟨_, Link.run_stream_pins _ _ _⟩
  · rw [hcells a ha, List.getElem?_replicate, if_pos ha]

/-- CTRL_STATE at the end of INIT (R104). -/
theorem State.finished_ctrl_init (s : State) : (s.finished .init (reqWord 0x3 0 0)).ctrl = .normalMode := by
  have hdec : decodeRequest (reqWord 0x3 0 0) = .ok .init := decodeRequest_encode (i := .init) rfl
  have hlt := initToExtended_shorter s.params
  rw [State.finished, State.complete_ctrl, opTrace, State.runAll_ctrl_init (s := s.taken .init (reqWord 0x3 0 0)) _ hdec, if_pos]
  simp only [State.taken, initTrace, List.length_append] at hlt ⊢
  omega

/-- The reset and illumination lines after an operation that started in idle are high (R12). -/
theorem Inv.finished_lines {s : State} (h : Inv s) (hb : s.busy = false) (i : Instr) (w : BitVec 20) :
    (s.finished i w).pins.rst = true ∧ (s.finished i w).pins.aux = true := by
  obtain ⟨-, -, hrst, haux⟩ := opTrace_idle s.params s.opb i
  have hperf := State.performed_idle hb
  refine ⟨(s.finished_pin i w .rst).trans ?_, (s.finished_pin i w .aux).trans ?_⟩
  · rw [Pins.get_rst, h.rst, hperf]; exact hrst
  · rw [Pins.get_aux, h.aux, hperf]; exact haux

/-- Settles O47: `Link.run_init` at the receiver and on the lines, and the block's registers as the operation leaves them. -/
theorem initCompletes : Obligations.InitCompletes := by
  intro s h hvop htc hbias
  have he : encode .init = .request (reqWord 0x3 0 0) := rfl
  have hstray : (s.linkOf (reqWord 0x3 0 0)).stray = false := gotoStrays_other s.params he (by simp)
  obtain ⟨hlive, hset, ⟨q, hpins⟩, hcells, haddr⟩ := Link.run_init h.inv.params hstray hvop htc hbias
  obtain ⟨hrst, haux⟩ := h.inv.finished_lines h.idle .init (reqWord 0x3 0 0)
  have hparams := State.finished_params .init (reqWord 0x3 0 0) s
  have hfrx := State.finished_rx .init (reqWord 0x3 0 0) s
  have hfpins := (State.finished_pins .init (reqWord 0x3 0 0) s).trans hpins
  rw [opTrace] at hfrx
  rw [← hfrx] at hset hcells haddr
  refine ⟨_, completes_request he h.idle h.quiet, State.finished_log .init _ s, (State.finished_oe .init _ s).trans hlive.oe,
    s.finished_ctrl_init, ?_, hrst, haux, hparams, State.finished_ill .init _ s, State.finished_opb .init _ s,
    State.finished_requests .init _ s, ?_, hset.h, hset.addrMode, hset.display, hset.vop, hset.tc, hset.bias, hcells, haddr⟩
  · constructor
    · rw [hfpins, hparams]; rfl
    · rw [hfpins]; rfl
    · rw [hfpins]; rfl
    · rw [hfpins]; rfl
  · rw [hfrx]; exact hlive.undef

end Sys2Proof.Machine
end

section
/-! PROOFS. Readings of whole operations: the operand bytes in order (spec/20_memory.md R42), and the counts of R209's table. -/

namespace Sys2Proof.Machine

/-! ### Operand bytes (R42, R124) -/

/-- In a list along which `g` does not fall, the elements below `M + 1` are those below `M`, then those at `M`. -/
theorem filter_lt_succ {g : Nat → Nat} {l : List Nat} (h : l.Pairwise fun a b => g a ≤ g b) (M : Nat) :
    l.filter (fun j => decide (g j < M + 1)) = l.filter (fun j => decide (g j < M)) ++ l.filter (fun j => decide (g j = M)) := by
  induction l with
  | nil => rfl
  | cons a l ih =>
    obtain ⟨hle, hl⟩ := List.pairwise_cons.mp h
    by_cases hlt : g a < M
    · simp only [List.filter_cons, ih hl, hlt, Nat.lt_succ_of_lt hlt, hlt.ne, decide_true, decide_false, Bool.false_eq_true, if_true,
        if_false, List.cons_append]
    · have hnone : l.filter (fun j => decide (g j < M)) = [] :=
        List.filter_eq_nil_iff.mpr fun j hj => by have := hle j hj; simp; omega
      have hiff : (g a < M + 1) ↔ g a = M := by omega
      simp only [List.filter_cons, ih hl, hnone, hlt, hiff, decide_false, List.nil_append, Bool.false_eq_true, if_false]

/-- A list along which `g` does not fall, read off by the values of `g` in turn. -/
theorem flatMap_filter_eq {g : Nat → Nat} {l : List Nat} (h : l.Pairwise fun a b => g a ≤ g b) (M : Nat) :
    (List.range M).flatMap (fun k => l.filter (fun j => decide (g j = k))) = l.filter (fun j => decide (g j < M)) := by
  induction M with
  | zero => simp
  | succ M ih =>
    rw [List.range_succ, List.flatMap_append, ih, filter_lt_succ h]
    simp

/-- The operand indices shown at one position, out of the first `N`, which stand at the positions `g`. -/
theorem filter_offset {off : Nat → Option Nat} {g : Nat → Nat} {N size : Nat} (hN : N ≤ size)
    (hoff : ∀ j, off j = if j < N then some (g j) else none) (k : Nat) :
    (List.range size).filter (fun j => off j == some k) = (List.range N).filter (fun j => decide (g j = k)) := by
  obtain ⟨c, rfl⟩ := Nat.exists_eq_add_of_le hN
  have hrest : ((List.range c).map (N + ·)).filter (fun j => off j == some k) = [] := by
    refine List.filter_eq_nil_iff.mpr fun j hj => ?_
    obtain ⟨i, -, rfl⟩ := List.mem_map.mp hj
    simp [hoff]
  rw [List.range_add, List.filter_append, hrest, List.append_nil]
  refine List.filter_congr fun j hj => ?_
  simp [hoff, List.mem_range.mp hj, beq_eq_decide]

/-- An operation that reads `N` bytes at rising positions of its trace shows their indices in ascending order. -/
theorem opbAddr_ascending {s : State} {N : Nat} {g : Nat → Nat} (hb : s.busy = true) (hN : N ≤ 512) (hg : Monotone g)
    (hoff : ∀ j, s.offset j = if j < N then some (g j) else none) (hend : ∀ j < N, g j ≤ s.trace.length) :
    (List.range (s.trace.length + 1)).flatMap (fun k => ({ s with upc := k } : State).opbAddr) =
      (List.range N).map (BitVec.ofNat 9) := by
  have hshown : ∀ k, ({ s with upc := k } : State).opbAddr =
      ((List.range N).filter (fun j => decide (g j = k))).map (BitVec.ofNat 9) := by
    intro k
    rw [← filter_offset hN hoff k]
    exact if_pos hb
  have hsorted : (List.range N).Pairwise fun a b => g a ≤ g b :=
    List.pairwise_lt_range.imp fun hab => hg hab.le
  simp only [hshown]
  rw [← List.map_flatMap, flatMap_filter_eq hsorted, List.filter_eq_self.mpr]
  intro j hj
  have := hend j (List.mem_range.mp hj)
  simp only [decide_eq_true_eq]
  omega

theorem gotoTrace_length (p : Params) (x y : Byte) : (gotoTrace p x y).length = 122 := rfl

theorem datStream_length {α : Type} (p : Params) (f : α → Byte) (l : List α) :
    (l.flatMap fun a => datTrace p (f a)).length = l.length * 61 :=
  measure_flatMap List.length rfl (fun _ _ => List.length_append) _ l 61 fun _ _ => rfl

theorem textTrace_succ (p : Params) (opb : Memory) (n : Nat) :
    textTrace p opb (n + 1) = textTrace p opb n ++ charTrace p (opbByte opb n) := by
  simp [textTrace, List.range_succ]

theorem textTrace_length_mono (p : Params) (opb : Memory) : Monotone fun j => (textTrace p opb j).length :=
  monotone_nat_of_le_succ fun j => by rw [textTrace_succ, List.length_append]; exact Nat.le_add_right _ _

/-- The trace and the operand positions of the operation in progress, by its instruction. -/
theorem State.trace_of_decode {s : State} {i : Instr} (h : decodeRequest s.req = .ok i) :
    s.trace = opTrace s.params s.opbAcc i := by
  simp only [State.trace, wordTrace, h]

theorem State.offset_of_decode {s : State} {i : Instr} (h : decodeRequest s.req = .ok i) (j : Nat) :
    s.offset j = opbOffset s.params s.opbAcc i j := by
  simp only [State.offset, h]

/-- Settles O16: IMAGE's bytes stand a frame apart, TEXT's a character apart, and the other operations have none. -/
theorem operandsReadInOrder : Obligations.OperandsReadInOrder := by
  intro s i hb hp hd
  have htrace := State.trace_of_decode hd
  have hoff := State.offset_of_decode hd
  cases i with
  | image =>
    refine opbAddr_ascending (g := fun j => 122 + j * 61) hb (params_bounds hp).2.2.2.2 (fun a b hab => by simp; omega)
      (fun j => ?_) fun j hj => ?_
    · rw [hoff, opbOffset, List.length_append, gotoTrace_length, datStream_length, List.length_range]
    · rw [htrace, opTrace, imageTrace, List.length_append, gotoTrace_length, datStream_length, List.length_range]
      omega
  | text n =>
    refine opbAddr_ascending hb (by have := n.isLt; omega) (textTrace_length_mono s.params s.opbAcc) hoff fun j hj => ?_
    rw [htrace]
    exact textTrace_length_mono s.params s.opbAcc hj.le
  | _ => exact opbAddr_ascending (N := 0) hb (by omega) monotone_id hoff (by simp)

/-! ### Counts (R209) -/

/-- The `S` events, the `H` events and the sum of the holds of a trace. -/
def traceCounts (L : List Event) : Nat × Nat × Nat := (setCount L, holdCount L, holdSum L)

theorem traceCounts_append (A B : List Event) : traceCounts (A ++ B) = traceCounts A + traceCounts B := by
  simp [traceCounts, setCount_append, holdCount_append, holdSum_append]

/-- Pieces of equal counts. -/
theorem traceCounts_flatMap {α : Type} (f : α → List Event) (l : List α) {c : Nat × Nat × Nat}
    (h : ∀ x ∈ l, traceCounts (f x) = c) :
    traceCounts (l.flatMap f) = l.length • c := by
  induction l with
  | nil => rw [List.length_nil, zero_smul]; rfl
  | cons x l ih =>
    rw [List.flatMap_cons, traceCounts_append, h x (by simp), ih fun y hy => h y (by simp [hy]), List.length_cons, succ_nsmul']

section Default
variable {p : Params} (ht : p.tUs = 14) (hl : p.tailT = 2)
include ht hl

theorem txbTrace_counts (b : Byte) (m : Bool) : traceCounts (txbTrace p b m) = (32, 25, 364) := by
  simp [traceCounts, txbTrace_setCount, txbTrace_holdCount, txbTrace_holdSum, ht, hl]

theorem wrbTrace_counts (m : Mode) (b : Byte) : traceCounts (wrbTrace p m b) = (35, 26, 378) := by
  simp [traceCounts, wrbTrace_setCount, wrbTrace_holdCount, wrbTrace_holdSum, ht, hl]

theorem gotoTrace_counts (x y : Byte) : traceCounts (gotoTrace p x y) = (70, 52, 756) := by
  rw [gotoTrace, traceCounts_append, cmdTrace, cmdTrace, wrbTrace_counts ht hl, wrbTrace_counts ht hl]; rfl

theorem contrastTrace_counts (level : Byte) : traceCounts (contrastTrace p level) = (105, 78, 1134) := by
  simp only [contrastTrace, traceCounts_append, cmdTrace, wrbTrace_counts ht hl]; rfl

theorem datStream_counts {α : Type} (f : α → Byte) (l : List α) :
    traceCounts (l.flatMap fun a => datTrace p (f a)) = l.length • (35, 26, 378) :=
  traceCounts_flatMap _ l fun _ _ => wrbTrace_counts ht hl .data _

theorem charTrace_counts {ch : Byte} (h : isControl ch = false) : traceCounts (charTrace p ch) = (245, 182, 2646) := by
  rw [charTrace, if_neg (by simp [h]), traceCounts_append, traceCounts_append, datStream_counts ht hl, datTrace,
    wrbTrace_counts ht hl]
  rfl

theorem padTrace_counts (n : Nat) : traceCounts (padTrace p n) = n • (245, 182, 2646) := by
  rw [padTrace, traceCounts_flatMap _ _ fun _ _ => charTrace_counts ht hl (by decide), List.length_range]

/-- A character that TEXT skips adds nothing. -/
theorem textTrace_counts (opb : Memory) (n : Nat) : traceCounts (textTrace p opb n) =
    ((List.range n).filter (fun i => !isControl (opbByte opb i))).length • (245, 182, 2646) := by
  induction n with
  | zero => rw [List.range_zero, List.filter_nil, List.length_nil, zero_smul]; rfl
  | succ n ih =>
    rw [textTrace_succ, traceCounts_append, ih, List.range_succ, List.filter_append, List.length_append, add_nsmul]
    cases hc : isControl (opbByte opb n)
    · rw [charTrace_counts ht hl hc]; simp [hc]
    · simp [charTrace, hc, traceCounts, setCount, holdCount, holdSum]

theorem screenTrace_counts (hcols : p.cols = 84) (hbands : p.bands = 6) (f : Nat → Byte) :
    traceCounts (gotoTrace p 0 0 ++ (List.range p.ncell).flatMap fun a => datTrace p (f a)) = (17710, 13156, 191268) := by
  rw [traceCounts_append, gotoTrace_counts ht hl, datStream_counts ht hl, List.length_range, Params.ncell, hcols, hbands]
  rfl

theorem borderPair_counts (x y : Nat) (b : Byte) : traceCounts (borderPair p x y b) = (105, 78, 1134) := by
  rw [borderPair, traceCounts_append, gotoTrace_counts ht hl, datTrace, wrbTrace_counts ht hl]; rfl

theorem borderTrace_counts (hcols : p.cols = 84) (hbands : p.bands = 6) : traceCounts (borderTrace p) = (18900, 14040, 204120) := by
  rw [borderTrace_pairs, pairsTrace, traceCounts_flatMap _ _ fun _ _ => borderPair_counts ht hl _ _ _]
  simp [borderPairs, hcols, hbands]

end Default

theorem initTrace_counts : traceCounts (initTrace Params.default) = (17963, 13342, 313956) := by
  have hclear : traceCounts (clearTrace Params.default) = (17710, 13156, 191268) := screenTrace_counts rfl rfl rfl rfl _
  simp only [initTrace, initToExtended, initToNormal, traceCounts_append, cmdTrace, wrbTrace_counts (p := Params.default) rfl rfl,
    hclear]
  rfl

/-! ### Lengths (R14) -/

theorem length_flatMap_le {α : Type} (f : α → List Event) (l : List α) {c : Nat} (h : ∀ x ∈ l, (f x).length ≤ c) :
    (l.flatMap f).length ≤ l.length * c := by
  rw [List.length_flatMap]
  simpa using List.sum_le_card_nsmul (l.map fun x => (f x).length) c (by simpa using h)

theorem charTrace_length_le (p : Params) (ch : Byte) : (charTrace p ch).length ≤ 427 := by
  unfold charTrace
  split
  · simp
  · simp

theorem textTrace_length_le (p : Params) (opb : Memory) (n : Nat) : (textTrace p opb n).length ≤ n * 427 :=
  (length_flatMap_le _ (List.range n) fun _ _ => charTrace_length_le p _).trans_eq (by rw [List.length_range])

theorem padTrace_length_le (p : Params) (n : Nat) : (padTrace p n).length ≤ n * 427 :=
  (length_flatMap_le _ (List.range n) fun _ _ => charTrace_length_le p _).trans_eq (by rw [List.length_range])

theorem screenTrace_length (p : Params) (f : Nat → Byte) :
    (gotoTrace p 0 0 ++ (List.range p.ncell).flatMap fun a => datTrace p (f a)).length = 122 + p.ncell * 61 := by
  rw [List.length_append, gotoTrace_length, datStream_length, List.length_range]

theorem clearTrace_length (p : Params) : (clearTrace p).length = 122 + p.ncell * 61 := screenTrace_length p fun _ => 0

theorem initTrace_length (p : Params) : (initTrace p).length = (if p.hasAux then 73 else 72) + 489 + p.ncell * 61 := by
  simp only [initTrace, List.length_append, initToExtended_length, initToNormal_length, cmdTrace_length, clearTrace_length,
    List.length_singleton]
  omega

theorem borderTrace_length (p : Params) : (borderTrace p).length = (p.cols + p.cols + p.bands + p.bands) * 183 := by
  rw [borderTrace_pairs, pairsTrace, measure_flatMap List.length rfl (fun _ _ => List.length_append) _ _ 183 fun _ _ => rfl]
  simp [borderPairs, Nat.add_assoc]

theorem opTrace_length_le {p : Params} (opb : Memory) (hcols : p.cols = 84) (hbands : p.bands = 6) (i : Instr) :
    (opTrace p opb i).length ≤ 108885 := by
  have hncell : p.ncell = 504 := by rw [Params.ncell, hcols, hbands]
  cases i with
  | txb b m => rw [opTrace, txbTrace_length]; omega
  | wrb m b => rw [opTrace, wrbTrace_length]; omega
  | init => rw [opTrace, initTrace_length, hncell]; split <;> omega
  | contrast l => simp [opTrace, contrastTrace]
  | goto x y => rw [opTrace, gotoTrace_length]; omega
  | clear => rw [opTrace, clearTrace_length, hncell]; omega
  | image => rw [opTrace, imageTrace, screenTrace_length, hncell]; omega
  | char ch => exact (charTrace_length_le p ch).trans (by omega)
  | text n => exact (textTrace_length_le p opb n.toNat).trans (by have := n.isLt; omega)
  | pad n => exact (padTrace_length_le p n.toNat).trans (by have := n.isLt; omega)
  | border => rw [opTrace, borderTrace_length, hcols, hbands]; omega
  | _ => exact Nat.zero_le _

/-- Settles O21: the rows of the table are the `_counts` lemmas, the bound is `opTrace_length_le`. -/
theorem durationTable : Obligations.DurationTable := by
  intro p opb ht hl hcols hbands counts
  refine ⟨txbTrace_counts ht hl, wrbTrace_counts ht hl, gotoTrace_counts ht hl, contrastTrace_counts ht hl,
    fun ch => charTrace_counts ht hl, fun ch h => if_pos h, fun n => ?_, fun n => ?_, screenTrace_counts ht hl hcols hbands _,
    screenTrace_counts ht hl hcols hbands _, borderTrace_counts ht hl hcols hbands, ?_, opTrace_length_le opb hcols hbands⟩
  · exact (padTrace_counts ht hl n).trans (by simp [Nat.mul_comm])
  · exact (textTrace_counts ht hl opb n).trans (by simp [Nat.mul_comm])
  · rintro rfl
    exact ⟨initTrace_counts, initTrace_length _⟩

end Sys2Proof.Machine
end

section
/-! PROOFS. What can be read off single steps, frames and traces: glyph rows (spec/20_memory.md R43), operand bytes changed under an
operation (R56), the bits of TXB (spec/40_bit_transmitter.md R80), what frames and steps leave alone (spec/44_display_commands.md). -/

namespace Sys2Proof.Machine

/-! ### Glyph rows (R67, R123) -/

theorem glyphRow_lt (ch : Byte) : glyphRow ch < 96 := by
  unfold glyphRow
  split
  · next h => have hle : ch.toNat ≤ 127 := h.2; omega
  · omega

/-- Settles O24: the two branches of `glyphRow`, and the row of 'A' (R43). -/
theorem glyphSelection : Obligations.GlyphSelection :=
  fun ch => ⟨fun h => if_pos h, fun h => if_neg h, glyphRow_lt ch, rfl⟩

/-! ### A byte of OPB changed under the running operation (R56) -/

/-- Settles O15: `hostWrite` changes OPB, the operand bytes by its free choice, and nothing of what has been performed. -/
theorem operandChangedWhileRead : Obligations.OperandChangedWhileRead := by
  intro s i b
  have hacc := s.hostWrite_eq i b
  have hperf := s.hostWrite_performed i b
  obtain ⟨m, n, hf⟩ := State.hostWrite_fields i b s
  rw [hf] at hacc hperf ⊢
  exact ⟨rfl, hacc, fun hb => by simpa only [State.performed, hb, if_true] using hperf, rfl, rfl, rfl⟩

/-! ### The bits of TXB (R80, R81) -/

/-- One bit: the data line is sampled once, at the level written, whatever the lines were before. -/
theorem clocked_bitTrace (p : Params) (v clk din : Level) (L : List Event) :
    clocked clk din (bitTrace p v ++ L) = v :: clocked false v L := rfl

/-- Bits sent one after another are sampled one after another. -/
theorem clocked_bits (p : Params) (f : Nat → Level) (d : Nat) (order : List Nat) (clk din : Level) :
    clocked clk din (order.flatMap (fun i => bitTrace p (f i)) ++ [.hold d]) = order.map f := by
  induction order generalizing clk din with
  | nil => rfl
  | cons i order ih => rw [List.flatMap_cons, List.append_assoc, clocked_bitTrace, ih, List.map_cons]

theorem clocked_txbTrace (p : Params) (b : Byte) (m : Bool) (clk din : Level) :
    clocked clk din (txbTrace p b m) = (bitOrder m).map b.getLsbD :=
  clocked_bits p b.getLsbD _ _ clk din

/-- Settles O17: the bits of `bitOrder` are sampled in that order, and the counts are those of `txbTrace`. -/
theorem txbSendsBitsInOrder : Obligations.TxbSendsBitsInOrder := by
  intro p b din
  refine ⟨clocked_txbTrace p b true false din, clocked_txbTrace p b false false din, fun m => ?_⟩
  exact ⟨txbTrace_length p b m, txbTrace_setCount p b m, txbTrace_holdCount p b m,
    (txbTrace_holdSum p b m).trans (Nat.add_mul _ _ _).symm⟩

/-! ### What a frame leaves alone at the receiver (R143 to R150) -/

/-- The fields of a receiver that the frame `i` is not about are the same in `r` and `r'`. -/
structure OwnFieldsOnly (i : Instr) (r r' : Rx) : Prop where
  sr : r'.sr = r.sr
  bitcnt : r'.bitcnt = r.bitcnt
  ddram : (∀ d, i ≠ .data d) → r'.ddram = r.ddram
  x : (∀ d, i ≠ .data d) → (∀ x, i ≠ .setx x ∧ i ≠ .setvop x) → r'.x = r.x
  y : (∀ d, i ≠ .data d) → (∀ y, i ≠ .sety y) → r'.y = r.y
  mode : i ≠ .fsetExt → i ≠ .fsetBasic → r'.h = r.h ∧ r'.addrMode = r.addrMode
  display : i ≠ .dispNormal → i ≠ .dispInverse → r'.display = r.display
  vop : i ≠ .vopZero → (∀ v, i ≠ .setvop v ∧ i ≠ .setx v) → r'.vop = r.vop
  tc : i ≠ .settc → r'.tc = r.tc
  bias : i ≠ .setbias → r'.bias = r.bias

theorem OwnFieldsOnly.refl (i : Instr) (r : Rx) : OwnFieldsOnly i r r := by constructor <;> simp

/-- The receiver of `rxLose` has no defined state. -/
theorem rxLose_undef (n : Nat) : (rxLose n).1.undef = true := rfl

/-- Where a column-set, a band-set or a data byte leaves a defined state, the operand was in range. -/
theorem rxColumn_defined {p : Params} {x : BitVec 7} {r : Rx} {n : Nat} (h : (rxColumn p x r n).1.undef = false) :
    (rxColumn p x r n).1 = { r with x := x } := by
  unfold rxColumn at h ⊢
  split_ifs at h ⊢
  · rfl
  · cases h

theorem rxBand_defined {p : Params} {y : BitVec 3} {r : Rx} {n : Nat} (h : (rxBand p y r n).1.undef = false) :
    (rxBand p y r n).1 = { r with y := y } := by
  unfold rxBand at h ⊢
  split_ifs at h ⊢
  · rfl
  · cases h

theorem rxData_defined {p : Params} {b : Byte} {r : Rx} {n : Nat} (h : (rxData p b r n).1.undef = false) :
    (rxData p b r n).1 = { r with
      ddram := r.ddram.write (r.cell p) b, x := (r.nextAddress p n).1, y := (r.nextAddress p n).2 } := by
  unfold rxData at h ⊢
  split_ifs at h ⊢
  · rfl
  · cases h

/-- A frame that leaves a defined state changes its own fields only. -/
theorem rxExec_ownFields {p : Params} {i : Instr} {r : Rx} {n : Nat} (h : (rxExec p i r n).1.undef = false) :
    OwnFieldsOnly i r (rxExec p i r n).1 := by
  cases i with
  | fsetExt | fsetBasic => constructor <;> simp [rxExec]
  | setx x | setvop x =>
    cases hh : r.h <;> simp only [rxExec, hh] at h ⊢
    · rw [rxColumn_defined h]; constructor <;> simp
    · constructor <;> simp [hh]
  | sety y =>
    cases hh : r.h <;> simp only [rxExec, hh] at h ⊢
    · rw [rxBand_defined h]; constructor <;> simp
    · cases h
  | dispNormal | dispInverse =>
    cases hh : r.h <;> simp only [rxExec, hh]
    · constructor <;> simp [hh]
    · exact .refl _ _
  | vopZero | settc | setbias =>
    cases hh : r.h <;> simp only [rxExec, hh] at h ⊢
    · cases h
    · constructor <;> simp [hh]
  | data d =>
    simp only [rxExec] at h ⊢
    rw [rxData_defined h]; constructor <;> simp
  | _ => exact .refl _ _

/-- Settles O32: a frame is `exec_frame`, a change of the receiver alone, and there `rxExec_ownFields`. -/
theorem frameOfFrames : Obligations.FrameOfFrames := by
  intro s t i f he hexec
  rw [exec_frame (by simp [isFrame, he])] at hexec
  cases hexec
  refine ⟨rfl, fun hu ht => ?_⟩
  simp only [State.withRx_rx, hu, Bool.false_eq_true, if_false] at ht ⊢
  obtain ⟨hsr, hbit, hdd, hx, hy, hmode, hdisp, hvop, htc, hbias⟩ := rxExec_ownFields ht
  exact ⟨hsr, hbit, fun hd a => by rw [hdd hd], hx, hy, hmode, hdisp, hvop, htc, hbias⟩

/-! ### What a step leaves alone in DDRAM (R41, R50, R140, R142) -/

/-- A pin write that keeps the receiver's defined state, no reset pulse, writes at most one cell, at the eighth bit of a data
frame. -/
theorem rxDeliver_ddram {p : Params} {k oe : Bool} {q : Pins} {pin : Pin} {old v : Level} {r : Rx} {n : Nat}
    (hr : r.undef = false) (hu : (rxDeliver p k oe q pin old v r n).1.undef = false) (hpulse : ¬ (pin = .rst ∧ v = false)) :
    (rxDeliver p k oe q pin old v r n).1.ddram = r.ddram ∨
      (pin = .clk ∧ v = true ∧ old = false ∧ q.cs = false ∧ r.bitcnt = 7 ∧ pinMode p q = .data ∧ r.addressed p = true ∧
        (rxDeliver p k oe q pin old v r n).1.ddram = r.ddram.write (r.cell p) (shiftIn r.sr q.din)) := by
  rcases rxDeliver_cases p k oe q pin old v r n with ⟨e, -⟩ | ⟨-, hrst, hlow, -⟩ | ⟨-, -, e⟩ | ⟨-, -, -, -, e⟩ |
    ⟨-, -, -, -, -, -, -, e⟩ | ⟨-, -, hpin, hv, hold, hcs, hbit, -, e⟩
  · exact .inl (by rw [e])
  · exact absurd ⟨hrst, hlow⟩ hpulse
  · rw [e, rxLose_undef] at hu; cases hu
  · exact .inl (by rw [e])
  · exact .inl (by rw [e])
  · rw [e] at hu ⊢
    rcases rxTake_cases p (pinMode p q) (shiftIn r.sr q.din) { r with sr := shiftIn r.sr q.din, bitcnt := 0 } n hr with
      ⟨hlost, -⟩ | ⟨-, -, hsame | ⟨hmode, haddr, hwrite⟩⟩
    · rw [hlost] at hu; cases hu
    · exact .inl hsame
    · exact .inr ⟨hpin, hv, hold, hcs, hbit, hmode, haddr, hwrite⟩

/-- The same of a step of the block, which reaches DDRAM by a pin write only. -/
theorem blockStep_ddram {s t : State} (h : blockStep s = .next t) (hs : s.rx.undef = false) (ht : t.rx.undef = false)
    (hpulse : t.log ≠ s.log ++ [.set .rst false]) :
    t.rx.ddram = s.rx.ddram ∨
      (t.log = s.log ++ [.set .clk true] ∧ s.pins.clk = false ∧ s.pins.cs = false ∧ s.rx.bitcnt = 7 ∧ s.frameMode = .data ∧
        Addressed s ∧ t.rx.ddram = s.rx.ddram.write (s.rx.cell s.params) s.shifted) := by
  rcases blockStep_cases h with ⟨-, -, rfl⟩ | ⟨-, w, ws, i, -, -, rfl⟩ | ⟨hb, w, ws, r, -, -, rfl⟩ | ⟨-, -, rfl⟩ |
    ⟨-, d, -, rfl⟩ | ⟨-, -, rfl⟩ | ⟨-, p, v, -, rfl⟩
  · exact .inl rfl
  · exact .inl rfl
  · rw [State.accept_idle w (s := { s with requests := ws }) hb]; exact .inl rfl
  · exact .inl rfl
  · exact .inl (by rw [holdStep_rx])
  · exact .inl rfl
  · have hnot : ¬ (p = .rst ∧ v = false) := by rintro ⟨rfl, rfl⟩; exact hpulse rfl
    refine (rxDeliver_ddram hs ht hnot).imp id ?_
    rintro ⟨rfl, rfl, hclk, hcs, hbit, hmode, haddr, hwrite⟩
    exact ⟨rfl, hclk, hcs, hbit, hmode, haddr, hwrite⟩

/-- Settles O60: hardware reset takes the receiver's defined state, the host's action leaves the receiver alone, and the block's
step is `blockStep_ddram`. -/
theorem onlyDataFramesWriteCells : Obligations.OnlyDataFramesWriteCells := by
  intro s t h hs ht hpulse
  rcases step_cases h with ⟨rest, -, rfl⟩ | ⟨s₁, hhost, hblock⟩
  · cases ht
  · obtain ⟨hparams, -, hpins, -, -, -, -, -, -, -, -, hrx, hlog, -⟩ := hhost.frame
    have hcells := blockStep_ddram hblock (by rwa [hrx]) ht (by rwa [hlog])
    simp only [State.frameMode, State.shifted, Addressed, hparams, hpins, hrx, hlog] at hcells ⊢
    exact hcells.imp_left fun hsame a => by rw [hsame]

end Sys2Proof.Machine
end

section
/-! PROOFS. Whole operations at a listening receiver: frames and GOTOs without a defined effect (spec/42_controller.md R108,
spec/44_display_commands.md R154), IMAGE and BORDER (spec/43_rendering.md R121, R126; spec/20_memory.md R46, R47). -/

namespace Sys2Proof.Machine

/-! ### The lines after an operation that ends with a frame (R92) -/

theorem endsFrame_finished {s : State} {i : Instr} (w : BitVec 20) {A : List Event} {m : Mode} {b : Byte}
    (h : opTrace s.params s.opb i = A ++ wrbTrace s.params m b) : EndsFrame m b (s.finished i w) := by
  have hpin : ∀ q, (s.finished i w).pins.get q = lastLevel q (lastLevel q (s.pins.get q) A) (wrbTrace s.params m b) := fun q => by
    rw [State.finished_pin, h, lastLevel_append]
  exact ⟨(hpin .dc).trans (by rw [wrbTrace_dc, State.finished_params]), (hpin .cs).trans (wrbTrace_cs ..),
    (hpin .clk).trans (wrbTrace_clk ..), (hpin .din).trans (wrbTrace_din ..)⟩

/-! ### Frames and GOTOs without a defined effect (R72, R108, R154) -/

/-- Column-set and band-set are read in BASIC only (R73). -/
theorem decodeFrame_basic {h : InstrSet} {m : Mode} {b : Byte} {i : Instr} (hd : decodeFrame h m b = .ok i)
    (hi : (∃ x, i = .setx x) ∨ ∃ y, i = .sety y) : h = .basic := by
  cases h with
  | basic => rfl
  | extended =>
    cases m with
    | data => rcases hi with ⟨x, rfl⟩ | ⟨y, rfl⟩ <;> simp [decodeFrame] at hd
    | command => rcases hi with ⟨x, rfl⟩ | ⟨y, rfl⟩ <;> simp [decodeFrame, decodeCommand, ite_eq_iff] at hd

/-- A COMMAND byte without a defined effect: outside the table, or a column or a band that is none of the display's. -/
def NoEffect (p : Params) (h : InstrSet) (b : Byte) : Prop :=
  (∃ r, decodeFrame h .command b = .error r) ∨
    (∃ x, decodeFrame h .command b = .ok (.setx x) ∧ p.cols ≤ x.toNat) ∨
    ∃ y, decodeFrame h .command b = .ok (.sety y) ∧ p.bands ≤ y.toNat

/-- Such a byte costs a receiver its defined state. -/
theorem NoEffect.lost {p : Params} {b : Byte} {r : Rx} (h : NoEffect p r.h b) (n : Nat) :
    (rxTake p .command b r n).1.undef = true := by
  rcases h with ⟨e, hd⟩ | ⟨x, hd, hx⟩ | ⟨y, hd, hy⟩
  · simp only [rxTake, hd, rxLose_undef]
  · have hbasic := decodeFrame_basic hd (.inl ⟨x, rfl⟩)
    simp only [rxTake, hd]
    simp only [rxExec, hbasic, rxColumn, if_neg (Nat.not_lt_of_le hx), rxLose_undef]
  · have hbasic := decodeFrame_basic hd (.inr ⟨y, rfl⟩)
    simp only [rxTake, hd]
    simp only [rxExec, hbasic, rxBand, if_neg (Nat.not_lt_of_le hy), rxLose_undef]

/-- The driven lines and the idle receiver of a listening machine, under whichever request word. -/
theorem Listening.lines {s : State} (h : Listening s) (w : BitVec 20) :
    let l := s.linkOf w
    l.oe = true ∧ l.pins.rst = true ∧ l.pins.clk = false ∧ l.rx.undef = false ∧ l.rx.bitcnt = 0#3 := by
  obtain ⟨⟨hoe, hrst, hclk, hundef, hbit, -⟩, -⟩ := h.live (w := 0) (by simp [gotoStrays, reqOp])
  exact ⟨hoe, hrst, hclk, hundef, hbit⟩

/-- Settles O37: the operation completes as every other, and its trace leaves the receiver without a defined state. -/
theorem outsideTheTable : Obligations.OutsideTheTable := by
  intro s h
  refine ⟨fun b hb => ?_, fun x y hxy => ?_⟩
  · have he : encode (.wrb .command b) = .request (reqWord 0x2 b (flagByte Mode.command.bit)) := rfl
    obtain ⟨hoe, hrst, hclk, hundef, hbit⟩ := h.lines (reqWord 0x2 b (flagByte Mode.command.bit))
    refine ⟨_, completes_request he h.idle h.quiet, keeps_finished s he (by simp), State.finished_log ..,
      endsFrame_finished _ (A := []) rfl, ?_⟩
    rw [State.finished_rx]
    exact Link.run_wrb_lost hoe hrst hclk hundef hbit (.inr (NoEffect.lost (r := { s.rx with sr := b, bitcnt := 0 }) hb _))
  · have he : encode (.goto x y) = .request (reqWord 0x5 x y) := rfl
    obtain ⟨hoe, hrst, hclk, hundef, hbit⟩ := h.lines (reqWord 0x5 x y)
    refine ⟨_, completes_request he h.idle h.quiet, keeps_finished s he (by simp), State.finished_log ..,
      endsFrame_finished _ (A := cmdTrace s.params (colCmd x)) rfl, ?_⟩
    rw [State.finished_rx]
    exact Link.run_goto_lost hoe hrst hclk hundef hbit ((gotoStrays_encode s.params he).mpr ⟨x, y, rfl, hxy⟩) x y

/-! ### IMAGE (R46, R121) -/

theorem imageTrace_stream (p : Params) (opb : Memory) :
    imageTrace p opb = gotoTrace p 0 0 ++ ((List.range p.ncell).map (opbByte opb)).flatMap (datTrace p) := by
  rw [List.flatMap_map]; rfl

/-- The linear index of the last cell; so the display has a cell. -/
theorem lastCell_succ {p : Params} (hp : p.wf = true) : (p.bands - 1) * p.cols + (p.cols - 1) + 1 = p.ncell := by
  obtain ⟨hcols, -, hbands, -⟩ := params_bounds hp
  obtain ⟨n, hn⟩ := Nat.exists_eq_succ_of_ne_zero hbands.ne'
  rw [Params.ncell, hn, Nat.mul_succ, Nat.mul_comm p.cols, Nat.succ_sub_one]
  omega

/-- IMAGE ends with the frame of its last byte. -/
theorem imageTrace_last {p : Params} (hp : p.wf = true) (opb : Memory) :
    ∃ A, imageTrace p opb = A ++ wrbTrace p .data (opbByte opb (p.ncell - 1)) := by
  obtain ⟨n, hn⟩ : ∃ n, p.ncell = n + 1 := ⟨_, (lastCell_succ hp).symm⟩
  refine ⟨gotoTrace p 0 0 ++ (List.range n).flatMap (fun i => datTrace p (opbByte opb i)), ?_⟩
  rw [imageTrace, hn, List.range_succ, List.flatMap_append, List.flatMap_singleton, ← List.append_assoc]
  rfl

/-- Settles O41: a screen of OPB's bytes streamed from cell 0 is `Link.run_screen`. -/
theorem imageCompletes : Obligations.ImageCompletes := by
  intro s h hbasic hmode
  have he : encode .image = .request (reqWord 0x7 0 0) := rfl
  obtain ⟨hlive, -⟩ := h.live (gotoStrays_other s.params he (by simp))
  obtain ⟨hlive', hset, hcells, haddr⟩ := Link.run_screen h.inv.params hlive hbasic hmode
    ((List.range s.params.ncell).map (opbByte s.opb)) (by simp)
  have hrx := State.finished_rx .image (reqWord 0x7 0 0) s
  rw [opTrace, imageTrace_stream] at hrx
  have hundef := hlive'.undef
  rw [← hrx] at hset hcells haddr hundef
  obtain ⟨A, hlast⟩ := imageTrace_last h.inv.params s.opb
  exact ⟨_, completes_request he h.idle h.quiet, keeps_finished s he (by simp), State.finished_log .., endsFrame_finished _ hlast,
    fun a ha => by rw [hcells a ha]; simp [ha], hset, hundef, haddr⟩

/-! ### BORDER (R47, R126) -/

/-- BORDER's pairs are cells of the display. -/
theorem borderPairs_inside {p : Params} (hp : p.wf = true) {q : Nat × Nat × Byte} (hq : q ∈ borderPairs p) :
    q.1 < p.cols ∧ q.2.1 < p.bands := by
  obtain ⟨hcols, -, hbands, -⟩ := params_bounds hp
  simp only [borderPairs, List.mem_append, List.mem_map, List.mem_range] at hq
  rcases hq with ((⟨k, hk, rfl⟩ | ⟨k, hk, rfl⟩) | ⟨k, hk, rfl⟩) | ⟨k, hk, rfl⟩
  · exact ⟨hk, hbands⟩
  · exact ⟨hk, Nat.sub_one_lt hbands.ne'⟩
  · exact ⟨hcols, hk⟩
  · exact ⟨Nat.sub_one_lt hcols.ne', hk⟩

/-- The last pair is that of the last cell. -/
theorem borderPairs_last {p : Params} (hp : p.wf = true) :
    ∃ ps, borderPairs p = ps ++ [(p.cols - 1, p.bands - 1, 0xFF)] := by
  obtain ⟨-, -, hbands, -⟩ := params_bounds hp
  obtain ⟨n, hn⟩ := Nat.exists_eq_succ_of_ne_zero hbands.ne'
  refine ⟨(List.range p.cols).map (fun x => (x, 0, 0x01)) ++ (List.range p.cols).map (fun x => (x, n, 0x80)) ++
    (List.range p.bands).map (fun y => (0, y, 0xFF)) ++ (List.range n).map (fun y => (p.cols - 1, y, 0xFF)), ?_⟩
  simp [borderPairs, hn, List.range_succ]

theorem pairsTrace_snoc (p : Params) (ps : List (Nat × Nat × Byte)) (x y : Nat) (b : Byte) :
    pairsTrace p (ps ++ [(x, y, b)]) = pairsTrace p ps ++ borderPair p x y b := by
  simp [pairsTrace]

theorem borderTrace_last {p : Params} (hp : p.wf = true) : ∃ A, borderTrace p = A ++ wrbTrace p .data 0xFF := by
  obtain ⟨ps, hps⟩ := borderPairs_last hp
  rw [borderTrace_pairs, hps, pairsTrace_snoc, borderPair, ← List.append_assoc]
  exact ⟨_, rfl⟩

/-- BORDER at a live receiver: its pairs, the address then going on from the last cell. -/
theorem Link.run_border {p : Params} (hp : p.wf = true) {l : Link} (hl : l.Live) (hh : l.rx.h = .basic)
    (ha : l.rx.addrMode = .horizontal) :
    let l' := l.run p (borderTrace p)
    l'.Live ∧ SameSettings l.rx l'.rx ∧ (∀ a, l'.rx.ddram.read a = paired p.cols (borderPairs p) l.rx.ddram.read a) ∧
      (p.wrapLast = some (0, 0) → l'.rx.x = 0 ∧ l'.rx.y = 0) := by
  intro l'
  obtain ⟨hcols, -, hbands, -⟩ := params_bounds hp
  obtain ⟨hlive, hset, hcells⟩ := Link.run_pairs hp (borderPairs p) hl hh ha fun q => borderPairs_inside hp
  rw [← borderTrace_pairs] at hlive hset hcells
  refine ⟨hlive, hset, hcells, fun hw => ?_⟩
  obtain ⟨ps, hps⟩ := borderPairs_last hp
  obtain ⟨hlive₁, hset₁, -⟩ := Link.run_pairs hp ps hl hh ha fun q hq => borderPairs_inside hp (by rw [hps]; simp [hq])
  obtain ⟨-, -, -, haddr⟩ := Link.run_pair hp hlive₁ (hset₁.h.trans hh) (hset₁.addrMode.trans ha) 0xFF
    (x := p.cols - 1) (y := p.bands - 1) (by omega) (by omega)
  rw [← Link.run_append, ← pairsTrace_snoc, ← hps, ← borderTrace_pairs] at haddr
  exact haddr hw (lastCell_succ hp)

/-- BORDER's cells on the default display: the side columns win over the rows. -/
theorem paired_border {p : Params} (hcols : p.cols = 84) (hbands : p.bands = 6) (m : Nat → Option Byte) {x y : Nat}
    (hx : x < 84) (hy : y < 6) :
    paired p.cols (borderPairs p) m (y * 84 + x) =
      if x = 0 ∨ x = 83 then some 0xFF else if y = 0 then some 0x01 else if y = 5 then some 0x80 else m (y * 84 + x) := by
  have hside : ∀ k < 84, (∃ y' < 6, y * 84 + x = y' * 84 + k) ↔ x = k := fun k hk =>
    ⟨by rintro ⟨y', -, h⟩; omega, fun h => ⟨y, hy, by rw [h]⟩⟩
  have hright := hside 83 (by omega)
  have hleft := hside 0 (by omega)
  have hbottom : (5 * 84 ≤ y * 84 + x ∧ y * 84 + x < 5 * 84 + 84) ↔ y = 5 := by omega
  have htop : (0 * 84 ≤ y * 84 + x ∧ y * 84 + x < 0 * 84 + 84) ↔ y = 0 := by omega
  simp only [borderPairs, paired_append, paired_row, paired_col, hcols, hbands, Nat.reduceSub, hright, hleft, hbottom, htop]
  by_cases h0 : x = 0
  · simp [h0]
  by_cases h83 : x = 83
  · simp [h83]
  by_cases hy0 : y = 0
  · simp [h0, h83, hy0]
  · simp [h0, h83, hy0]

/-- The bits of the four edges in the cells BORDER writes (R47). -/
theorem edge_bit {x r : Nat} (m : Option Byte) (hr : r < 48) (he : x = 0 ∨ x = 83 ∨ r = 0 ∨ r = 47) :
    (if x = 0 ∨ x = 83 then some 0xFF else if r / 8 = 0 then some 0x01 else if r / 8 = 5 then some 0x80 else m).map
      (fun b : Byte => b.getLsbD (r % 8)) = some true := by
  have hones : ∀ k < 8, (0xFF : Byte).getLsbD k = true := by decide
  by_cases hside : x = 0 ∨ x = 83
  · rw [if_pos hside, Option.map_some, hones _ (by omega)]
  · rw [if_neg hside]
    obtain rfl | rfl : r = 0 ∨ r = 47 := by omega
    · rfl
    · rfl

/-- A pixel whose bit is set, at a receiver with a defined state: lit in NORMAL mode, not lit in INVERSE. -/
theorem State.lit_of_pixel {u : State} {x r : Nat} (hu : u.rx.undef = false) (hpix : u.pixel x r = some true) :
    (u.rx.display = .normal → u.lit x r = some true) ∧ (u.rx.display = .inverse → u.lit x r = some false) :=
  ⟨fun hd => by simp [State.lit, hu, hd, hpix], fun hd => by simp [State.lit, hu, hd, hpix]⟩

/-- Settles O46: the cells are those of BORDER's pairs, `paired_border`, and the pixels are read off them. -/
theorem borderCompletes : Obligations.BorderCompletes := by
  intro s h hbasic hmode hcols hbands
  have he : encode .border = .request (reqWord 0xB 0 0) := rfl
  obtain ⟨hlive, -⟩ := h.live (gotoStrays_other s.params he (by simp))
  obtain ⟨hlive', hset, hpairs, haddr⟩ := Link.run_border h.inv.params hlive hbasic hmode
  have hrx := State.finished_rx .border (reqWord 0xB 0 0) s
  rw [opTrace] at hrx
  have hundef := hlive'.undef
  rw [← hrx] at hset hpairs haddr hundef
  obtain ⟨A, hlast⟩ := borderTrace_last h.inv.params
  have hcells := fun x y (hx : x < 84) (hy : y < 6) =>
    (hpairs (y * 84 + x)).trans (paired_border hcols hbands s.rx.ddram.read hx hy)
  refine ⟨_, completes_request he h.idle h.quiet, keeps_finished s he (by simp), State.finished_log .., endsFrame_finished _ hlast,
    hcells, fun x r hx hr hedge => ?_, hset, hundef, haddr⟩
  have hpix : (s.finished .border (reqWord 0xB 0 0)).pixel x r = some true := by
    rw [State.pixel, State.finished_params, hcols, hcells x (r / 8) hx (by omega)]
    exact edge_bit _ hr hedge
  have hlit := State.lit_of_pixel hundef hpix
  rw [hset.display] at hlit
  exact ⟨hpix, hlit⟩

end Sys2Proof.Machine
end

section
/-! PROOFS. Decoding and encoding of request words and frames (spec/30_encoding.md R60 to R73), the reserved opcodes (R70), and the
pseudo-operations (R75). -/

namespace Sys2Proof.Machine

/-! ### An instruction's word decodes to it (R60 to R63, R68) -/

/-- Settles O1: a request's word by `decodeRequest_encode`, a frame's by its row of `RoundTrip`. -/
theorem decodeOfEncode : Obligations.DecodeOfEncode := by
  intro i h ha
  cases i with
  | fsetExt => exact Laws.RoundTrip.fsetExt h ha
  | fsetBasic => exact Laws.RoundTrip.fsetBasic h ha
  | setx x => exact Laws.RoundTrip.setx x h ha
  | sety y => exact Laws.RoundTrip.sety y h ha
  | dispNormal => exact Laws.RoundTrip.dispNormal h ha
  | dispInverse => exact Laws.RoundTrip.dispInverse h ha
  | setvop v => exact Laws.RoundTrip.setvop v h ha
  | vopZero => exact Laws.RoundTrip.vopZero h ha
  | settc => exact Laws.RoundTrip.settc h ha
  | setbias => exact Laws.RoundTrip.setbias h ha
  | data d => exact Laws.RoundTrip.data d h ha
  | _ => exact decodeRequest_encode rfl

/-! ### A frame word with a meaning is that instruction's word (R68, R73) -/

/-- A COMMAND byte with bit 7 set is that bit and its operand (R68). -/
theorem bit7_append_operand {b : Byte} (h : b.getLsbD 7 = true) : 1#1 ++ b.extractLsb' 0 7 = b := by
  revert b; decide

/-- A band-set byte is its fixed bits and its operand (R68). -/
theorem bandBits_append_operand {b : Byte} (h : b.extractLsb' 3 5 = 0b01000) : 0b01000#5 ++ b.extractLsb' 0 3 = b := by
  revert b; decide

/-- A COMMAND byte with a meaning in an instruction set is the byte of that instruction, whose row applies there. -/
theorem encode_of_decodeCommand {h : InstrSet} {b : Byte} {i : Instr} (hd : decodeCommand h b = .ok i) :
    encode i = .frame (frameWord .command b) ∧ i.appliesIn h = true := by
  cases h with
  | basic =>
    simp only [decodeCommand] at hd
    split_ifs at hd with _ _ _ _ hbit hband <;> cases hd
    iterate 4 · subst b; exact ⟨rfl, rfl⟩
    · exact ⟨by rw [encode, bit7_append_operand hbit], rfl⟩
    · exact ⟨by rw [encode, bandBits_append_operand hband], rfl⟩
  | extended =>
    simp only [decodeCommand] at hd
    split_ifs at hd with _ _ _ _ hbit <;> cases hd
    iterate 4 · subst b; exact ⟨rfl, rfl⟩
    · exact ⟨by rw [encode, bit7_append_operand hbit], rfl⟩
    all_goals subst b; exact ⟨rfl, rfl⟩

/-- The same of a frame, COMMAND or DATA. -/
theorem encode_of_decodeFrame {h : InstrSet} {m : Mode} {b : Byte} {i : Instr} (hd : decodeFrame h m b = .ok i) :
    encode i = .frame (frameWord m b) ∧ i.appliesIn h = true := by
  cases m with
  | command => exact encode_of_decodeCommand hd
  | data => cases hd; exact ⟨rfl, rfl⟩

/-- Settles O2: a frame word is its mode and byte, and those are `encode_of_decodeFrame`. -/
theorem encodeOfDecodedFrame : Obligations.EncodeOfDecodedFrame := by
  intro h f i hd
  obtain ⟨henc, happ⟩ := encode_of_decodeFrame hd
  rw [frameWord_fields] at henc
  exact ⟨henc, happ⟩

/-! ### The fields that decide a request word (R62, R70, R71) -/

/-- Settles O3: by the opcode, `decodeRequest` answers in the fields its row has. -/
theorem unusedBitsIgnored : Obligations.UnusedBitsIgnored := by
  intro w w' hop
  simp only [decodeRequest, ← hop]
  refine ⟨fun hrow => ?_, fun hrow ha => ?_, fun hrow ha hb => ?_⟩
  · rcases hrow with h | h | h | h <;> simp only [h] <;> rfl
  · rcases hrow with h | h | h | h <;> simp only [h, ha] <;> rfl
  · rcases hrow with h | h <;> simp only [h, ha, hb] <;> rfl

theorem decodeRequest_reserved {w : BitVec 20} (h : reqOp w = 0x0 ∨ 0xC ≤ reqOp w) :
    decodeRequest w = .error (.reservedOpcode (reqOp w)) := by
  have hrows : ∀ k : BitVec 4, 0x1 ≤ k → k ≤ 0xB → reqOp w ≠ k := fun k hlow hhigh heq => by bv_omega
  simp [decodeRequest, hrows]

/-- Settles O4: the opcodes without a row are rejected, and no other. -/
theorem reservedOpcodesRejected : Obligations.ReservedOpcodesRejected :=
  fun _ => ⟨fun ⟨_, hd⟩ => reserved_of_decodeRequest hd, fun h => ⟨_, decodeRequest_reserved h⟩⟩

/-- Settles O5: the words are evaluated. -/
theorem writtenWordsDecode : Obligations.WrittenWordsDecode := by
  unfold Obligations.WrittenWordsDecode
  decide

/-- Settles O6: bytes with bit 7 set, the three bytes that only EXTENDED reads, the function-set bytes, DATA frames. -/
theorem modeDecidesDecoding : Obligations.ModeDecidesDecoding := by
  refine ⟨fun v => ⟨decodeCommand_setx v, decodeCommand_setvop v⟩, fun b hb => ?_, fun h => ?_, fun h b => rfl⟩
  · rcases hb with rfl | rfl | rfl
    · exact ⟨⟨_, rfl⟩, _, rfl⟩
    · exact ⟨⟨_, rfl⟩, _, rfl⟩
    · exact ⟨⟨_, rfl⟩, _, rfl⟩
  · exact ⟨rfl, rfl⟩

/-! ### A reserved opcode at the block (R70) -/

/-- An idle block accepts a reserved opcode, sets ILL and has the empty trace before it. -/
theorem blockStep_reserved {s : State} {w : BitVec 20} {ws : List (BitVec 20)} (hb : s.busy = false) (hr : s.requests = w :: ws)
    (hop : reqOp w = 0x0 ∨ 0xC ≤ reqOp w) : blockStep s = .next (State.accept w { s with requests := ws }).setIll := by
  rw [blockStep_request hb hr, acceptRequest, decodeRequest_reserved hop]

theorem wordTrace_reserved (p : Params) (opb : Memory) {w : BitVec 20} (hop : reqOp w = 0x0 ∨ 0xC ≤ reqOp w) :
    wordTrace p opb w = [] := by
  rw [wordTrace, decodeRequest_reserved hop]

/-- At the end of a reserved opcode's empty trace the next step completes. -/
theorem step_reserved_end {s : State} (hb : s.busy = true) (hq : s.hostIn = []) (hu : s.upc = 0)
    (hop : reqOp s.req = 0x0 ∨ 0xC ≤ reqOp s.req) : step s = .next (State.complete { s with done := false }) := by
  have htrace : s.trace = [] := wordTrace_reserved _ _ hop
  rw [step_quiet hq]
  exact blockStep_end (s := { s with done := false }) hb (by rw [hu]; exact (congrArg List.length htrace).symm)

/-- Settles O9: one step accepts the word, and at the end of its empty trace the next one completes. -/
theorem reservedOpcodeSetsIll : Obligations.ReservedOpcodeSetsIll := by
  intro s w ws hb hq hr hop
  have haccept := blockStep_reserved (s := { s with done := false }) hb hr hop
  rw [← step_quiet hq, State.accept_idle w (s := { s with done := false, requests := ws }) hb] at haccept
  refine ⟨_, _, haccept, step_reserved_end rfl hq rfl hop, rfl, rfl, rfl, rfl, rfl, ?_⟩
  exact ⟨rfl, rfl, rfl, rfl, rfl, rfl, rfl, rfl, rfl, rfl⟩

/-! ### The pseudo-operations (R75) -/

/-- The same piece over and over. -/
theorem flatMap_range_const (n : Nat) (L : List Event) : (List.range n).flatMap (fun _ => L) = (List.replicate n L).flatten := by
  rw [List.flatMap_def, List.map_const', List.length_range]

/-- A character that is drawn is a blank column, its glyph and a blank column (R122). -/
theorem charTrace_bytes (p : Params) {c : Byte} (h : isControl c = false) :
    charTrace p c = (charBytes c).flatMap (wrbTrace p .data) := by
  rw [charTrace, charBytes, h]
  simp [List.range_succ, datTrace]

/-- A text goes on where its first part ends (R124). -/
theorem textTrace_add (p : Params) (opb : Memory) (m n : Nat) :
    textTrace p opb (m + n) = textTrace p opb m ++ (List.range n).flatMap (fun i => charTrace p (opbByte opb (m + i))) := by
  rw [textTrace, List.range_add, List.flatMap_append, List.flatMap_map, textTrace]

/-- An image of zeros is a clear screen (R121). -/
theorem imageTrace_zero {p : Params} {opb : Memory} (h : ∀ a < p.ncell, opbByte opb a = 0) : imageTrace p opb = clearTrace p := by
  have hbytes : (List.range p.ncell).map (opbByte opb) = List.replicate p.ncell 0 := by
    simpa [List.eq_replicate_iff] using h
  rw [imageTrace_stream, hbytes, ← clearTrace_stream]

/-- Settles O23: GOTO and CONTRAST are their definitions, the others the lemmas above. -/
theorem pseudoOperations : Obligations.PseudoOperations := by
  intro p opb
  refine ⟨fun x y => rfl, fun l => rfl, ?_, fun c => charTrace_bytes p, fun n => flatMap_range_const n _, textTrace_add p opb,
    imageTrace_zero⟩
  rw [clearTrace, flatMap_range_const]
  rfl

end Sys2Proof.Machine
end

section
/-! PROOFS. Frames at the receiver (spec/44_display_commands.md R147, R154), and GOTO and CONTRAST from acceptance to end
(spec/42_controller.md R105, R107). -/

namespace Sys2Proof.Machine

/-! ### Frames at a receiver with a defined state -/

/-- A frame at a receiver with a defined state is executed there. -/
theorem exec_frame_defined {i : Instr} (hi : isFrame i = true) {s : State} (hu : s.rx.undef = false) :
    exec i s = .next (s.withRx (rxExec s.params i s.rx s.freeCtr)) := by
  rw [exec_frame hi, hu]; rfl

/-- SETX and SETVOP are one frame, whose meaning RX.H decides (R73). -/
theorem exec_setx_eq_setvop (v : BitVec 7) (s : State) : exec (.setx v) s = exec (.setvop v) s := rfl

/-- A voltage byte in EXTENDED (R147), and the power-save byte there (R148). -/
theorem rxExec_setvop_extended {p : Params} (v : BitVec 7) {r : Rx} (n : Nat) (hh : r.h = .extended) :
    rxExec p (.setvop v) r n = ({ r with vop := v }, n) := by
  simp only [rxExec, hh]

theorem rxExec_vopZero_extended {p : Params} {r : Rx} (n : Nat) (hh : r.h = .extended) :
    rxExec p .vopZero r n = ({ r with vop := 0 }, n) := by
  simp only [rxExec, hh]

/-- Settles O28: the frames in EXTENDED, and that SETX and SETVOP are one frame in either set. -/
theorem voltageSet : Obligations.VoltageSet := by
  intro s v hu
  refine ⟨fun hh => ⟨?_, exec_setx_eq_setvop v s, 0, ?_⟩, fun _ => (exec_setx_eq_setvop v s).symm⟩
  · rw [exec_frame_defined rfl hu, rxExec_setvop_extended v _ hh]; rfl
  · rw [exec_frame_defined rfl hu, rxExec_vopZero_extended _ hh]; rfl

/-! ### Frames without a defined effect (R154, R150) -/

/-- The frame `i` has no defined effect at the receiver `r`: outside the table of its instruction set, a column or a band that is
none of the display's, or a data byte at an address that is no cell. -/
def UndefinedFrame (p : Params) (r : Rx) (i : Instr) : Prop :=
  (r.h = .basic ∧ (i = .vopZero ∨ i = .settc ∨ i = .setbias ∨
    (∃ x, (i = .setx x ∨ i = .setvop x) ∧ p.cols ≤ x.toNat) ∨ ∃ y, i = .sety y ∧ p.bands ≤ y.toNat)) ∨
  (r.h = .extended ∧ ∃ y, i = .sety y) ∨ ∃ d, i = .data d ∧ ¬ r.addressed p = true

/-- Such a frame costs the receiver its defined state. -/
theorem UndefinedFrame.lost {p : Params} {r : Rx} {i : Instr} (h : UndefinedFrame p r i) (n : Nat) : rxExec p i r n = rxLose n := by
  rcases h with ⟨hh, rfl | rfl | rfl | ⟨x, rfl | rfl, hx⟩ | ⟨y, rfl, hy⟩⟩ | ⟨hh, y, rfl⟩ | ⟨d, rfl, ha⟩
  · simp only [rxExec, hh]
  · simp only [rxExec, hh]
  · simp only [rxExec, hh]
  · simp only [rxExec, hh, rxColumn, if_neg (Nat.not_lt_of_le hx)]
  · simp only [rxExec, hh, rxColumn, if_neg (Nat.not_lt_of_le hx)]
  · simp only [rxExec, hh, rxBand, if_neg (Nat.not_lt_of_le hy)]
  · simp only [rxExec, hh]
  · simp only [rxExec, rxData, if_neg ha]

/-- Settles O31: without a defined state before it, or by a frame without a defined effect, the receiver is one draw of `rxLose`. -/
theorem undefinedFrames : Obligations.UndefinedFrames := by
  intro s i f he h
  have hlost : exec i s = .next (s.withRx (rxLose s.freeCtr)) := by
    rw [exec_frame (by rw [isFrame, he])]
    split
    · rfl
    · next hu => rw [UndefinedFrame.lost (h.resolve_left hu)]
  exact ⟨_, hlost, rfl, fun _ => rfl, rfl⟩

/-! ### GOTO and CONTRAST to their ends (R105, R107) -/

/-- Settles O38: at the link GOTO is `Link.run_goto`, whose operand bytes carry the column and the band. -/
theorem gotoCompletes : Obligations.GotoCompletes := by
  intro s x y h hbasic hx hy
  have he : encode (.goto x y) = .request (reqWord 0x5 x y) := rfl
  have hstray : gotoStrays s.params (reqWord 0x5 x y) = false := by
    rw [gotoStrays_goto]; simp [hx, hy]
  obtain ⟨hlive, -⟩ := h.live hstray
  obtain ⟨-, h128, -, h8, -⟩ := params_bounds h.inv.params
  obtain ⟨-, -, hrun⟩ := Link.run_goto h.inv.params hlive hbasic hx hy
  have hrx := (State.finished_rx (.goto x y) (reqWord 0x5 x y) s).trans hrun
  have hend : EndsFrame .command (bandCmd y) (s.finished (.goto x y) (reqWord 0x5 x y)) :=
    endsFrame_finished _ (A := cmdTrace s.params (colCmd x)) rfl
  refine ⟨_, completes_request he h.idle h.quiet, keeps_finished s he (by simp), State.finished_log ..,
    ⟨hend.dc, hend.cs, hend.clk, hend.din.trans (bandCmd_bit0 y)⟩, ?_⟩
  rw [hrx]
  exact ⟨colCmd_column x (by omega), (bandCmd_pattern y (by omega)).2, ⟨rfl, rfl, rfl, rfl, rfl, rfl⟩, fun _ => rfl,
    h.defined⟩

/-- Settles O39: at the link CONTRAST is `Link.run_contrast`, and it ends with FSET_BASIC. -/
theorem contrastCompletes : Obligations.ContrastCompletes := by
  intro s level h
  have he : encode (.contrast level) = .request (reqWord 0x4 level 0) := rfl
  obtain ⟨hlive, -⟩ := h.live (gotoStrays_other s.params he (by simp))
  obtain ⟨-, -, v, hvop, hrun⟩ := Link.run_contrast hlive level
  have hrx := (State.finished_rx (.contrast level) (reqWord 0x4 level 0) s).trans hrun
  refine ⟨_, completes_request he h.idle h.quiet, keeps_finished s he (by simp), State.finished_log ..,
    endsFrame_finished _ (A := cmdTrace s.params 0x21 ++ cmdTrace s.params (adj level)) rfl, ?_⟩
  rw [hrx]
  exact ⟨rfl, rfl, hvop, rfl, rfl, rfl, rfl, rfl, fun _ => rfl, h.defined⟩

end Sys2Proof.Machine
end

section
/-! PROOFS. The bit transmitter (spec/40_bit_transmitter.md): the data line around a rising clock edge (R82), and TXB from acceptance to
end (R83). -/

namespace Sys2Proof.Machine

/-! ### The data line around a rising clock edge (R82, R198, R199) -/

/-- Around every rising clock edge of the trace `L` the data line is set up and held as R82 says. -/
def EdgesStable (p : Params) (L : List Event) : Prop :=
  ∀ pre post, L = pre ++ .set .clk true :: post →
    (∃ pre' v, pre = pre' ++ [.hold p.tUs, .set .clk false, .set .din v, .hold p.tUs]) ∧
    ∃ post', post = [.hold p.tUs, .set .clk false] ++ post'

theorem edgesStable_of_noEdge (p : Params) {L : List Event} (h : Event.set .clk true ∉ L) : EdgesStable p L :=
  fun pre post hL => absurd (by rw [hL]; simp) h

/-- One bit has one rising edge, and its seven events are what the edge needs around it. -/
theorem edgesStable_bitTrace (p : Params) (v : Level) : EdgesStable p (bitTrace p v) := by
  intro pre post hbit
  have hsplit : bitTrace p v = [.hold p.tUs, .set .clk false, .set .din v, .hold p.tUs] ++
      .set .clk true :: [.hold p.tUs, .set .clk false] := rfl
  obtain ⟨rfl, -, rfl⟩ := (List.append_cons_inj_of_notMem (by simp) (by simp)).mp (hsplit.symm.trans hbit)
  exact ⟨⟨[], v, rfl⟩, [], rfl⟩

/-- An edge of a concatenation is an edge of one of its parts, which has all that the edge needs around it. -/
theorem EdgesStable.append {p : Params} {A B : List Event} (hA : EdgesStable p A) (hB : EdgesStable p B) :
    EdgesStable p (A ++ B) := by
  intro pre post hAB
  rcases List.append_eq_append_iff.mp hAB with ⟨mid, rfl, hedge⟩ | ⟨mid, hedge, hrest⟩
  · obtain ⟨⟨pre', v, rfl⟩, hpost⟩ := hB mid post hedge
    exact ⟨⟨A ++ pre', v, (List.append_assoc ..).symm⟩, hpost⟩
  · cases mid with
    | nil =>
      rw [List.append_nil] at hedge
      obtain ⟨⟨pre', v, hpre⟩, hpost⟩ := hB [] post hrest.symm
      exact absurd (congrArg List.length hpre) (by simp)
    | cons e mid =>
      obtain ⟨rfl, rfl⟩ := List.cons.inj hrest
      obtain ⟨hpre, post', rfl⟩ := hA pre mid hedge
      exact ⟨hpre, post' ++ B, List.append_assoc ..⟩

theorem edgesStable_bits (p : Params) (f : Nat → Level) (order : List Nat) :
    EdgesStable p (order.flatMap fun i => bitTrace p (f i)) := by
  induction order with
  | nil => exact edgesStable_of_noEdge p (by simp)
  | cons i order ih => exact (edgesStable_bitTrace p (f i)).append ih

theorem edgesStable_txbTrace (p : Params) (b : Byte) (m : Bool) : EdgesStable p (txbTrace p b m) :=
  (edgesStable_bits p b.getLsbD _).append (edgesStable_of_noEdge p (by simp))

/-- So every trace built from frames: outside its byte a frame does not raise the clock. -/
theorem frameClosed_edgesStable (p : Params) : FrameClosed p (EdgesStable p) where
  nil := edgesStable_of_noEdge p (by simp)
  append _ _ := EdgesStable.append
  frame _ b := ((edgesStable_of_noEdge p (by simp)).append (edgesStable_txbTrace p b true)).append
    (edgesStable_of_noEdge p (by simp))

/-- INIT does not raise the clock before its first frame (R101, R102). -/
theorem initHead_noEdge (p : Params) : Event.set .clk true ∉ initStep1 p ++ initPulse p := by
  cases h : p.hasAux <;> simp [initStep1, initPulse, h]

theorem edgesStable_initTrace (p : Params) : EdgesStable p (initTrace p) := by
  have frames := frameClosed_edgesStable p
  have hsettle : EdgesStable p [.hold p.tSettleUs] := edgesStable_of_noEdge p (by simp)
  rw [initTrace_split]
  exact (edgesStable_of_noEdge p (initHead_noEdge p)).append
    (((((frames.frame _ _).append frames.toNormal).append (frames.frame _ _)).append hsettle).append frames.clear)

/-- Settles O18: TXB's trace is made of bits, INIT's of an edgeless head and frames, the others of frames. -/
theorem dataLineStableAroundEdge : Obligations.DataLineStableAroundEdge := by
  intro p opb i
  by_cases hinit : i = .init
  · subst hinit
    exact edgesStable_initTrace p
  · by_cases htxb : ∃ b m, i = .txb b m
    · obtain ⟨b, m, rfl⟩ := htxb
      exact edgesStable_txbTrace p b m
    · exact (frameClosed_edgesStable p).op opb i hinit fun b m h => htxb ⟨b, m, h⟩

/-! ### TXB to its end (R83) -/

/-- A receiver that is not selected takes nothing from a write to another pin than chip-select and reset (R141). -/
theorem rxDeliver_unselected {p : Params} {k oe : Bool} {q : Pins} {pin : Pin} {old v : Level} {r : Rx} {n : Nat}
    (hcs : q.cs = true) (hu : r.undef = false) (hpin : pin ≠ .cs ∧ pin ≠ .rst) :
    rxDeliver p k oe q pin old v r n = (r, n) := by
  simp [rxDeliver, hcs, hu, hpin]

/-- Nor from a trace of such writes, whether or not the lines are driven. -/
theorem Link.run_unselected {p : Params} {L : List Event} {l : Link} (hcs : l.pins.cs = true) (hu : l.rx.undef = false)
    (hL : ∀ pin v, Event.set pin v ∈ L → pin ≠ .cs ∧ pin ≠ .rst) : (l.run p L).rx = l.rx := by
  induction L generalizing l with
  | nil => rfl
  | cons e L ih =>
    have hrest : ∀ pin v, Event.set pin v ∈ L → pin ≠ .cs ∧ pin ≠ .rst := fun pin v h => hL pin v (List.mem_cons_of_mem _ h)
    rw [Link.run_cons]
    cases e with
    | hold d => exact ih hcs hu hrest
    | cfg => exact ih hcs hu hrest
    | set pin v =>
      have hpin := hL pin v List.mem_cons_self
      have hcs' : (l.pins.put pin v).cs = true := (Pins.get_put_other l.pins v hpin.1.symm).trans hcs
      have hrx : (l.event p (.set pin v)).rx = l.rx := congrArg Prod.fst (rxDeliver_unselected hcs' hu hpin)
      rw [ih hcs' (hrx ▸ hu) hrest, hrx]

/-- TXB writes the clock and the data line only (R80, R81). -/
theorem pin_of_set_mem_txbTrace {p : Params} {b : Byte} {m : Bool} {pin : Pin} {v : Level}
    (h : Event.set pin v ∈ txbTrace p b m) : pin = .clk ∨ pin = .din := by
  simp only [txbTrace, bitTrace, List.mem_append, List.mem_flatMap, List.mem_cons, List.not_mem_nil, or_false, reduceCtorEq,
    Event.set.injEq, false_or] at h
  obtain ⟨i, -, ⟨rfl, -⟩ | ⟨rfl, -⟩ | ⟨rfl, -⟩ | ⟨rfl, -⟩⟩ := h <;> simp

/-- Pin registers that hold the same levels are the same. -/
theorem Pins.eq_of_get_eq {q q' : Pins} (h : ∀ p, q.get p = q'.get p) : q = q' := by
  cases q
  cases q'
  simp only [Pins.mk.injEq]
  exact ⟨h .rst, h .cs, h .dc, h .din, h .clk, h .aux⟩

/-- The pins after TXB, by the last levels its trace writes. -/
theorem State.finished_txb_pins (s : State) (b : Byte) (m : Bool) (w : BitVec 20) :
    (s.finished (.txb b m) w).pins = { s.pins with clk := false, din := b.getLsbD (if m then 0 else 7) } := by
  refine Pins.eq_of_get_eq fun q => ?_
  rw [State.finished_pin, opTrace]
  cases q with
  | rst => exact txbTrace_rst ..
  | cs => exact txbTrace_cs ..
  | dc => exact txbTrace_dc ..
  | din => exact txbTrace_din ..
  | clk => exact txbTrace_clk ..
  | aux => exact txbTrace_aux ..

/-- Settles O35: the pins are `State.finished_txb_pins`, and in idle chip-select is high, so that the receiver takes nothing. -/
theorem txbCompletes : Obligations.TxbCompletes := by
  intro s b m h
  have he : encode (.txb b m) = .request (reqWord 0x1 b (flagByte m)) := rfl
  have hcs : s.pins.cs = true := h.inv.cs.trans (by rw [State.performed_idle h.idle]; rfl)
  refine ⟨_, completes_request he h.idle h.quiet, keeps_finished s he (by simp), State.finished_log ..,
    s.finished_txb_pins b m _, fun hrx => ?_⟩
  rw [State.finished_rx]
  rcases hrx with hoe | hu
  · exact (Link.run_undriven s.params _ (s.linkOf _) hoe (opTrace_quiet s.params s.opb (by simp)).1).1
  · refine Link.run_unselected (l := s.linkOf _) hcs hu fun pin v hmem => ?_
    rcases pin_of_set_mem_txbTrace hmem with rfl | rfl <;> simp

end Sys2Proof.Machine
end

section
/-! PROOFS. The framer (spec/41_framer.md): WRB from acceptance to end (R90, R92, R142). -/

namespace Sys2Proof.Machine

/-- A live link's receiver takes a frame in the table by executing it (R142): between frames no bit is counted. -/
theorem Link.Live.rxTake_eq_rxExec {l : Link} (hl : l.Live) {m : Mode} {b : Byte} {i : Instr}
    (hd : decodeFrame l.rx.h m b = .ok i) (p : Params) (n : Nat) :
    rxTake p m b { l.rx with sr := b, bitcnt := 0 } n = rxExec p i { l.rx with sr := b } n := by
  simp only [rxTake, hd, hl.bitcnt, BitVec.ofNat_eq_ofNat]

/-- Settles O36: at the link WRB is `Link.run_frame`, whose frame is taken by `rxExec`; the count of free values there is that of the
eighth rising clock edge. -/
theorem wrbDeliversItsFrame : Obligations.WrbDeliversItsFrame := by
  intro s m b i h hd hdefined
  have he : encode (.wrb m b) = .request (reqWord 0x2 b (flagByte m.bit)) := rfl
  obtain ⟨hlive, -⟩ := h.live (gotoStrays_other s.params he (by simp))
  obtain ⟨v, hexec, hv⟩ := hdefined (s.freeCtr + 23)
  have hframe := exec_frame_defined (decodeFrame_isFrame hd)
    (s := { s with rx := { s.rx with sr := b }, freeCtr := s.freeCtr + 23 }) h.defined
  obtain rfl := Host.Outcome.next.inj (hframe.symm.trans hexec)
  have hbit := (rxExec_ownFields hv).bitcnt.trans hlive.bitcnt
  obtain ⟨hrun, -⟩ := Link.run_frame hlive (hlive.rxTake_eq_rxExec hd s.params _) hv hbit
  refine ⟨_, _, _, completes_request he h.idle h.quiet, keeps_finished s he (by simp), State.finished_log ..,
    endsFrame_finished _ (A := []) rfl, hexec, ?_⟩
  exact (State.finished_rx (.wrb m b) _ s).trans (congrArg Link.rx hrun)

end Sys2Proof.Machine
end

section
/-! PROOFS. Streaming and rendering (spec/43_rendering.md): CLEAR, CHAR, TEXT and PAD from acceptance to end (R120, R122 to R125, R127). -/

namespace Sys2Proof.Machine

/-! ### CLEAR (R120, R151) -/

/-- CLEAR ends with the frame of the last cell's zero. -/
theorem clearTrace_last {p : Params} (hp : p.wf = true) : ∃ A, clearTrace p = A ++ wrbTrace p .data 0 := by
  rw [clearTrace_stream, ← lastCell_succ hp, List.replicate_succ', List.flatMap_append, List.flatMap_singleton, ← List.append_assoc]
  exact ⟨_, rfl⟩

/-- Settles O40: a screen of zeros streamed from cell 0 is `Link.run_screen`. -/
theorem clearCompletes : Obligations.ClearCompletes := by
  intro s h hbasic hmode
  have he : encode .clear = .request (reqWord 0x6 0 0) := rfl
  obtain ⟨hlive, -⟩ := h.live (gotoStrays_other s.params he (by simp))
  obtain ⟨hlive', hset, hcells, haddr⟩ := Link.run_screen h.inv.params hlive hbasic hmode
    (List.replicate s.params.ncell 0) List.length_replicate
  have hrx := State.finished_rx .clear (reqWord 0x6 0 0) s
  rw [opTrace, clearTrace_stream] at hrx
  have hundef := hlive'.undef
  rw [← hrx] at hset hcells haddr hundef
  obtain ⟨A, hlast⟩ := clearTrace_last h.inv.params
  exact ⟨_, completes_request he h.idle h.quiet, keeps_finished s he (by simp), State.finished_log .., endsFrame_finished _ hlast,
    fun a ha => by rw [hcells a ha, List.getElem?_replicate, if_pos ha], hset, hundef, haddr⟩

/-! ### Characters as streams of data bytes (R122, R124, R125, R127) -/

/-- A character's trace sends its data bytes, a control character's none. -/
theorem charTrace_stream (p : Params) (ch : Byte) : charTrace p ch = (charBytes ch).flatMap (datTrace p) := by
  cases h : isControl ch with
  | false => exact charTrace_bytes p h
  | true => simp [charTrace, charBytes, h]

theorem textTrace_stream (p : Params) (opb : Memory) (n : Nat) :
    textTrace p opb n = (textBytes opb n).flatMap (datTrace p) := by
  simp only [textTrace, textBytes, charTrace_stream, List.flatMap_assoc]

theorem padTrace_stream (p : Params) (n : Nat) : padTrace p n = (padBytes n).flatMap (datTrace p) := by
  simp only [padTrace, padBytes, charTrace_stream, List.flatMap_assoc]

/-- A character that is drawn has seven data bytes (R122). -/
theorem charBytes_drawn {ch : Byte} (h : isControl ch = false) :
    charBytes ch = [0, glyphByte ch 0, glyphByte ch 1, glyphByte ch 2, glyphByte ch 3, glyphByte ch 4, 0] := by
  rw [charBytes, h]; rfl

/-- PAD's bytes are seven a space (R125). -/
theorem padBytes_length (n : Nat) : (padBytes n).length = 7 * n := by
  have hspace : (charBytes 0x20).length = 7 := by rw [charBytes_drawn (by decide)]; rfl
  simp only [padBytes, List.length_flatMap, hspace, List.map_const', List.length_range, List.sum_replicate, smul_eq_mul, Nat.mul_comm]

/-- A character that is drawn ends with the frame of its right blank column. -/
theorem charTrace_last (p : Params) {ch : Byte} (h : isControl ch = false) :
    ∃ A, charTrace p ch = A ++ wrbTrace p .data 0 := by
  rw [charTrace, h]
  exact ⟨_, rfl⟩

/-! ### Operations that stream (R127, R150, R151) -/

/-- The receiver of `u` is that of `s` after `bytes` were streamed from its address. -/
structure StreamedTo (bytes : List Byte) (s u : State) : Prop where
  cells : ∀ a, u.rx.ddram.read a = streamed s.params.ncell (s.rx.cell s.params) bytes s.rx.ddram.read a
  addressed : Addressed u
  cell : u.rx.cell s.params = (s.rx.cell s.params + bytes.length) % s.params.ncell
  settings : SameSettings s.rx u.rx
  defined : u.rx.undef = false

/-- A listening, addressed machine runs a request whose trace is a stream of data frames: `Link.run_stream` at its link. -/
theorem streamedTo_finished {s : State} {i : Instr} {w : BitVec 20} {bytes : List Byte} (h : Listening s) (ha : Addressed s)
    (he : encode i = .request w) (hi : ∀ x y, i ≠ .goto x y)
    (htrace : opTrace s.params s.opb i = bytes.flatMap (datTrace s.params))
    (hw : s.params.wrapLast = some (0, 0) ∨ s.rx.cell s.params + bytes.length < s.params.ncell) :
    StreamedTo bytes s (s.finished i w) := by
  obtain ⟨hlive, -⟩ := h.live (gotoStrays_other s.params he hi)
  obtain ⟨hlive', hset, hcells, hmoved⟩ := Link.run_stream h.inv.params bytes hlive ha (hw.imp_right Nat.le_of_lt)
  obtain ⟨haddr, hcell⟩ := hmoved hw
  have hrx := State.finished_rx i w s
  rw [htrace] at hrx
  have hundef := hlive'.undef
  rw [← hrx] at hset hcells haddr hcell hundef
  exact ⟨hcells, by rwa [Addressed, State.finished_params], hcell, hset, hundef⟩

/-- An operation with the empty trace touches neither the receiver nor the pins. -/
theorem State.finished_of_nil {s : State} {i : Instr} (w : BitVec 20) (h : opTrace s.params s.opb i = []) :
    (s.finished i w).rx = s.rx ∧ (s.finished i w).pins = s.pins := by
  rw [State.finished_rx, State.finished_pins, h]
  exact ⟨rfl, rfl⟩

/-! ### CHAR (R122) -/

/-- Settles O42: a drawn character is a stream of its seven bytes. -/
theorem charCompletes : Obligations.CharCompletes := by
  intro s ch h ha hdrawn hw
  have he : encode (.char ch) = .request (reqWord 0x8 ch 0) := rfl
  have hbytes := charTrace_stream s.params ch
  rw [charBytes_drawn hdrawn] at hbytes
  obtain ⟨hcells, haddr, hcell, hset, hundef⟩ := streamedTo_finished h ha he (by simp) hbytes hw
  obtain ⟨A, hlast⟩ := charTrace_last s.params hdrawn
  exact ⟨_, completes_request he h.idle h.quiet, keeps_finished s he (by simp), State.finished_log .., endsFrame_finished _ hlast,
    hcells, haddr, hcell, hset, hundef⟩

/-- The characters R122 names are the control characters. -/
theorem isControl_of_named {ch : Byte} (h : ch = 0x0A ∨ ch = 0x0D ∨ ch = 0x09) : isControl ch = true := by
  rcases h with rfl | rfl | rfl <;> rfl

/-- Settles O43: a control character's trace is empty, whatever the receiver's state. -/
theorem charSkipsControl : Obligations.CharSkipsControl := by
  intro s ch h hch
  have he : encode (.char ch) = .request (reqWord 0x8 ch 0) := rfl
  have hnil : opTrace s.params s.opb (.char ch) = [] := if_pos (isControl_of_named hch)
  obtain ⟨hrx, hpins⟩ := State.finished_of_nil (reqWord 0x8 ch 0) hnil
  exact ⟨_, completes_request he h.idle h.quiet, keeps_finished s he (by simp), by rw [State.finished_log, hnil, List.append_nil],
    hpins, hrx⟩

/-! ### TEXT and PAD (R124, R125) -/

/-- Settles O44: a text is a stream of its characters' bytes, and the text of no character has the empty trace. -/
theorem textCompletes : Obligations.TextCompletes := by
  intro s n h ha hw
  have he : encode (.text n) = .request (reqWord 0x9 n 0) := rfl
  obtain ⟨hcells, haddr, hcell, hset, hundef⟩ := streamedTo_finished h ha he (by simp) (textTrace_stream ..) hw
  exact ⟨_, completes_request he h.idle h.quiet, keeps_finished s he (by simp), State.finished_log .., hcells, haddr, hcell, hset,
    hundef, fun hn => State.finished_of_nil _ (by rw [hn]; rfl)⟩

/-- Settles O45: a run of spaces is a stream of seven bytes a space, and that of no space has the empty trace. -/
theorem padCompletes : Obligations.PadCompletes := by
  intro s n h ha hw
  have he : encode (.pad n) = .request (reqWord 0xA n 0) := rfl
  rw [← padBytes_length] at hw ⊢
  obtain ⟨hcells, haddr, hcell, hset, hundef⟩ := streamedTo_finished h ha he (by simp) (padTrace_stream ..) hw
  exact ⟨_, completes_request he h.idle h.quiet, keeps_finished s he (by simp), State.finished_log .., hcells, haddr, hcell, hset,
    hundef, fun hn => State.finished_of_nil _ (by rw [hn]; rfl)⟩

end Sys2Proof.Machine
end

section
/-! PROOFS. Frames at the receiver in the instruction set they are for (spec/44_display_commands.md R143 to R146, R149 to R151), and what
takes the receiver's defined state or gives it one (R141, R152, R154, R192). -/

namespace Sys2Proof.Machine

/-! ### The command frames (R143 to R146, R149) -/

/-- Settles O25: in either set the function-set frames write RX.H; FSET_EXT keeps the addressing mode. -/
theorem functionSet : Obligations.FunctionSet := by
  intro s hu
  rw [exec_frame_defined rfl hu, exec_frame_defined rfl hu]
  exact ⟨⟨s.rx.addrMode, rfl, id⟩, rfl⟩

section Basic
variable {p : Params} {r : Rx} (n : Nat) (hh : r.h = .basic)
include hh

theorem rxExec_setx_basic (x : BitVec 7) : rxExec p (.setx x) r n = rxColumn p x r n := by simp only [rxExec, hh]
theorem rxExec_sety_basic (y : BitVec 3) : rxExec p (.sety y) r n = rxBand p y r n := by simp only [rxExec, hh]
theorem rxExec_dispNormal_basic : rxExec p .dispNormal r n = ({ r with display := .normal }, n) := by simp only [rxExec, hh]
theorem rxExec_dispInverse_basic : rxExec p .dispInverse r n = ({ r with display := .inverse }, n) := by simp only [rxExec, hh]

end Basic

section Extended
variable {p : Params} {r : Rx} (n : Nat) (hh : r.h = .extended)
include hh

theorem rxExec_dispNormal_extended : rxExec p .dispNormal r n = (r, n) := by simp only [rxExec, hh]
theorem rxExec_dispInverse_extended : rxExec p .dispInverse r n = (r, n) := by simp only [rxExec, hh]
theorem rxExec_settc_extended : rxExec p .settc r n = ({ r with tc := 0x04 }, n) := by simp only [rxExec, hh]
theorem rxExec_setbias_extended : rxExec p .setbias r n = ({ r with bias := 0x14 }, n) := by simp only [rxExec, hh]

end Extended

theorem rxColumn_inside {p : Params} {x : BitVec 7} (r : Rx) (n : Nat) (hx : x.toNat < p.cols) :
    rxColumn p x r n = ({ r with x := x }, n) := if_pos hx

theorem rxBand_inside {p : Params} {y : BitVec 3} (r : Rx) (n : Nat) (hy : y.toNat < p.bands) :
    rxBand p y r n = ({ r with y := y }, n) := if_pos hy

/-- A column or a band that is none of the display's is a frame without a defined effect. -/
theorem undefinedFrame_setx {p : Params} {r : Rx} {x : BitVec 7} (hh : r.h = .basic) (hx : p.cols ≤ x.toNat) :
    UndefinedFrame p r (.setx x) :=
  .inl ⟨hh, .inr (.inr (.inr (.inl ⟨x, .inl rfl, hx⟩)))⟩

theorem undefinedFrame_sety {p : Params} {r : Rx} {y : BitVec 3} (hh : r.h = .basic) (hy : p.bands ≤ y.toNat) :
    UndefinedFrame p r (.sety y) :=
  .inl ⟨hh, .inr (.inr (.inr (.inr ⟨y, rfl, hy⟩)))⟩

/-- Settles O26: in range the frames are `rxColumn_inside` and `rxBand_inside`; out of range they are undefined frames. -/
theorem addressSet : Obligations.AddressSet := by
  intro s hu hh
  refine ⟨fun x => ?_, fun y => ?_⟩
  · rw [exec_frame_defined rfl hu]
    refine ⟨fun hx => ?_, fun hx => ⟨_, rfl, ?_⟩⟩
    · rw [rxExec_setx_basic _ hh, rxColumn_inside _ _ hx]; rfl
    · rw [(undefinedFrame_setx hh hx).lost]; rfl
  · rw [exec_frame_defined rfl hu]
    refine ⟨fun hy => ?_, fun hy => ⟨_, rfl, ?_⟩⟩
    · rw [rxExec_sety_basic _ hh, rxBand_inside _ _ hy]; rfl
    · rw [(undefinedFrame_sety hh hy).lost]; rfl

/-- Settles O27: the display-control frames at the receiver, in BASIC and in EXTENDED. -/
theorem displayControl : Obligations.DisplayControl := by
  intro s hu
  rw [exec_frame_defined rfl hu, exec_frame_defined rfl hu]
  refine ⟨fun hh => ?_, fun hh => ?_⟩
  · rw [rxExec_dispNormal_basic _ hh, rxExec_dispInverse_basic _ hh]; exact ⟨rfl, rfl⟩
  · rw [rxExec_dispNormal_extended _ hh, rxExec_dispInverse_extended _ hh]; exact ⟨rfl, rfl⟩

/-- Settles O29: the temperature and bias frames at the receiver, in EXTENDED. -/
theorem temperatureAndBias : Obligations.TemperatureAndBias := by
  intro s hu hh
  rw [exec_frame_defined rfl hu, exec_frame_defined rfl hu, rxExec_settc_extended _ hh, rxExec_setbias_extended _ hh]
  exact ⟨rfl, rfl⟩

/-! ### The data frame (R150, R151) -/

theorem rxData_addressed {p : Params} {r : Rx} (b : Byte) (n : Nat) (ha : r.addressed p = true) :
    rxData p b r n = ({ r with
      ddram := r.ddram.write (r.cell p) b, x := (r.nextAddress p n).1, y := (r.nextAddress p n).2 }, n + 1) := if_pos ha

section NextAddress
variable {p : Params} {r : Rx} (n : Nat)

/-- Before the last column the address moves to the next column. -/
theorem nextAddress_column (hx : r.x.toNat + 1 < p.cols) : r.nextAddress p n = (r.x + 1, r.y) := if_pos hx

/-- After the last column of a band before the last it moves to the first column of the next band. -/
theorem nextAddress_band (hx : r.x.toNat + 1 = p.cols) (hy : r.y.toNat + 1 < p.bands) : r.nextAddress p n = (0, r.y + 1) := by
  rw [Rx.nextAddress, if_neg hx.not_lt, if_pos hy]

/-- After the last cell it moves to WRAP_LAST, where that is fixed. -/
theorem nextAddress_wrap (hx : r.x.toNat + 1 = p.cols) (hy : r.y.toNat + 1 = p.bands) {w : BitVec 7 × BitVec 3}
    (hw : p.wrapLast = some w) : r.nextAddress p n = w := by
  simp only [Rx.nextAddress, if_neg hx.not_lt, if_neg hy.not_lt, hw]

end NextAddress

/-- Settles O30: the frame is `rxData_addressed`: the cells by the laws of a memory write, the address by those of `nextAddress`. -/
theorem dataWritesOneCell : Obligations.DataWritesOneCell := by
  intro s d hu ha
  have hexec : exec (.data d) s = .next (s.withRx (rxData s.params d s.rx s.freeCtr)) := exec_frame_defined rfl hu
  rw [rxData_addressed d _ ha] at hexec
  refine ⟨_, hexec, rfl, Memory.read_write_same .., fun a hne => Memory.read_write_other _ _ hne, ⟨rfl, rfl, rfl, rfl, rfl, rfl⟩,
    rfl, rfl, hu, fun hx => ?_, fun hx hy => ?_, fun hx hy w hw => ?_⟩
  · simp only [State.withRx_rx, nextAddress_column _ hx, and_self]
  · simp only [State.withRx_rx, nextAddress_band _ hx hy, and_self]
  · simp only [State.withRx_rx, nextAddress_wrap _ hx hy hw]

/-! ### What reaches the receiver in a step (R141, R152, R154, R192) -/

/-- The block's step reaches the receiver by a pin write only. -/
theorem blockStep_rx {s t : State} (h : blockStep s = .next t) :
    t.rx = s.rx ∨ s.busy = true ∧ ∃ p v n, t.log = s.log ++ [.set p v] ∧
      t.rx = (rxDeliver s.params (gotoStrays s.params s.req) s.oe (s.pins.put p v) p (s.pins.get p) v s.rx n).1 := by
  rcases blockStep_cases h with ⟨-, -, rfl⟩ | ⟨-, w, ws, i, -, -, rfl⟩ | ⟨hb, w, ws, r, -, -, rfl⟩ | ⟨-, -, rfl⟩ |
    ⟨-, d, -, rfl⟩ | ⟨-, -, rfl⟩ | ⟨hb, p, v, -, rfl⟩
  · exact .inl rfl
  · exact .inl rfl
  · rw [State.accept_idle w (s := { s with requests := ws }) hb]; exact .inl rfl
  · exact .inl rfl
  · exact .inl holdStep_rx
  · exact .inl rfl
  · exact .inr ⟨hb, p, v, s.freeCtr, rfl, rfl⟩

/-- A step reaches the receiver by hardware reset or by a pin write only. -/
theorem step_rx {s t : State} (h : step s = .next t) :
    (∃ rest, s.hostIn = .reset :: rest ∧ t.rx = Rx.drawn s.freeCtr 0 true) ∨
    t.rx = s.rx ∨ s.busy = true ∧ ∃ p v n, t.log = s.log ++ [.set p v] ∧
      t.rx = (rxDeliver s.params (gotoStrays s.params s.req) s.oe (s.pins.put p v) p (s.pins.get p) v s.rx n).1 := by
  rcases step_cases h with ⟨rest, hq, rfl⟩ | ⟨s₁, hhost, hblock⟩
  · exact .inl ⟨rest, hq, rfl⟩
  · obtain ⟨hparams, hreq, hpins, hoe, -, hbusy, -, -, -, -, -, hrx, hlog, -⟩ := hhost.frame
    have hreach := blockStep_rx hblock
    rw [hparams, hreq, hpins, hoe, hbusy, hrx, hlog] at hreach
    exact .inr hreach

section Deliver
variable (p : Params) (k : Bool) (q : Pins) (old : Level) (r : Rx) (n : Nat)

/-- With the outputs disabled a pin write does not reach the receiver (R141). -/
theorem rxDeliver_undriven (pin : Pin) (v : Level) : rxDeliver p k false q pin old v r n = (r, n) := rfl

/-- The falling reset line is the reset pulse, whatever the receiver's state (R152). -/
theorem rxDeliver_pulse : rxDeliver p k true q .rst old false r n = (Rx.drawn n 0 false, n + 1) := rfl

end Deliver

/-- No pin write but the reset pulse gives a receiver a defined state (R154). -/
theorem rxDeliver_undef {p : Params} {k oe : Bool} {q : Pins} {pin : Pin} {old v : Level} {r : Rx} {n : Nat}
    (hu : r.undef = true) : (rxDeliver p k oe q pin old v r n).1.undef = true ∨ (oe = true ∧ pin = .rst ∧ v = false) := by
  rcases rxDeliver_cases p k oe q pin old v r n with ⟨e, -⟩ | ⟨hoe, hrst, hlow, -⟩ | ⟨-, -, e⟩ | ⟨-, hdef, -⟩ | ⟨-, hdef, -⟩ |
    ⟨-, hdef, -⟩
  · exact .inl (by rw [e]; exact hu)
  · exact .inr ⟨hoe, hrst, hlow⟩
  · exact .inl (by rw [e]; rfl)
  all_goals rw [hu] at hdef; cases hdef

/-- Settles O58: of the two ways a step reaches the receiver (`step_rx`), a pin write does nothing while OE = 0. -/
theorem undrivenReceiverUntouched : Obligations.UndrivenReceiverUntouched := by
  intro s t h hoe
  rcases step_rx h with ⟨rest, hq, -⟩ | hsame | ⟨-, p, v, n, -, hrx⟩
  · exact .inr ⟨rest, hq⟩
  · exact .inl hsame
  · rw [hoe, rxDeliver_undriven] at hrx
    exact .inl hrx

/-- The step in which `rst_n` is low. -/
theorem step_hardReset {s : State} {rest : List HostAct} (hq : s.hostIn = .reset :: rest) :
    step s = .next (State.hardReset { s with hostIn := rest }) := by
  simp only [step, machineStep, hq]

/-- The step at the falling reset line of a driven receiver. -/
theorem step_pulse {s : State} (hb : s.busy = true) (hq : s.hostIn = []) (he : s.trace[s.upc]? = some (.set .rst false))
    (hoe : s.oe = true) :
    step s = .next ((State.setPin .rst false { s with done := false }).withRx (Rx.drawn s.freeCtr 0 false, s.freeCtr + 1)) := by
  rw [step_quiet hq, blockStep_event (s := { s with done := false }) hb he, eventStep, deliver_eq, State.setPin_oe, hoe,
    rxDeliver_pulse]
  rfl

/-- Settles O59: hardware reset and the reset pulse draw the receiver anew, without a defined state and with one; no other pin write
gives it one (`rxDeliver_undef`). -/
theorem undefinedUntilResetPulse : Obligations.UndefinedUntilResetPulse := by
  refine ⟨fun s rest hq => ⟨_, step_hardReset hq, rfl, rfl, fun _ => rfl⟩, fun s t h hu => ?_,
    fun s hb hq he hoe => ⟨_, step_pulse hb hq he hoe, rfl, rfl, fun _ => rfl⟩⟩
  rcases step_rx h with ⟨rest, -, hrx⟩ | hsame | ⟨hb, p, v, n, hlog, hrx⟩
  · exact .inl (by rw [hrx]; rfl)
  · exact .inl (by rw [hsame, hu])
  · rw [hrx]
    refine (rxDeliver_undef hu).imp_right ?_
    rintro ⟨hoe, rfl, rfl⟩
    exact ⟨hoe, hb, hlog⟩

end Sys2Proof.Machine
end

section
/-! PROOFS. Progress: every step answers a next state (spec/10_state.md R15, R170, R212). -/

namespace Sys2Proof.Machine

/-- Every event can be performed: a hold and `CFG` by definition, a pin write because the receiver takes whatever reaches it
(`deliver_eq`). -/
theorem eventStep_progress (e : Event) (s : State) : ∃ t, eventStep e s = .next t := by
  cases e with
  | hold d => exact ⟨_, rfl⟩
  | cfg => exact ⟨_, rfl⟩
  | set p v => exact ⟨_, deliver_eq ..⟩

/-- An idle block accepts every request word, a reserved one included (R15 (a), R70). -/
theorem acceptRequest_progress {s : State} (hb : s.busy = false) (w : BitVec 20) : ∃ t, acceptRequest w s = .next t := by
  unfold acceptRequest
  split
  · next i hd =>
    obtain ⟨w', he⟩ := decodeRequest_isRequest hd
    rw [exec_request he hb]
    exact ⟨_, rfl⟩
  · exact ⟨_, rfl⟩

/-- The block's one fault is UPC past the end of the trace. -/
theorem blockStep_progress {s : State} (hupc : s.busy = true → s.upc ≤ s.trace.length) : ∃ t, blockStep s = .next t := by
  cases hb : s.busy with
  | true =>
    rcases (hupc hb).lt_or_eq with hlt | hend
    · rw [blockStep_event hb (List.getElem?_eq_getElem hlt)]
      exact eventStep_progress _ s
    · exact ⟨_, blockStep_end hb hend⟩
  | false =>
    cases hr : s.requests with
    | nil => exact ⟨s, by simp [blockStep, hb, hr]⟩
    | cons w ws =>
      obtain ⟨t, ht⟩ := acceptRequest_progress (s := { s with requests := ws }) hb w
      exact ⟨t, by simpa [blockStep, hb, hr] using ht⟩

/-- A step is hardware reset, or the block's step after the host's action. -/
theorem step_reset_or_block (s : State) :
    (∃ rest, s.hostIn = .reset :: rest) ∨ ∃ s₁, HostStep s s₁ ∧ step s = blockStep s₁ := by
  cases hq : s.hostIn with
  | nil => exact .inr ⟨_, .quiet hq, step_quiet hq⟩
  | cons act rest =>
    cases act with
    | reset => exact .inl ⟨rest, rfl⟩
    | wait => exact .inr ⟨_, .wait rest hq, by simp only [step, machineStep, hq]⟩
    | writeOpb i b => exact .inr ⟨_, .write i b rest hq, by simp only [step, machineStep, hq]⟩
    | request w => exact .inr ⟨_, .request w rest hq, by simp only [step, machineStep, hq]⟩

/-- Settles O52: hardware reset always answers; the host's action keeps the invariant, by which UPC is inside the trace, and there
the block's step answers. -/
theorem noStuckState : Obligations.NoStuckState := by
  intro s h
  rcases step_reset_or_block s with ⟨rest, hq⟩ | ⟨s₁, hhost, hstep⟩
  · exact ⟨_, step_hardReset hq⟩
  · rw [hstep]
    exact blockStep_progress (h.hostStep hhost).upc

end Sys2Proof.Machine
end

section
/-! PROOFS. Hazards of the traces (spec/70_reset_and_hazards.md): one byte per bracket (R200), the levels at a trace's end (R201), the
display's reset pulse before any frame (R207). -/

namespace Sys2Proof.Machine

/-- What INIT sends after its reset pulse (R103, R104): frames, but for the settling hold. -/
theorem FrameClosed.initTail {p : Params} {P : List Event → Prop} (h : FrameClosed p P) (hsettle : P [.hold p.tSettleUs]) :
    P (cmdTrace p 0x21 ++ initToNormal p ++ cmdTrace p (dispCtl p) ++ [.hold p.tSettleUs] ++ clearTrace p) :=
  h.append _ _ (h.append _ _ (h.append _ _ (h.append _ _ (h.frame _ _) h.toNormal) (h.frame _ _)) hsettle) h.clear

/-! ### One byte per bracket (R91, R200) -/

theorem frameClosed_bracketed (p : Params) : FrameClosed p (fun L => bracketed none L = true) where
  nil := rfl
  append _ _ hA hB := (bracketed_append hA).trans hB
  frame m b := wrbTrace_bracketed p m b

/-- TXB alone neither opens a bracket nor selects a mode (R83). -/
theorem txbTrace_bracketed (p : Params) (b : Byte) (m : Bool) : bracketed none (txbTrace p b m) = true := by
  cases m <;> simp [txbTrace, bitOrder, bitTrace, bracketed]

/-- The reset pulse opens no bracket; the frames after it are one each. -/
theorem initTrace_brackets (p : Params) :
    ∃ rest, initTrace p = initStep1 p ++ rest ∧ bracketed none rest = true := by
  have hpulse : bracketed none (initPulse p) = true := rfl
  refine ⟨_, (initTrace_split p).trans (List.append_assoc ..), ?_⟩
  exact (bracketed_append hpulse).trans ((frameClosed_bracketed p).initTail rfl)

/-- INIT's step 1 selects nothing and clocks nothing: it writes chip-select high and the clock low (R101). -/
theorem initStep1_deselects (p : Params) :
    Event.set .cs false ∉ initStep1 p ∧ Event.set .clk true ∉ initStep1 p ∧ Event.set .cs true ∈ initStep1 p := by
  cases h : p.hasAux <;> simp [initStep1, h]

/-- Settles O19: TXB's trace has no bracket, INIT's is step 1, the pulse and frames, the others are made of frames. -/
theorem oneByteBrackets : Obligations.OneByteBrackets := by
  intro p opb i
  constructor
  · intro hinit
    by_cases htxb : ∃ b m, i = .txb b m
    · obtain ⟨b, m, rfl⟩ := htxb
      exact txbTrace_bracketed p b m
    · exact (frameClosed_bracketed p).op opb i hinit fun b m h => htxb ⟨b, m, h⟩
  · rintro rfl
    obtain ⟨rest, hsplit, hrest⟩ := initTrace_brackets p
    exact ⟨rest, hsplit, hrest, initStep1_deselects p⟩

/-! ### The levels at a trace's end (R201, R33) -/

/-- Settles O20: every trace ends at the idle levels (`opTrace_idle`); in idle no event is performed, so the invariant's levels are
the idle levels. -/
theorem tracesEndIdle : Obligations.TracesEndIdle := by
  refine ⟨opTrace_idle, fun s hs hidle => ?_⟩
  have hnone : s.performed = [] := State.performed_idle hidle
  exact ⟨by rw [hs.clk, hnone]; rfl, by rw [hs.cs, hnone]; rfl⟩

/-! ### The display's reset pulse (R207) -/

/-- Step 1 writes the reset line high, its power-on level (R101). -/
theorem initStep1_no_reset (p : Params) : Event.set .rst false ∉ initStep1 p := by
  cases h : p.hasAux <;> simp [initStep1, h]

/-- Settles O22: the pulse stands between INIT's step 1 with the power-up hold, which select nothing, and frames, which leave the
reset line alone (`frameClosed_quiet`). -/
theorem resetPulseComesFirst : Obligations.ResetPulseComesFirst := by
  intro p
  obtain ⟨hselect, -, -⟩ := initStep1_deselects p
  have htail := (frameClosed_quiet p).initTail (by simp)
  refine ⟨initStep1 p ++ [.hold p.tPwrUs], _, ?_, by simpa using hselect, by simpa using initStep1_no_reset p,
    fun v => (htail.2 v).1⟩
  simp [initTrace_split, initPulse]

end Sys2Proof.Machine
end
